-- ==== Sys2Proof/Word.lean ====
section
/-! DEFINITION. The widths of the core: bytes, 32-bit words and bit strings (R9). -/

namespace Sys2Proof

/-- An 8-bit value, the symbol of every stream (R5, R9). -/
abbrev Byte := BitVec 8

/-- A 32-bit word: a command, a register, a `u32` record field (R5, R90, R96). -/
abbrev Word := BitVec 32

/-- A bit string, first bit first (R9). -/
abbrev Bits := List Bool

end Sys2Proof
end

