-- ==== Sys2Proof/Config.lean ====
section
/-! DEFINITION. The implementation parameters of R5. Every one the spec marks OPEN is a field, so
that a claim over all states is a claim over all of them (log 2). The spec leaves no value free
(R8), so there is no opaque constant here. -/

namespace Sys2Proof

/-- The open parameters of R5, fixed for the life of the hardware (R20, R48). -/
structure Config where
  /-- `BLOCK_SIZE_RESET` -/
  blockSizeReset : Nat
  /-- `CHUNK_SIZE_RESET` -/
  chunkSizeReset : Nat
  /-- `DCAP`, capacity of `D` in bytes -/
  dcap : Nat
  /-- `RTCAP`, capacity of `RT` in entries -/
  rtcap : Nat
  /-- `PCAP`, capacity of `P` in bytes -/
  pcap : Nat
  /-- `RS_BLOCKS`, capacity of `RS` in Blocks -/
  rsBlocks : Nat
  /-- `RS_BYTES`, capacity of `RS` in bytes -/
  rsBytes : Nat
  deriving DecidableEq, Repr

/-- `CSCAP`: 256 entries of at most 35 bytes, not open (R5, R34, R103). -/
def Config.csCap : Nat := 8960

/-- The values R5 states. DESIGN CHOICE (log 3, unsafe): R5 gives `RS_BLOCKS` and `RS_BYTES` no
value; here they are so large that no run is stopped by them, which R5 allows a model. -/
def Config.default : Config where
  blockSizeReset := 65536
  chunkSizeReset := 1024
  dcap := 16777215
  rtcap := 16777215
  pcap := 16777216
  rsBlocks := 4294967296
  rsBytes := 4294967296 * 16777215

/-- The ranges R5 and R28 give the parameters. -/
def Config.wf (c : Config) : Bool :=
  decide (1 ≤ c.blockSizeReset ∧ c.blockSizeReset ≤ c.dcap ∧ c.blockSizeReset < 2 ^ 24 ∧
    1 ≤ c.chunkSizeReset ∧ c.chunkSizeReset < 2 ^ 24 ∧
    1 ≤ c.dcap ∧ c.dcap < 2 ^ 32 ∧ 1 ≤ c.rtcap ∧ c.rtcap < 2 ^ 32 ∧
    1 ≤ c.pcap ∧ c.pcap < 2 ^ 32)

end Sys2Proof
end

