-- ==== Sys2Proof/Syntax.lean ====
section
/-! DEFINITION. The 25 commands of `KC-CMD` version 1 (R93), one constructor each. -/

namespace Sys2Proof

/-- A command. Format I commands carry their 24-bit immediate (R91, R92); all others have none. -/
inductive Instr where
  /-- R250 -/
  | nop
  /-- R251 -/
  | setbs (imm : BitVec 24)
  /-- R252 -/
  | setcs (imm : BitVec 24)
  /-- R253 -/
  | srst
  /-- R200 -/
  | ldblk
  /-- R201 -/
  | std
  /-- R133 -/
  | rot
  /-- R135 -/
  | unrot
  /-- R151 -/
  | mtfe
  /-- R152 -/
  | mtfd
  /-- R160 -/
  | hcnt
  /-- R163 -/
  | htree
  /-- R165 -/
  | hcode
  /-- R167 -/
  | henc
  /-- R169 -/
  | hdec
  /-- R171 -/
  | ctser
  /-- R172 -/
  | ctdes
  /-- R202 -/
  | frame
  /-- R203 -/
  | deframe
  /-- R205 -/
  | collect
  /-- R206 -/
  | concat
  /-- R231 -/
  | cblk
  /-- R232 -/
  | dblk
  /-- R233 -/
  | comp
  /-- R234 -/
  | decomp
  deriving DecidableEq, Repr

end Sys2Proof
end

