-- ==== Sys2Proof/WellFormed.lean ====
section
/-! DEFINITION. Which operand values a command may carry (R94 (c), (d)). -/

namespace Sys2Proof

/-- The legal commands on a core with parameters `cfg`: `SETBS` takes 1 .. `DCAP`, `SETCS` takes
1 .. 2^24-1 (R94, R251, R252). The check reads the command and `DCAP`, never the state. -/
def Instr.wf (cfg : Config) : Instr → Bool
  | .setbs imm => decide (1 ≤ imm.toNat ∧ imm.toNat ≤ cfg.dcap)
  | .setcs imm => decide (1 ≤ imm.toNat)
  | .nop | .srst | .ldblk | .std | .rot | .unrot | .mtfe | .mtfd | .hcnt | .htree | .hcode
  | .henc | .hdec | .ctser | .ctdes | .frame | .deframe | .collect | .concat | .cblk | .dblk
  | .comp | .decomp => true

end Sys2Proof
end

