-- ==== Sys2Proof/Decode.lean ====
section
/-! DEFINITION. Command words: the decoder (total, refusing by name) and the encoder (R90 to R95). -/

namespace Sys2Proof

/-- Why a word is illegal (R94). Each case raises `IllegalCommand`. -/
inductive IllegalWord where
  /-- R94 (a): `op` is none of the 25 values -/
  | reservedOpcode (op : BitVec 8)
  /-- R94 (b): a format Z command with a non-zero immediate -/
  | immediateNotZero (op : BitVec 8) (imm : BitVec 24)
  /-- R94 (c): `SETBS 0` -/
  | blockSizeZero
  /-- R94 (c): `SETBS` above `DCAP` -/
  | blockSizeAboveCapacity (imm : BitVec 24)
  /-- R94 (d): `SETCS 0` -/
  | chunkSizeZero
  deriving DecidableEq, Repr

/-- What the decoder says of a word. -/
inductive Decoded where
  | command (i : Instr)
  | illegal (why : IllegalWord)
  deriving DecidableEq, Repr

/-- `op` = bits 31:24 of a command word (R90). -/
def opField (w : Word) : BitVec 8 := w.extractLsb' 24 8

/-- `imm` = bits 23:0 of a command word (R90). -/
def immField (w : Word) : BitVec 24 := w.extractLsb' 0 24

/-- The format Z rows of the opcode map (R93). -/
def zRows : List (BitVec 8 × Instr) :=
  [(0x00#8, .nop), (0x03#8, .srst),
   (0x10#8, .ldblk), (0x11#8, .std),
   (0x20#8, .rot), (0x21#8, .unrot),
   (0x30#8, .mtfe), (0x31#8, .mtfd)] ++
  [(0x40#8, .hcnt), (0x41#8, .htree), (0x42#8, .hcode), (0x43#8, .henc),
   (0x44#8, .hdec), (0x45#8, .ctser), (0x46#8, .ctdes)] ++
  [(0x50#8, .frame), (0x51#8, .deframe), (0x52#8, .collect), (0x53#8, .concat),
   (0x60#8, .cblk), (0x61#8, .dblk), (0x62#8, .comp), (0x63#8, .decomp)]

/-- A `SETBS` word's operand test (R94 (c)). -/
def decodeSetbs (cfg : Config) (imm : BitVec 24) : Decoded :=
  if imm = 0 then .illegal .blockSizeZero
  else if cfg.dcap < imm.toNat then .illegal (.blockSizeAboveCapacity imm)
  else .command (.setbs imm)

/-- A `SETCS` word's operand test (R94 (d)). -/
def decodeSetcs (imm : BitVec 24) : Decoded :=
  if imm = 0 then .illegal .chunkSizeZero else .command (.setcs imm)

/-- A word of no format I row: a format Z row with a zero immediate, or illegal (R94 (a), (b)). -/
def decodeZ (op : BitVec 8) (imm : BitVec 24) : Decoded :=
  match zRows.lookup op with
  | none => .illegal (.reservedOpcode op)
  | some i => if imm = 0 then .command i else .illegal (.immediateNotZero op imm)

/-- The command decoder (R91, R93, R94): it reads the word and `DCAP`, never the state. -/
def decode (cfg : Config) (w : Word) : Decoded :=
  if opField w = 0x01 then decodeSetbs cfg (immField w)
  else if opField w = 0x02 then decodeSetcs (immField w)
  else decodeZ (opField w) (immField w)

/-- A command's opcode (R93). -/
def Instr.opcode : Instr → BitVec 8
  | .nop => 0x00
  | .setbs _ => 0x01
  | .setcs _ => 0x02
  | .srst => 0x03
  | .ldblk => 0x10
  | .std => 0x11
  | .rot => 0x20
  | .unrot => 0x21
  | .mtfe => 0x30
  | .mtfd => 0x31
  | .hcnt => 0x40
  | .htree => 0x41
  | .hcode => 0x42
  | .henc => 0x43
  | .hdec => 0x44
  | .ctser => 0x45
  | .ctdes => 0x46
  | .frame => 0x50
  | .deframe => 0x51
  | .collect => 0x52
  | .concat => 0x53
  | .cblk => 0x60
  | .dblk => 0x61
  | .comp => 0x62
  | .decomp => 0x63

/-- A command's 24-bit immediate field: its operand in format I, 0 in format Z (R90, R91). -/
def Instr.immediate : Instr → BitVec 24
  | .setbs imm => imm
  | .setcs imm => imm
  | .nop | .srst | .ldblk | .std | .rot | .unrot | .mtfe | .mtfd | .hcnt | .htree | .hcode
  | .henc | .hdec | .ctser | .ctdes | .frame | .deframe | .collect | .concat | .cblk | .dblk
  | .comp | .decomp => 0

/-- The word of a command: `op` in bits 31:24, `imm` in bits 23:0 (R90, R93). -/
def encode (i : Instr) : Word := i.opcode ++ i.immediate

/-- The instruction the decoder reads, or none where it refuses. -/
def Decoded.instr? : Decoded → Option Instr
  | .command i => some i
  | .illegal _ => none

/-- The decoder on a word numbered as `spec/opcode_table.json` numbers it. A command is one 32-bit
word (R90), so bits at and above `nbits` are 0 and the word is that number. The core is the one with
R5's stated parameters (`DCAP` is the only one a word's legality depends on). -/
def decodeTableWord (nbits w : Nat) : Option Instr :=
  (decode Config.default (BitVec.ofNat 32 (w % 2 ^ nbits))).instr?

end Sys2Proof
end

