-- ==== Sys2Proof/Machine/Bits.lean ====
section
/-! DEFINITION. Byte sequences, big-endian words and packed bit strings: the notation of R9. -/

namespace Sys2Proof.Machine

/-- `s[a..b)` (R9). -/
def slice {α : Type} (s : List α) (a b : Nat) : List α := (s.take b).drop a

/-- `be32(v)`: most significant byte first (R9, R66). -/
def be32 (v : Word) : List Byte :=
  [v.extractLsb' 24 8, v.extractLsb' 16 8, v.extractLsb' 8 8, v.extractLsb' 0 8]

/-- `be32` of a length or count (R96). -/
def be32Nat (n : Nat) : List Byte := be32 (BitVec.ofNat 32 n)

/-- `unbe32(b)`: the word of the first four bytes (R9, R66). -/
def unbe32 (b : List Byte) : Word :=
  b.getD 0 0 ++ b.getD 1 0 ++ b.getD 2 0 ++ b.getD 3 0

/-- `ceil(a / b)` (R9). -/
def ceilDiv (a b : Nat) : Nat := (a + b - 1) / b

/-- `zeros(n)` (R9). -/
def zeros (n : Nat) : Bits := List.replicate n false

/-- The byte of eight bits, first bit in bit 7 (R101). -/
def packByte (b7 b6 b5 b4 b3 b2 b1 b0 : Bool) : Byte :=
  BitVec.ofBool b7 ++ BitVec.ofBool b6 ++ BitVec.ofBool b5 ++ BitVec.ofBool b4 ++
    BitVec.ofBool b3 ++ BitVec.ofBool b2 ++ BitVec.ofBool b1 ++ BitVec.ofBool b0

/-- `packbits(c)` for `|c|` a multiple of 8 (R9, R101). -/
def packBits : Bits → List Byte
  | b7 :: b6 :: b5 :: b4 :: b3 :: b2 :: b1 :: b0 :: rest =>
    packByte b7 b6 b5 b4 b3 b2 b1 b0 :: packBits rest
  | _ => []

/-- The eight bits of a byte, bit 7 first (R101). -/
def unpackByte (b : Byte) : Bits :=
  [b.getLsbD 7, b.getLsbD 6, b.getLsbD 5, b.getLsbD 4, b.getLsbD 3, b.getLsbD 2, b.getLsbD 1,
   b.getLsbD 0]

/-- `unpackbits(s)` (R9, R101). -/
def unpackBits (s : List Byte) : Bits := s.flatMap unpackByte

end Sys2Proof.Machine
end

