-- ==== Sys2Proof/Machine/State.lean ====
section
/-! DEFINITION. The complete state of the core (R20) as plain data, what can stop it, and reset (R47). -/

namespace Sys2Proof.Machine

/-- The stage the core is in (R23). -/
inductive Phase where
  | idle | split | rotate | rank | encode | frame
  | deframe | decode | unrank | unrotate | concat
  deriving DecidableEq, Repr

/-- The error causes (R261). -/
inductive ErrorKind where
  | malformedContainer | codeTableMismatch | illegalCommand | capacityExceeded
  deriving DecidableEq, Repr

/-- A node of the Prefix-Code Tree's arena; children are arena indices (R40). -/
inductive TreeNode where
  | leaf (sym : Byte) (freq : Word)
  | node (freq : Word) (left right : Nat)
  deriving DecidableEq, Repr

/-- The reassembly store: keys and Blocks, keys strictly rising (R42). -/
abbrev Store := List (Word × List Byte)

/-- The Code Table: for each symbol its code, or none (R41). -/
abbrev CodeTable := Vector (Option Bits) 256

/-- The Frequency Table: 256 counts of 32 bits (R39). -/
abbrev FreqTable := Vector Word 256

/-- Every element of R20. Lengths (`DLEN`, `RTN`, `CSLEN`, `PLEN`, `TRN`), counts (`CTN`, `RSN`) and
`STATUS` are views (R25, R36) and have no field. -/
structure State where
  /-- The model's own field: the parameters of R5, which no step changes (log 2). -/
  cfg : Config
  /-- `CMDQ`, oldest first (R21). -/
  cmdq : List Word
  /-- `CUR` (R21), held decoded (log 20). -/
  cur : Option Instr
  /-- `PHASE` (R23). -/
  phase : Phase
  /-- Flag `ERR` (R24). -/
  err : Bool
  /-- Flag `EOI` (R24). -/
  eoi : Bool
  /-- Flag `EOC` (R24). -/
  eoc : Bool
  /-- Flag `SEQ_OVF` (R24). -/
  seqOvf : Bool
  /-- `ERRCAUSE` (R26). -/
  errCause : Word
  /-- `ERRSEQ` (R27). -/
  errSeq : Word
  /-- `BLKSIZE` (R28). -/
  blkSize : Word
  /-- `CHKSIZE` (R29). -/
  chkSize : Word
  /-- `SEQ` (R30). -/
  seq : Word
  /-- `RSEQ` (R31). -/
  rseq : Word
  /-- `D` (R32). -/
  d : List Byte
  /-- `RT` (R33). -/
  rt : List Word
  /-- `CS` (R34). -/
  cs : List Byte
  /-- `P` (R35). -/
  p : List Byte
  /-- `ML` (R38). -/
  ml : List Byte
  /-- `FT` (R39). -/
  ft : FreqTable
  /-- `TR` (R40). -/
  tr : List TreeNode
  /-- `CT` (R41). -/
  ct : CodeTable
  /-- `RS` (R42). -/
  rs : Store
  /-- `IN` (R43). -/
  inp : List Byte
  /-- `OUT`: every byte pushed since reset (R44). -/
  out : List Byte
  /-- How many bytes of `OUT` the host has popped: R44's read prefix. -/
  outRead : Nat
  /-- `INCNT` (R37). -/
  inCnt : Word
  /-- `OUTCNT` (R37). -/
  outCnt : Word
  deriving DecidableEq, Repr

/-- What stops the machine with a fault: nothing. Every error of the spec is a next state (R266),
every wait is a next state (R298), so there is no constructor. -/
inductive Fault where
  deriving DecidableEq, Repr

/-- What has no meaning. -/
inductive Refusal where
  /-- Raised by `exec` for a command that has no meaning yet; no arm raises it now. Safe. -/
  | notModelled (mnemonic : String)
  /-- Raised by the host action `PushIn` when `EOI = 1`: the spec gives the push no meaning (R297).
  Safe: no claim can be drawn from the move. -/
  | pushAfterEoi
  /-- Raised by the host action `PopOut` when every byte of `OUT` has been popped: R79 allows it only
  when `OUT` is non-empty. Safe. -/
  | popOfEmptyOut
  deriving DecidableEq, Repr

/-- The identity list `ML[i] = i` (R38, R150). -/
def identityList : List Byte := (List.range 256).map (BitVec.ofNat 8)

/-- The state after the reset of a core with parameters `cfg` (R47, R290). -/
def State.resetWith (cfg : Config) : State where
  cfg := cfg
  cmdq := []
  cur := none
  phase := .idle
  err := false
  eoi := false
  eoc := false
  seqOvf := false
  errCause := 0
  errSeq := 0
  blkSize := BitVec.ofNat 32 cfg.blockSizeReset
  chkSize := BitVec.ofNat 32 cfg.chunkSizeReset
  seq := 0
  rseq := 0
  d := []
  rt := []
  cs := []
  p := []
  ml := identityList
  ft := Vector.replicate 256 0
  tr := []
  ct := Vector.replicate 256 none
  rs := []
  inp := []
  out := []
  outRead := 0
  inCnt := 0
  outCnt := 0

/-- The state after reset of the core with the parameter values R5 states (R47, R291). -/
def State.reset : State := State.resetWith Config.default

end Sys2Proof.Machine
end

