-- ==== Sys2Proof/Machine/Flags.lean ====
section
/-! DEFINITION. The codes of `PHASE` and of the error causes, and the status words made of flags
(R23, R25, R26, R261). -/

namespace Sys2Proof.Machine

/-- The 4-bit code of a phase (R23); 11 to 15 are never produced. -/
def Phase.code : Phase → BitVec 4
  | .idle => 0
  | .split => 1
  | .rotate => 2
  | .rank => 3
  | .encode => 4
  | .frame => 5
  | .deframe => 6
  | .decode => 7
  | .unrank => 8
  | .unrotate => 9
  | .concat => 10

/-- The cause code of an error (R261). -/
def ErrorKind.code : ErrorKind → BitVec 4
  | .malformedContainer => 1
  | .codeTableMismatch => 2
  | .illegalCommand => 3
  | .capacityExceeded => 4

/-- `ERRCAUSE` as `raise` writes it: CAUSE 3:0, SUB 7:4, SEQV 8, the rest 0 (R26, R266). -/
def errCauseWord (e : ErrorKind) (sub : BitVec 4) (seqv : Bool) : Word :=
  0#23 ++ BitVec.ofBool seqv ++ sub ++ e.code

/-- `ERRCAUSE.CAUSE` (R26). -/
def causeField (w : Word) : BitVec 4 := w.extractLsb' 0 4

/-- `ERRCAUSE.SUB` (R26). -/
def subField (w : Word) : BitVec 4 := w.extractLsb' 4 4

/-- `ERRCAUSE.SEQV` (R26). -/
def seqvField (w : Word) : Bool := w.getLsbD 8

/-- `STATUS.BUSY`: a command is in execution (R25). -/
def State.busy (s : State) : Bool := s.cur.isSome

/-- `STATUS` (R25): PHASE 11:8, SEQ_OVF 4, EOC 3, EOI 2, ERR 1, BUSY 0, the rest 0. -/
def State.status (s : State) : Word :=
  0#20 ++ s.phase.code ++ 0#3 ++ BitVec.ofBool s.seqOvf ++ BitVec.ofBool s.eoc ++
    BitVec.ofBool s.eoi ++ BitVec.ofBool s.err ++ BitVec.ofBool s.busy

/-- The `busy` level output (R275). -/
def State.busyLine (s : State) : Bool := s.status.getLsbD 0

/-- The `err` level output (R275). -/
def State.errLine (s : State) : Bool := s.status.getLsbD 1

end Sys2Proof.Machine
end

