-- ==== Sys2Proof/Machine/Ops.lean ====
section
/-! DEFINITION. The operations the meanings share: beginning, ending and holding a command, raising
an error and leaving the error state, the two streams, the store, and the composition of stages. -/

namespace Sys2Proof.Machine

/-! ## The sequencer's registers -/

/-- `PHASE <- p`: a command begins a stage (R23). -/
def State.enter (p : Phase) (s : State) : State := { s with phase := p }

/-- A command ends without error: `CUR <- none`, `PHASE <- IDLE` (R21, R23). -/
def State.endCommand (s : State) : State := { s with cur := none, phase := .idle }

/-- A command waits: only `CUR` and `PHASE` show it (R10, R298). -/
def State.holdAt (i : Instr) (p : Phase) (s : State) : State := { s with cur := some i, phase := p }

/-- The head of `CMDQ` becomes `CUR`; `PHASE` is `IDLE` until a stage begins (R21, R23). -/
def State.fetch (rest : List Word) (i : Instr) (s : State) : State :=
  { s with cmdq := rest, cur := some i, phase := .idle }

/-! ## Errors -/

/-- `raise E(sub, seq)` in a stage whose `PHASE` is `p` (R266): the exception entry of this core.
Nothing is saved but the cause and the sequence number; there is no handler. -/
def State.raise (e : ErrorKind) (sub : BitVec 4) (seq : Option Word) (p : Phase) (s : State) :
    State :=
  { s with
    err := true
    errCause := errCauseWord e sub seq.isSome
    errSeq := seq.getD 0
    phase := p
    cur := none }

/-- The return from the error state, which is also the soft reset: every element takes its reset
value except `OUT`, `OUTCNT` and `CMDQ` (R253, R269). -/
def State.softReset (s : State) : State :=
  { State.resetWith s.cfg with
    cmdq := s.cmdq, out := s.out, outRead := s.outRead, outCnt := s.outCnt }

/-! ## Streams -/

/-- `InAvail()` (R10). -/
def State.inAvail (s : State) : Nat := s.inp.length

/-- `InPeek(n)` (R10). -/
def State.inPeek (n : Nat) (s : State) : List Byte := s.inp.take n

/-- `InPop(n)` with its count: `IN` loses its first `n` bytes, `INCNT` gains `n` (R10, R37). -/
def State.inPop (n : Nat) (s : State) : State :=
  { s with inp := s.inp.drop n, inCnt := s.inCnt + BitVec.ofNat 32 n }

/-- `OutPush(bs)` with its count: one uninterrupted run at the tail of `OUT` (R10, R37, R62). -/
def State.outPush (bs : List Byte) (s : State) : State :=
  { s with out := s.out ++ bs, outCnt := s.outCnt + BitVec.ofNat 32 bs.length }

/-! ## The reassembly store -/

/-- The keys of the store, in its order (R42). -/
def Store.keys (m : Store) : List Word := m.map Prod.fst

/-- `k in RS` (R9). -/
def Store.has (m : Store) (k : Word) : Bool := m.keys.contains k

/-- `RS[k]` (R9). -/
def Store.get? (m : Store) (k : Word) : Option (List Byte) := m.lookup k

/-- The bytes held in all Blocks together (R42). -/
def Store.bytes (m : Store) : Nat := (m.map fun e => e.2.length).sum

/-- `RS[k] <- v`, keeping the keys rising (R65). -/
def Store.insert (k : Word) (v : List Byte) : Store → Store
  | [] => [(k, v)]
  | e :: m =>
    if k.toNat < e.1.toNat then (k, v) :: e :: m
    else if k = e.1 then (k, v) :: m
    else e :: Store.insert k v m

/-- The canonical form: keys strictly rising as unsigned numbers. -/
def Store.wf (m : Store) : Bool := decide (m.Pairwise fun a b => a.1.toNat < b.1.toNat)

/-! ## Stages -/

/-- How a stage command ends: with all its writes, with an error and none of its writes, or not begun
because it waits in phase `p`. -/
inductive StageEnd where
  | ok (s : State)
  | raised (s : State)
  | held (p : Phase)
  deriving DecidableEq, Repr

/-- The next stage of a macro command, run only when the one before it ended well (R235). -/
def StageEnd.andThen (r : StageEnd) (f : State → StageEnd) : StageEnd :=
  match r with
  | .ok s => f s
  | .raised s => .raised s
  | .held p => .held p

/-- The end of command `i`, begun in state `s`, whose stages ended as `r`. -/
def finish (i : Instr) (s : State) (r : StageEnd) : Host.Outcome State Fault Refusal :=
  match r with
  | .ok t => .next t.endCommand
  | .raised t => .next t
  | .held p => .next (s.holdAt i p)

/-- One pass of the macro command `i`, begun in state `s`: `CUR` stays and `PHASE` shows the stage the
next pass begins with (R236). -/
def finishPass (i : Instr) (p : Phase) (s : State) (r : StageEnd) :
    Host.Outcome State Fault Refusal :=
  match r with
  | .ok t => .next (t.holdAt i p)
  | .raised t => .next t
  | .held q => .next (s.holdAt i q)

end Sys2Proof.Machine
end

