-- ==== Sys2Proof/Machine/Container.lean ====
section
/-! DEFINITION. The Container Codec: FRAME, DEFRAME, COLLECT, CONCAT (R96 to R99, R202 to R207). -/

namespace Sys2Proof.Machine

/-! ## Writing a record (R96, R202) -/

/-- The record of a Block: seven fields, big-endian (R96). -/
def recordBytes (seq : Word) (rt : List Word) (cs p : List Byte) : List Byte :=
  be32 seq ++ be32Nat rt.length ++ rt.flatMap be32 ++ be32Nat cs.length ++ cs ++
    be32Nat p.length ++ p

/-- The record `FRAME` writes. -/
def State.record (s : State) : List Byte := recordBytes s.seq s.rt s.cs s.p

/-- `SEQ <- SEQ + 1`, or wrap and set `SEQ_OVF` after number 2^32 - 1 (R30, R202). -/
def State.countRecord (s : State) : State :=
  if s.seq = 0xFFFFFFFF#32 then { s with seq := 0, seqOvf := true }
  else { s with seq := s.seq + 1 }

/-- The stage `FRAME` (R202). -/
def stageFrame (s : State) : StageEnd :=
  if s.seqOvf then .raised (s.raise .capacityExceeded 1 none .frame)
  else .ok (((s.outPush s.record).countRecord).enter .frame)

/-- `FRAME` (R202). -/
def execFrame (s : State) : Host.Outcome State Fault Refusal := finish .frame s (stageFrame s)

/-! ## Reading a record (R99, R203, R204) -/

/-- The verdict of `ParseRecord` (R99). -/
inductive Parsed where
  | complete (seq : Word) (rt : List Word) (cs p : List Byte) (len : Nat)
  | oversize (seq : Word)
  | incomplete (seq : Option Word)
  deriving DecidableEq, Repr

/-- The `u32` at offset `o` (R66, R96). -/
def u32At (b : List Byte) (o : Nat) : Word := unbe32 (slice b o (o + 4))

/-- `ParseRecord` from the field `payloadByteLength` on, which stands at offset `o2` (R99). -/
def parsePayload (cfg : Config) (b : List Byte) (seq : Word) (rt : List Word) (cs : List Byte)
    (o2 : Nat) : Parsed :=
  if b.length < o2 + 4 then .incomplete (some seq)
  else if cfg.pcap < (u32At b o2).toNat then .oversize seq
  else if b.length < o2 + 4 + (u32At b o2).toNat then .incomplete (some seq)
  else .complete seq rt cs (slice b (o2 + 4) (o2 + 4 + (u32At b o2).toNat))
    (o2 + 4 + (u32At b o2).toNat)

/-- `ParseRecord` from the field `codeTableByteLength` on, which stands at offset `o1` (R99). -/
def parseTable (cfg : Config) (b : List Byte) (seq : Word) (n o1 : Nat) : Parsed :=
  if b.length < o1 + 4 then .incomplete (some seq)
  else if Config.csCap < (u32At b o1).toNat then .oversize seq
  else parsePayload cfg b seq ((List.range n).map fun i => u32At b (8 + 4 * i))
    (slice b (o1 + 4) (o1 + 4 + (u32At b o1).toNat)) (o1 + 4 + (u32At b o1).toNat)

/-- `ParseRecord(b)` (R99): each length field is tested against its capacity as soon as it can be
read. -/
def parseRecord (cfg : Config) (b : List Byte) : Parsed :=
  if b.length < 4 then .incomplete none
  else if b.length < 8 then .incomplete (some (u32At b 0))
  else if cfg.rtcap < (u32At b 4).toNat then .oversize (u32At b 0)
  else parseTable cfg b (u32At b 0) (u32At b 4).toNat (8 + 4 * (u32At b 4).toNat)

/-- The outcomes of `DEFRAME` (R204), and its wait. -/
inductive DeframeOutcome where
  | record (seq : Word) (rt : List Word) (cs p : List Byte) (len : Nat)
  | oversize (seq : Word)
  | truncated (seq : Option Word)
  | endOfContainer
  | wait
  deriving DecidableEq, Repr

/-- Which outcome `DEFRAME` takes (R203, R204). -/
def deframeOutcome (s : State) : DeframeOutcome :=
  match parseRecord s.cfg s.inp with
  | .complete seq rt cs p len => .record seq rt cs p len
  | .oversize seq => .oversize seq
  | .incomplete seq =>
    if s.eoi then
      if s.inp = [] then .endOfContainer else .truncated seq
    else .wait

/-- The stage `DEFRAME` (R203). -/
def stageDeframe (s : State) : StageEnd :=
  match deframeOutcome s with
  | .record seq rt cs p len =>
    .ok (({ s with rseq := seq, rt := rt, cs := cs, p := p }.inPop len).enter .deframe)
  | .oversize seq => .raised (s.raise .malformedContainer 6 (some seq) .deframe)
  | .truncated seq => .raised (s.raise .malformedContainer 1 seq .deframe)
  | .endOfContainer => .ok ({ s with eoc := true }.enter .deframe)
  | .wait => .held .deframe

/-- `DEFRAME` (R203). -/
def execDeframe (s : State) : Host.Outcome State Fault Refusal := finish .deframe s (stageDeframe s)

/-! ## Reassembly (R205, R206) -/

/-- `RS` has no room for `D` (R205). -/
def storeFull (s : State) : Bool :=
  decide (s.cfg.rsBlocks < s.rs.length + 1 ∨ s.cfg.rsBytes < s.rs.bytes + s.d.length)

/-- The stage of `COLLECT` (R205). -/
def stageCollect (s : State) : StageEnd :=
  if s.rs.has s.rseq then .raised (s.raise .malformedContainer 5 (some s.rseq) .concat)
  else if storeFull s then .raised (s.raise .capacityExceeded 0 (some s.rseq) .concat)
  else .ok ({ s with rs := Store.insert s.rseq s.d s.rs }.enter .concat)

/-- `COLLECT` (R205). -/
def execCollect (s : State) : Host.Outcome State Fault Refusal := finish .collect s (stageCollect s)

/-- All Blocks in ascending key order, which is the store's order (R206). -/
def Store.concat (m : Store) : List Byte := m.flatMap fun e => e.2

/-- The stage `CONCAT` (R206). -/
def stageConcat (s : State) : StageEnd :=
  .ok (({ s with rs := [] }.outPush s.rs.concat).enter .concat)

/-- `CONCAT` (R206). -/
def execConcat (s : State) : Host.Outcome State Fault Refusal := finish .concat s (stageConcat s)

end Sys2Proof.Machine
end

