-- ==== Sys2Proof/Machine/PrefixCode.lean ====
section
/-! DEFINITION. The Prefix-Code Engine: HCNT, HTREE, HCODE, HENC, HDEC, CTSER, CTDES (R160 to R178). -/

namespace Sys2Proof.Machine

/-- The table that holds `f b` for each of the 256 symbols `b`. -/
def tabulate {α : Type} (f : Byte → α) : Vector α 256 :=
  ⟨((List.range 256).map fun n => f (BitVec.ofNat 8 n)).toArray, by simp⟩

/-! ## Counting (R160) -/

/-- The number of occurrences of every symbol. -/
def countFreqs (d : List Byte) : FreqTable :=
  tabulate fun b => BitVec.ofNat 32 (d.count b)

/-- The stage `ENCODE` of `HCNT`. -/
def stageHcnt (s : State) : StageEnd := .ok ({ s with ft := countFreqs s.d }.enter .encode)

/-- `HCNT` (R160). -/
def execHcnt (s : State) : Host.Outcome State Fault Refusal := finish .hcnt s (stageHcnt s)

/-! ## The tree (R161 to R164) -/

/-- A node's frequency (R40). -/
def TreeNode.freq : TreeNode → Word
  | .leaf _ f => f
  | .node f _ _ => f

/-- The frequency of arena node `i`. -/
def freqAt (nodes : List TreeNode) (i : Nat) : Word := (nodes[i]?.map TreeNode.freq).getD 0

/-- One leaf per symbol that occurs, in ascending symbol order (R161). -/
def leavesOf (ft : FreqTable) : List TreeNode :=
  ft.toList.zipIdx.filterMap fun e =>
    if e.1 = 0 then none else some (.leaf (BitVec.ofNat 8 e.2) e.1)

/-- The priority order: by frequency, then by arrival, which is the index (R162). -/
def comesFirst (nodes : List TreeNode) (i j : Nat) : Bool :=
  decide ((freqAt nodes i).toNat < (freqAt nodes j).toNat ∨
    (freqAt nodes i = freqAt nodes j ∧ i ≤ j))

/-- The live node that comes first (R162). -/
def lowest (nodes : List TreeNode) : List Nat → Option Nat
  | [] => none
  | i :: live =>
    match lowest nodes live with
    | none => some i
    | some j => if comesFirst nodes i j then some i else some j

/-- The merging loop of `HTREE`, at most `fuel` merges: the two lowest live nodes become the left and
the right child of a new node (R163). -/
def mergeNodes : Nat → List TreeNode → List Nat → List TreeNode
  | 0, nodes, _ => nodes
  | fuel + 1, nodes, live =>
    match lowest nodes live with
    | none => nodes
    | some a =>
      match lowest nodes (live.erase a) with
      | none => nodes
      | some b =>
        mergeNodes fuel (nodes ++ [.node (freqAt nodes a + freqAt nodes b) a b])
          ((live.erase a).erase b ++ [nodes.length])

/-- The arena `HTREE` builds; `k` leaves need at most `k` turns of the loop (R163). -/
def buildTree (ft : FreqTable) : List TreeNode :=
  mergeNodes (leavesOf ft).length (leavesOf ft) (List.range (leavesOf ft).length)

/-- The stage `ENCODE` of `HTREE`. -/
def stageHtree (s : State) : StageEnd := .ok ({ s with tr := buildTree s.ft }.enter .encode)

/-- `HTREE` (R163). -/
def execHtree (s : State) : Host.Outcome State Fault Refusal := finish .htree s (stageHtree s)

/-! ## Code emission (R165) -/

/-- `walk(i, path)`: the codes it assigns, in order. `fuel` bounds the depth; with children below
their parent (R40) the arena's size is enough (log 13). -/
def walk (tr : List TreeNode) : Nat → Nat → Bits → List (Byte × Bits)
  | 0, _, _ => []
  | fuel + 1, i, path =>
    match tr[i]? with
    | none => []
    | some (.leaf sym _) => [(sym, path)]
    | some (.node _ l r) => walk tr fuel l (path ++ [false]) ++ walk tr fuel r (path ++ [true])

/-- The assignments `HCODE` makes: `"0"` for the only leaf, else the walk from the root (R165). -/
def codeAssignments (tr : List TreeNode) : List (Byte × Bits) :=
  match tr with
  | [.leaf sym _] => [(sym, [false])]
  | _ => if tr.length ≤ 1 then [] else walk tr tr.length (tr.length - 1) []

/-- The table that a list of assignments leaves: the last one to a symbol stands. -/
def tableOf (assigned : List (Byte × Bits)) : CodeTable :=
  tabulate fun b => assigned.reverse.lookup b

/-- The table `HCODE` emits. -/
def codesFromTree (tr : List TreeNode) : CodeTable := tableOf (codeAssignments tr)

/-- The stage `ENCODE` of `HCODE`. -/
def stageHcode (s : State) : StageEnd := .ok ({ s with ct := codesFromTree s.tr }.enter .encode)

/-- `HCODE` (R165). -/
def execHcode (s : State) : Host.Outcome State Fault Refusal := finish .hcode s (stageHcode s)

/-! ## The Code Table's readers (R41) -/

/-- `CT[b]`. -/
def CodeTable.code (ct : CodeTable) (b : Byte) : Option Bits := ct[b.toFin]

/-- The present symbols with their codes, in ascending symbol order. -/
def CodeTable.entries (ct : CodeTable) : List (Byte × Bits) :=
  ct.toList.zipIdx.filterMap fun e => e.1.map fun c => (BitVec.ofNat 8 e.2, c)

/-- `CTN`: the number of present codes (R37, R41). -/
def CodeTable.size (ct : CodeTable) : Nat := ct.entries.length

/-- The symbol whose code is `c`, if there is one (R169); the smallest where a table no run holds has
several (log 12). -/
def CodeTable.symbolOf (ct : CodeTable) (c : Bits) : Option Byte :=
  (ct.toList.idxOf? (some c)).map (BitVec.ofNat 8)

/-! ## Encoding (R100, R167, R168) -/

/-- Every byte of `d` has a code (R168). -/
def allCoded (ct : CodeTable) (d : List Byte) : Bool := d.all fun b => (ct.code b).isSome

/-- The concatenated codes of the bytes of `d`. -/
def codeBits (ct : CodeTable) (d : List Byte) : Bits := d.flatMap fun b => (ct.code b).getD []

/-- `pad` (R100). -/
def padOf (nbits : Nat) : Nat := (8 - nbits % 8) % 8

/-- The payload of a bit string: the pad byte, then the padded bits packed (R100). -/
def payloadOf (bits : Bits) : List Byte :=
  BitVec.ofNat 8 (padOf bits.length) :: packBits (bits ++ zeros (padOf bits.length))

/-- The stage `ENCODE` of `HENC`. -/
def stageHenc (s : State) : StageEnd :=
  if s.d = [] then .ok ({ s with p := [] }.enter .encode)
  else if allCoded s.ct s.d then
    if s.cfg.pcap < (payloadOf (codeBits s.ct s.d)).length then
      .raised (s.raise .capacityExceeded 0 (some s.seq) .encode)
    else .ok ({ s with p := payloadOf (codeBits s.ct s.d) }.enter .encode)
  else .raised (s.raise .codeTableMismatch 0 (some s.seq) .encode)

/-- `HENC` (R167). -/
def execHenc (s : State) : Host.Outcome State Fault Refusal := finish .henc s (stageHenc s)

/-! ## Decoding (R169, R170) -/

/-- What the matching loop of `HDEC` ends with: the bytes emitted and the bits left over, or more
bytes than `D` holds. -/
inductive Matched where
  | done (out : List Byte) (cur : Bits)
  | overflow
  deriving DecidableEq, Repr

/-- The matching loop: `cur` grows bit by bit until it is a code (R169). -/
def matchBits (ct : CodeTable) (dcap : Nat) : Bits → Bits → List Byte → Matched
  | [], cur, out => .done out cur
  | b :: bs, cur, out =>
    match ct.symbolOf (cur ++ [b]) with
    | some x =>
      if dcap < out.length + 1 then .overflow else matchBits ct dcap bs [] (out ++ [x])
    | none => matchBits ct dcap bs (cur ++ [b]) out

/-- The code bits of a non-empty payload: all but the last `pad` bits after the first byte; none
where `pad` is above 7 or above the number of bits (R169, R170). -/
def payloadBits (pad : Byte) (packed : List Byte) : Option Bits :=
  if 7 < pad.toNat then none
  else if 8 * packed.length < pad.toNat then none
  else some ((unpackBits packed).take (8 * packed.length - pad.toNat))

/-- What `HDEC` raises on a payload that does not decode (R170). -/
def badPayload (s : State) : StageEnd :=
  .raised (s.raise .malformedContainer 3 (some s.rseq) .decode)

/-- The stage `DECODE` of `HDEC`. -/
def stageHdec (s : State) : StageEnd :=
  match s.p with
  | [] => .ok ({ s with d := [] }.enter .decode)
  | pad :: packed =>
    match payloadBits pad packed with
    | none => badPayload s
    | some bits =>
      match matchBits s.ct s.cfg.dcap bits [] [] with
      | .overflow => .raised (s.raise .capacityExceeded 0 (some s.rseq) .decode)
      | .done out [] => .ok ({ s with d := out }.enter .decode)
      | .done _ (_ :: _) => badPayload s

/-- `HDEC` (R169). -/
def execHdec (s : State) : Host.Outcome State Fault Refusal := finish .hdec s (stageHdec s)

/-! ## Serialization (R102, R103, R171) -/

/-- One entry: symbol, bit length, byte count, code bits left-aligned (R102). -/
def entryBytes (e : Byte × Bits) : List Byte :=
  [e.1, BitVec.ofNat 8 e.2.length, BitVec.ofNat 8 (ceilDiv e.2.length 8)] ++
    packBits (e.2 ++ zeros (8 * ceilDiv e.2.length 8 - e.2.length))

/-- The table region: the entries in ascending symbol order (R103, R171). -/
def serializeTable (ct : CodeTable) : List Byte := ct.entries.flatMap entryBytes

/-- The stage `ENCODE` of `CTSER`. -/
def stageCtser (s : State) : StageEnd := .ok ({ s with cs := serializeTable s.ct }.enter .encode)

/-- `CTSER` (R171). -/
def execCtser (s : State) : Host.Outcome State Fault Refusal := finish .ctser s (stageCtser s)

/-! ## Deserialization (R172, R173) -/

/-- The entries of a table region, after those in `seen`; none where a test of R172 fails. Each turn
takes at least three bytes, so the region's length is fuel enough. -/
def parseEntries : Nat → List Byte → List (Byte × Bits) → Option (List (Byte × Bits))
  | _, [], seen => some seen
  | fuel + 1, b :: l :: nb :: rest, seen =>
    if l = 0 then none
    else if nb.toNat ≠ ceilDiv l.toNat 8 then none
    else if rest.length < nb.toNat then none
    else if ((unpackBits (rest.take nb.toNat)).drop l.toNat).any id then none
    else if (seen.lookup b).isSome then none
    else parseEntries fuel (rest.drop nb.toNat)
      (seen ++ [(b, (unpackBits (rest.take nb.toNat)).take l.toNat)])
  | _, _ :: _, _ => none

/-- No code is a prefix of another symbol's code (R172, R173). -/
def prefixFree (entries : List (Byte × Bits)) : Bool :=
  decide (entries.Pairwise fun a b => ¬ a.2 <+: b.2 ∧ ¬ b.2 <+: a.2)

/-- The table a region spells, if it spells one. -/
def deserializeTable (cs : List Byte) : Option CodeTable :=
  match parseEntries cs.length cs [] with
  | none => none
  | some entries => if prefixFree entries then some (tableOf entries) else none

/-- The stage `DECODE` of `CTDES`. -/
def stageCtdes (s : State) : StageEnd :=
  match deserializeTable s.cs with
  | some t => .ok ({ s with ct := t }.enter .decode)
  | none => .raised (s.raise .malformedContainer 2 (some s.rseq) .decode)

/-- `CTDES` (R172). -/
def execCtdes (s : State) : Host.Outcome State Fault Refusal := finish .ctdes s (stageCtdes s)

end Sys2Proof.Machine
end

