-- ==== Sys2Proof/Machine/Rank.lean ====
section
/-! DEFINITION. The Rank Transform: MTFE and MTFD (R150 to R154). -/

namespace Sys2Proof.Machine

/-- `mtf_front(ML, k)`: the element at index `k` goes to the front, those before it move one place
back, those after it stay (R150). -/
def mtfFront (ml : List Byte) (k : Nat) : List Byte :=
  match ml[k]? with
  | some b => b :: ml.eraseIdx k
  | none => ml

/-- The ranks of the bytes `bs`, beginning with list `ml`, and the list afterwards (R151). -/
def mtfEncode (ml : List Byte) : List Byte → List Byte × List Byte
  | [] => ([], ml)
  | b :: bs =>
    let k := ml.idxOf b
    let r := mtfEncode (mtfFront ml k) bs
    (BitVec.ofNat 8 k :: r.1, r.2)

/-- The bytes of the ranks `ks`, beginning with list `ml`, and the list afterwards (R152). -/
def mtfDecode (ml : List Byte) : List Byte → List Byte × List Byte
  | [] => ([], ml)
  | k :: ks =>
    let r := mtfDecode (mtfFront ml k.toNat) ks
    (ml.getD k.toNat 0 :: r.1, r.2)

/-- The stage `RANK` (R151). -/
def stageMtfe (s : State) : StageEnd :=
  .ok ({ s with
    d := (mtfEncode identityList s.d).1
    ml := (mtfEncode identityList s.d).2 }.enter .rank)

/-- `MTFE` (R151). -/
def execMtfe (s : State) : Host.Outcome State Fault Refusal := finish .mtfe s (stageMtfe s)

/-- The stage `UNRANK` (R152). -/
def stageMtfd (s : State) : StageEnd :=
  .ok ({ s with
    d := (mtfDecode identityList s.d).1
    ml := (mtfDecode identityList s.d).2 }.enter .unrank)

/-- `MTFD` (R152). -/
def execMtfd (s : State) : Host.Outcome State Fault Refusal := finish .mtfd s (stageMtfd s)

end Sys2Proof.Machine
end

