-- ==== Sys2Proof/Machine/Rotation.lean ====
section
/-! DEFINITION. The Rotation Transform: Chunks, `rotate`, `unrotate`, ROT and UNROT (R130 to R137). -/

namespace Sys2Proof.Machine

/-! ## Chunks (R130) -/

/-- `nch(L, C)`: the number of Chunks. -/
def nch (l c : Nat) : Nat := ceilDiv l c

/-- `chunk(D, C, i)`. -/
def chunk (d : List Byte) (c i : Nat) : List Byte := slice d (i * c) (min ((i + 1) * c) d.length)

/-- `clen(L, C, i)`: the length of Chunk `i`. -/
def clen (l c i : Nat) : Nat := min ((i + 1) * c) l - i * c

/-! ## The forward transform (R131, R132) -/

/-- `rot(c, k)`: the rotation starting at offset `k`. -/
def rot (c : List Byte) (k : Nat) : List Byte := c.drop k ++ c.take k

/-- A rotation's bytes as unsigned numbers, compared lexicographically (R9, R131). -/
def rotKey (c : List Byte) (k : Nat) : List Nat := (rot c k).map BitVec.toNat

/-- The order of offsets: by rotation, then, for equal rotations, by offset (R131, R132). -/
abbrev rotLe (c : List Byte) (j k : Nat) : Prop :=
  rotKey c j < rotKey c k ∨ (rotKey c j = rotKey c k ∧ j ≤ k)

/-- `order`: all offsets in that order. -/
def rotOrder (c : List Byte) : List Nat := (List.range c.length).insertionSort (rotLe c)

/-- `rotate(c) = (rowIndex, t)`; `(0, [])` on the empty sequence (R131, R137). -/
def rotate (c : List Byte) : Nat × List Byte :=
  ((rotOrder c).idxOf 0,
   (rotOrder c).map fun k => c.getD ((k + c.length - 1) % c.length) 0)

/-! ## The inverse transform (R134) -/

/-- The order of positions: by byte, then by position. -/
abbrev byteLe (t : List Byte) (i j : Nat) : Prop :=
  (t.getD i 0).toNat < (t.getD j 0).toNat ∨ (t.getD i 0 = t.getD j 0 ∧ i ≤ j)

/-- `S`: all positions in that order. -/
def nextRow (t : List Byte) : List Nat := (List.range t.length).insertionSort (byteLe t)

/-- `n` rounds of the walk: emit `t[S[r]]`, then `r <- S[r]`. -/
def unrotateFrom (t : List Byte) (rows : List Nat) : Nat → Nat → List Byte
  | 0, _ => []
  | n + 1, r => t.getD (rows.getD r 0) 0 :: unrotateFrom t rows n (rows.getD r 0)

/-- `unrotate(r, t)`. -/
def unrotate (r : Nat) (t : List Byte) : List Byte := unrotateFrom t (nextRow t) t.length r

/-! ## The commands -/

/-- The transform of every Chunk of `d`, in Chunk order. -/
def rotateChunks (d : List Byte) (c : Nat) : List (Nat × List Byte) :=
  (List.range (nch d.length c)).map fun i => rotate (chunk d c i)

/-- A Chunk's row index as `RT` holds it (R33). -/
def rowWord (r : Nat × List Byte) : Word := BitVec.ofNat 32 r.1

/-- The stage `ROTATE` (R133). -/
def stageRot (s : State) : StageEnd :=
  if s.cfg.rtcap < nch s.d.length s.chkSize.toNat then
    .raised (s.raise .capacityExceeded 0 (some s.seq) .rotate)
  else
    .ok ({ s with
      rt := (rotateChunks s.d s.chkSize.toNat).map rowWord
      d := (rotateChunks s.d s.chkSize.toNat).flatMap Prod.snd }.enter .rotate)

/-- `ROT` (R133). -/
def execRot (s : State) : Host.Outcome State Fault Refusal := finish .rot s (stageRot s)

/-- The rotation table fits the Block: one index per Chunk, each below its Chunk's length (R135). -/
def rtFits (rt : List Word) (l c : Nat) : Bool :=
  decide (rt.length = nch l c) &&
    (List.range (nch l c)).all fun i => decide ((rt.getD i 0).toNat < clen l c i)

/-- Every Chunk of `d` inverse-rotated by its index (R135). -/
def unrotateChunks (rt : List Word) (d : List Byte) (c : Nat) : List Byte :=
  (List.range (nch d.length c)).flatMap fun i => unrotate (rt.getD i 0).toNat (chunk d c i)

/-- The stage `UNROTATE` (R135). -/
def stageUnrot (s : State) : StageEnd :=
  if rtFits s.rt s.d.length s.chkSize.toNat then
    .ok ({ s with d := unrotateChunks s.rt s.d s.chkSize.toNat }.enter .unrotate)
  else .raised (s.raise .malformedContainer 4 (some s.rseq) .unrotate)

/-- `UNROT` (R135). -/
def execUnrot (s : State) : Host.Outcome State Fault Refusal := finish .unrot s (stageUnrot s)

end Sys2Proof.Machine
end

