-- ==== Sys2Proof/Machine/Splitter.lean ====
section
/-! DEFINITION. The Block Splitter LDBLK and the raw store STD (R200, R201). -/

namespace Sys2Proof.Machine

/-- The enabling condition of `LDBLK`: a whole Block, or the end of the input (R200, R298). -/
def blockReady (s : State) : Bool := decide (s.blkSize.toNat ≤ s.inAvail) || s.eoi

/-- The length of the Block `LDBLK` takes: `min(BLKSIZE, InAvail())` (R200). -/
def blockLength (s : State) : Nat := min s.blkSize.toNat s.inAvail

/-- The stage `SPLIT` (R200). -/
def stageLdblk (s : State) : StageEnd :=
  if blockReady s then
    .ok (({ s with d := s.inPeek (blockLength s) }.inPop (blockLength s)).enter .split)
  else .held .split

/-- `LDBLK` (R200). -/
def execLdblk (s : State) : Host.Outcome State Fault Refusal := finish .ldblk s (stageLdblk s)

/-- The stage of `STD` (R201). -/
def stageStd (s : State) : StageEnd := .ok ((s.outPush s.d).enter .concat)

/-- `STD` (R201). -/
def execStd (s : State) : Host.Outcome State Fault Refusal := finish .std s (stageStd s)

end Sys2Proof.Machine
end

