-- ==== Sys2Proof/Machine/Pipeline.lean ====
section
/-! DEFINITION. The Pipeline Orchestrator: CBLK, DBLK, COMP, DECOMP (R230 to R238). -/

namespace Sys2Proof.Machine

/-- The nine stages of one compressed Block (R231). -/
def stagesCblk (s : State) : StageEnd :=
  ((((((((stageLdblk s).andThen stageRot).andThen stageMtfe).andThen stageHcnt).andThen
    stageHtree).andThen stageHcode).andThen stageHenc).andThen stageCtser).andThen stageFrame

/-- `CBLK` (R231). -/
def execCblk (s : State) : Host.Outcome State Fault Refusal := finish .cblk s (stagesCblk s)

/-- The stages of one decompressed record; only `DEFRAME` where it meets the end of the container
(R232). -/
def stagesDblk (s : State) : StageEnd :=
  if deframeOutcome s = .endOfContainer then stageDeframe s
  else
    (((((stageDeframe s).andThen stageCtdes).andThen stageHdec).andThen stageMtfd).andThen
      stageUnrot).andThen stageCollect

/-- `DBLK` (R232). -/
def execDblk (s : State) : Host.Outcome State Fault Refusal := finish .dblk s (stagesDblk s)

/-- `COMP` (R233): one turn of its loop. It waits for a Block; with the input used up it leaves the
loop and ends; else it runs one `CBLK` and stays in execution. -/
def execComp (s : State) : Host.Outcome State Fault Refusal :=
  if blockReady s then
    if s.inAvail = 0 then .next s.endCommand
    else finishPass .comp .split s (stagesCblk s)
  else .next (s.holdAt .comp .split)

/-- `DECOMP` is between its last `DBLK`, which met the end of the container, and its `CONCAT`:
`PHASE` shows a pass is behind it and `EOC` how the pass ended (R22, R236; log 6). -/
def atContainerEnd (s : State) : Bool := decide (s.phase = .deframe) && s.eoc

/-- `DECOMP` (R234): one turn of its loop, or the final `CONCAT`. -/
def execDecomp (s : State) : Host.Outcome State Fault Refusal :=
  if atContainerEnd s then finish .decomp s (stageConcat s)
  else finishPass .decomp .deframe s (stagesDblk s)

end Sys2Proof.Machine
end

