-- ==== Sys2Proof/Machine/Operands.lean ====
section
/-! DEFINITION. The one explicit operand form: the 24-bit immediate of format I (R92). Every other
operand is implicit, a state element read by name (R45). -/

namespace Sys2Proof.Machine

/-- `zext_32(imm)`: unsigned, not scaled, not shifted, not sign-extended (R92). -/
def immOperand (imm : BitVec 24) : Word := imm.setWidth 32

end Sys2Proof.Machine
end

