-- ==== Sys2Proof/Machine/System.lean ====
section
/-! DEFINITION. The system commands NOP, SETBS, SETCS, SRST (R250 to R253). -/

namespace Sys2Proof.Machine

/-- `NOP` (R250). -/
def execNop (s : State) : Host.Outcome State Fault Refusal := .next s.endCommand

/-- What an illegal command raises (R279): `IllegalCommand`, no sequence number, `PHASE = IDLE`. -/
def State.raiseIllegal (s : State) : State := s.raise .illegalCommand 0 none .idle

/-- `SETBS imm` (R251). The decoder lets no other operand through; given one directly, the command
raises what the decoder would (log 16). -/
def execSetbs (imm : BitVec 24) (s : State) : Host.Outcome State Fault Refusal :=
  if (Instr.setbs imm).wf s.cfg then .next { s with blkSize := immOperand imm }.endCommand
  else .next s.raiseIllegal

/-- `SETCS imm` (R252), with the same remark. -/
def execSetcs (imm : BitVec 24) (s : State) : Host.Outcome State Fault Refusal :=
  if (Instr.setcs imm).wf s.cfg then .next { s with chkSize := immOperand imm }.endCommand
  else .next s.raiseIllegal

/-- `SRST` (R253). -/
def execSrst (s : State) : Host.Outcome State Fault Refusal := .next s.softReset

end Sys2Proof.Machine
end

