-- ==== Sys2Proof/Machine/Dispatch.lean ====
section
/-! DEFINITION. One arm per command, each one call of its meaning. -/

namespace Sys2Proof.Machine

def exec (i : Instr) (s : State) : Host.Outcome State Fault Refusal :=
  match i with
  -- system commands, 45_system.md
  | .nop => Sys2Proof.Machine.execNop s
  | .setbs imm => Sys2Proof.Machine.execSetbs imm s
  | .setcs imm => Sys2Proof.Machine.execSetcs imm s
  | .srst => Sys2Proof.Machine.execSrst s
  -- Block Splitter and raw store, 43_container.md
  | .ldblk => Sys2Proof.Machine.execLdblk s
  | .std => Sys2Proof.Machine.execStd s
  -- Rotation Transform, 40_rotation.md
  | .rot => Sys2Proof.Machine.execRot s
  | .unrot => Sys2Proof.Machine.execUnrot s
  -- Rank Transform, 41_rank.md
  | .mtfe => Sys2Proof.Machine.execMtfe s
  | .mtfd => Sys2Proof.Machine.execMtfd s
  -- Prefix-Code Engine, 42_prefix_code.md
  | .hcnt => Sys2Proof.Machine.execHcnt s
  | .htree => Sys2Proof.Machine.execHtree s
  | .hcode => Sys2Proof.Machine.execHcode s
  | .henc => Sys2Proof.Machine.execHenc s
  | .hdec => Sys2Proof.Machine.execHdec s
  | .ctser => Sys2Proof.Machine.execCtser s
  | .ctdes => Sys2Proof.Machine.execCtdes s
  -- Container Codec, 43_container.md
  | .frame => Sys2Proof.Machine.execFrame s
  | .deframe => Sys2Proof.Machine.execDeframe s
  | .collect => Sys2Proof.Machine.execCollect s
  | .concat => Sys2Proof.Machine.execConcat s
  -- Pipeline Orchestrator, 44_pipeline.md
  | .cblk => Sys2Proof.Machine.execCblk s
  | .dblk => Sys2Proof.Machine.execDblk s
  | .comp => Sys2Proof.Machine.execComp s
  | .decomp => Sys2Proof.Machine.execDecomp s

end Sys2Proof.Machine
end

