-- ==== Sys2Proof/Machine/Sequencer.lean ====
section
/-! DEFINITION. The sequencer: taking a command word from `CMDQ`, going on with a command in
execution, and the error state (R21, R94, R268, R279, R298). -/

namespace Sys2Proof.Machine

/-- The word at the head of `CMDQ`, with `CUR = none`. In the error state every word but that of
`SRST` is removed without effect, an illegal one too (R268). -/
def State.takeWord (w : Word) (rest : List Word) (s : State) :
    Host.Outcome State Fault Refusal :=
  match decode s.cfg w with
  | .command i =>
    if s.err && decide (i ≠ .srst) then .next { s with cmdq := rest }
    else exec i (s.fetch rest i)
  | .illegal _ =>
    if s.err then .next { s with cmdq := rest }
    else .next ({ s with cmdq := rest }.raiseIllegal)

/-- The command in execution goes on: a held one as if it had just been issued, a macro command with
its next pass (R236, R298). No run holds a command in the error state (R266); one would be discarded
(log 17). -/
def State.continueCommand (i : Instr) (s : State) : Host.Outcome State Fault Refusal :=
  if s.err && decide (i ≠ .srst) then .next { s with cur := none } else exec i s

/-- One step of the core. An idle core with an empty `CMDQ` waits and keeps all its state (R277). -/
def State.advance (s : State) : Host.Outcome State Fault Refusal :=
  match s.cur with
  | some i => s.continueCommand i
  | none =>
    match s.cmdq with
    | [] => .next s
    | w :: rest => s.takeWord w rest

end Sys2Proof.Machine
end

