-- ==== Sys2Proof/Machine/Step.lean ====
section
/-! DEFINITION. The step function, and how an instruction is placed before it. -/

namespace Sys2Proof.Machine

/-- One step of the core (R6, R21). -/
def step (s : State) : Host.Outcome State Fault Refusal := s.advance

/-- `s` with the command word `w` at the head of `CMDQ`, no command in execution and no error, so that
the very next step takes and runs it. The word stands for one `IssueCmd` of the host (R79; log 9). -/
def State.withFetchWord (s : State) (nbits w : Nat) : State :=
  { s with
    cmdq := BitVec.ofNat 32 (w % 2 ^ nbits) :: s.cmdq
    cur := none
    phase := .idle
    err := false }

end Sys2Proof.Machine
end

