-- ==== Sys2Proof/Machine/HostPort.lean ====
section
/-! DEFINITION. The host's side: the register port, the host's actions and the interleaving of host and
core (R36, R60, R61, R72, R79, R290). -/

namespace Sys2Proof.Machine

/-- A length or count as a 32-bit register shows it. -/
def lengthWord (n : Nat) : Word := BitVec.ofNat 32 n

/-- `ReadReg(a)`: the register port map (R36). A read has no side effect (R69), so it is a function of
the state alone. -/
def State.readReg (a : BitVec 4) (s : State) : Word :=
  match a.toNat with
  | 0 => s.status
  | 1 => s.errCause
  | 2 => s.errSeq
  | 3 => s.blkSize
  | 4 => s.chkSize
  | 5 => s.seq
  | 6 => s.rseq
  | 7 => lengthWord s.d.length
  | 8 => lengthWord s.rt.length
  | 9 => lengthWord s.cs.length
  | 10 => lengthWord s.p.length
  | 11 => lengthWord s.ct.size
  | 12 => lengthWord s.rs.length
  | 13 => s.inCnt
  | 14 => s.outCnt
  | _ => 0

/-- The bytes in the `OUT` FIFO that the host has not popped (R44). -/
def State.outPending (s : State) : List Byte := s.out.drop s.outRead

/-- The byte `PopOut` would return (R79). -/
def State.outHead (s : State) : Option Byte := s.out[s.outRead]?

/-- The actions of the host (R79). -/
inductive HostAction where
  | issueCmd (w : Word)
  | pushIn (b : Byte)
  | setEoi
  | popOut
  | readReg (a : BitVec 4)
  | reset
  deriving DecidableEq, Repr

/-- The effect of a host action (R79). `PushIn` with `EOI = 1` and `PopOut` of an empty `OUT` are no
moves and are refused (R297, R79). -/
def hostAct (a : HostAction) (s : State) : Host.Outcome State Fault Refusal :=
  match a with
  | .issueCmd w => .next { s with cmdq := s.cmdq ++ [w] }
  | .pushIn b => if s.eoi then .refused .pushAfterEoi else .next { s with inp := s.inp ++ [b] }
  | .setEoi => .next { s with eoi := true }
  | .popOut =>
    if s.outRead < s.out.length then .next { s with outRead := s.outRead + 1 }
    else .refused .popOfEmptyOut
  | .readReg _ => .next s
  | .reset => .next (State.resetWith s.cfg)

/-- Whose turn it is: the core takes a step, or the host acts. Host actions fall anywhere between core
steps (R72). -/
inductive Event where
  | core
  | host (a : HostAction)
  deriving DecidableEq, Repr

/-- One event of the system of core and host. -/
def happen (e : Event) (s : State) : Host.Outcome State Fault Refusal :=
  match e with
  | .core => step s
  | .host a => hostAct a s

/-- A run of the system: a claim about every list of events is a claim about every interleaving. -/
def runEvents : List Event → State → Host.Outcome State Fault Refusal
  | [], s => .next s
  | e :: es, s =>
    match happen e s with
    | .next t => runEvents es t
    | .fault r => .fault r
    | .refused r => .refused r

end Sys2Proof.Machine
end

