-- ==== Sys2Proof/Safety.lean ====
section
/-! DEFINITION. What holds of every state a run can reach, and when a run is over (R23 to R47, R303). -/

namespace Sys2Proof.Machine

/-! ## The end of a run (R303) -/

/-- A run is over: nothing queued, nothing in execution, all output popped. -/
def runOver (s : State) : Bool :=
  decide (s.cmdq = []) && !s.busy && decide (s.outRead = s.out.length)

/-- A run has ended well. R303 says what this does not say: that the container was complete, that the
chunk size was right. -/
def endedWell (s : State) : Bool := runOver s && !s.err

/-! ## The invariant -/

/-- The phase in which a command waits or stands between passes (R298, R236); none for a command that
never does. -/
def waitPhase : Instr → Option Phase
  | .ldblk | .cblk | .comp => some .split
  | .deframe | .dblk | .decomp => some .deframe
  | .nop | .setbs _ | .setcs _ | .srst | .std | .rot | .unrot | .mtfe | .mtfd | .hcnt | .htree
  | .hcode | .henc | .hdec | .ctser | .ctdes | .frame | .collect | .concat => none

/-- The (cause, sub-cause) pairs the core produces (R263). -/
def errorTable : List (ErrorKind × BitVec 4) :=
  [(.malformedContainer, 1), (.malformedContainer, 2), (.malformedContainer, 3),
   (.malformedContainer, 4), (.malformedContainer, 5), (.malformedContainer, 6),
   (.codeTableMismatch, 0), (.illegalCommand, 0), (.capacityExceeded, 0), (.capacityExceeded, 1)]

/-- The sequencer, the flags and the error registers. -/
structure SequencerOk (s : State) : Prop where
  /-- R23: an idle core outside the error state shows `IDLE`. -/
  idle_phase : s.cur = none → s.err = false → s.phase = .idle
  /-- R266: an error ends the command in execution. -/
  error_ends_command : s.err = true → s.cur = none
  /-- R298, R236: a command in execution between steps waits, or is between passes. -/
  waiting : ∀ i, s.cur = some i → waitPhase i = some s.phase
  /-- R26, R27: no error, nothing recorded. -/
  no_error : s.err = false → s.errCause = 0 ∧ s.errSeq = 0
  /-- R26, R27, R263: an error is recorded as one of the table. -/
  error : s.err = true → ∃ e sub seq, (e, sub) ∈ errorTable ∧
    s.errCause = errCauseWord e sub (Option.isSome seq) ∧ s.errSeq = seq.getD 0
  /-- R24, R61, R297: the end of the container is the end of the input. -/
  container_end : s.eoc = true → s.eoi = true ∧ s.inp = []
  /-- R24, R30: `SEQ` has wrapped. -/
  wrapped : s.seqOvf = true → s.seq = 0

/-- The sizes, the capacities and the byte counter (R28 to R37, R42, R44). -/
structure SizesOk (s : State) : Prop where
  config : s.cfg.wf = true
  block_size : 1 ≤ s.blkSize.toNat ∧ s.blkSize.toNat ≤ s.cfg.dcap ∧ s.blkSize.toNat < 2 ^ 24
  chunk_size : 1 ≤ s.chkSize.toNat ∧ s.chkSize.toNat < 2 ^ 24
  data : s.d.length ≤ s.cfg.dcap
  rotation_table : s.rt.length ≤ s.cfg.rtcap
  serialized : s.cs.length ≤ Config.csCap
  payload : s.p.length ≤ s.cfg.pcap
  store_blocks : s.rs.length ≤ s.cfg.rsBlocks
  store_bytes : s.rs.bytes ≤ s.cfg.rsBytes
  read_prefix : s.outRead ≤ s.out.length
  pushed : s.outCnt = BitVec.ofNat 32 s.out.length

/-- The invariant of the Code Table (R41): codes of 1 .. 255 bits, none a prefix of another's. -/
structure CodeTable.Ok (ct : CodeTable) : Prop where
  length : ∀ b c, ct.code b = some c → 1 ≤ c.length ∧ c.length ≤ 255
  prefix_free : ∀ b1 b2 c1 c2, b1 ≠ b2 → ct.code b1 = some c1 → ct.code b2 = some c2 → ¬ c1 <+: c2

/-- The counts of a Frequency Table together (R39, R160). -/
def FreqTable.total (ft : FreqTable) : Nat := (ft.toList.map BitVec.toNat).sum

/-- The tables (R38 to R42). -/
structure TablesOk (s : State) : Prop where
  /-- R38 -/
  rank_list : s.ml.Perm identityList
  /-- R39: the counts are those of a Block. -/
  freqs : FreqTable.total s.ft ≤ s.cfg.dcap
  /-- R40: the tree is always one that `HTREE` built from the counts of a Block. -/
  tree : ∃ ft : FreqTable, FreqTable.total ft ≤ s.cfg.dcap ∧ s.tr = buildTree ft
  /-- R41 -/
  codes : s.ct.Ok
  /-- R42 -/
  store : s.rs.wf = true

/-- What every step and every host action keeps. -/
structure Inv (s : State) : Prop where
  sequencer : SequencerOk s
  sizes : SizesOk s
  tables : TablesOk s

end Sys2Proof.Machine
end

