-- ==== Sys2Proof/Certificates/Slice0/Obligations.lean ====
section
/-! DEFINITION. The statements for the provers, one `def Obligations.<Name> : Prop` each, after the
words of the spec they are written in. -/

namespace Sys2Proof.Claims

open Sys2Proof.Machine

/-! ## Words of the spec -/

/-- The Block a `LDBLK` would take now (R200). -/
def nextBlock (s : State) : List Byte := s.inp.take (min s.blkSize.toNat s.inp.length)

/-- R90: `op` of a word, as a number. -/
def opOf (w : Word) : Nat := w.toNat / 2 ^ 24

/-- R90: `imm` of a word, as a number. -/
def immOf (w : Word) : Nat := w.toNat % 2 ^ 24

/-- R93: the opcodes of format Z. -/
def zOpcodes : List Nat :=
  [0x00, 0x03, 0x10, 0x11, 0x20, 0x21, 0x30, 0x31, 0x40, 0x41, 0x42, 0x43, 0x44, 0x45, 0x46,
   0x50, 0x51, 0x52, 0x53, 0x60, 0x61, 0x62, 0x63]

/-- R94, (a) to (d). -/
def IllegalIn (dcap : Nat) (w : Word) : Prop :=
  (opOf w ≠ 0x01 ∧ opOf w ≠ 0x02 ∧ opOf w ∉ zOpcodes) ∨ (opOf w ∈ zOpcodes ∧ immOf w ≠ 0) ∨
    (opOf w = 0x01 ∧ (immOf w = 0 ∨ dcap < immOf w)) ∨ (opOf w = 0x02 ∧ immOf w = 0)

/-- R9: `s < t` for sequences of equal length. -/
def BytesLt : List Byte → List Byte → Prop
  | a :: as, b :: bs => a.toNat < b.toNat ∨ (a = b ∧ BytesLt as bs)
  | _, _ => False

/-- R131: the rotation of `c` starting at offset `k`. -/
def rotation (c : List Byte) (k : Nat) : List Byte := c.drop k ++ c.take k

/-- R131, R132: `order` lists all offsets by rotation, equal rotations by offset. -/
def SortsRotations (c : List Byte) (order : List Nat) : Prop :=
  order.Perm (List.range c.length) ∧
    order.Pairwise fun j k => BytesLt (rotation c j) (rotation c k) ∨
      (rotation c j = rotation c k ∧ j < k)

/-- R134: `rows` lists all positions of `t` by byte, equal bytes by position. -/
def SortsPositions (t : List Byte) (rows : List Nat) : Prop :=
  rows.Perm (List.range t.length) ∧
    rows.Pairwise fun i j => (t.getD i 0).toNat < (t.getD j 0).toNat ∨
      (t.getD i 0 = t.getD j 0 ∧ i < j)

/-- R130: the number of Chunks of `d`. -/
def chunkCount (d : List Byte) (c : Nat) : Nat := (d.length + c - 1) / c

/-- R130: Chunk `i` of `d`. -/
def chunkAt (d : List Byte) (c i : Nat) : List Byte := (d.drop (i * c)).take c

/-- R150: `l'` is `l` with its element `k` moved to the front. -/
def MovedToFront (l l' : List Byte) (k : Nat) : Prop :=
  l'.length = l.length ∧
    ∀ j, j < l.length → l'[j]? = if j = 0 then l[k]? else if j ≤ k then l[j - 1]? else l[j]?

/-- R150: the list at the start of a run. -/
def IsIdentity (l : List Byte) : Prop :=
  l.length = 256 ∧ ∀ i, i < 256 → l[i]? = some (BitVec.ofNat 8 i)

/-- R161: how many symbols below `b` occur. -/
def symbolsBelow (ft : FreqTable) (b : Nat) : Nat :=
  (List.finRange 256).countP fun c => decide (c.val < b ∧ ft[c] ≠ 0)

/-- R163: node `i` is live when node `m` is made: it is there, and no merged node before `m` (those
from `k` on) has it as a child. -/
def Live (tr : List TreeNode) (k m i : Nat) : Prop :=
  i < m ∧ ∀ j f l r, k ≤ j → j < m → tr[j]? = some (.node f l r) → i ≠ l ∧ i ≠ r

/-- R162: `a` is the node extracted first among those of `S`. -/
def ExtractedFirst (tr : List TreeNode) (S : Nat → Prop) (a : Nat) : Prop :=
  S a ∧ ∀ i, S i → i ≠ a → (freqAt tr a).toNat < (freqAt tr i).toNat ∨
    (freqAt tr a = freqAt tr i ∧ a < i)

/-- R165: the edges `path` lead from node `i` to the leaf of `b`. -/
def LeadsTo (tr : List TreeNode) : Nat → Bits → Byte → Prop
  | i, [], b => ∃ f, tr[i]? = some (.leaf b f)
  | i, e :: path, b => ∃ f l r, tr[i]? = some (.node f l r) ∧
      LeadsTo tr (if e then r else l) path b

/-- R169: `bits` is the codes of `out`, then `rest`, into which no code runs. -/
def SplitsInto (ct : CodeTable) (bits : Bits) (out : List Byte) (rest : Bits) : Prop :=
  (∀ b ∈ out, ct.code b ≠ none) ∧ bits = (out.flatMap fun b => (ct.code b).getD []) ++ rest ∧
    ∀ b c, ct.code b = some c → ¬ c <+: rest

/-- R102, R103: the region `bs` is the entries `es` one after another. -/
def Spells : List Byte → List (Byte × Bits) → Prop
  | bs, [] => bs = []
  | bs, (b, c) :: es => ∃ code rest,
      bs = b :: BitVec.ofNat 8 c.length :: BitVec.ofNat 8 code.length :: (code ++ rest) ∧
      1 ≤ c.length ∧ c.length ≤ 255 ∧ code.length = (c.length + 7) / 8 ∧
      unpackBits code = c ++ List.replicate (8 * code.length - c.length) false ∧ Spells rest es

/-- R173: the entries form a table: one code a symbol, no code a prefix of another. -/
def FormTable (es : List (Byte × Bits)) : Prop :=
  es.Pairwise fun x y => x.1 ≠ y.1 ∧ ¬ x.2 <+: y.2 ∧ ¬ y.2 <+: x.2

/-- R66, R96: the big-endian number in the four bytes of `b` from offset `o`. -/
def fieldAt (b : List Byte) (o : Nat) : Nat :=
  ((b.drop o).take 4).foldl (fun acc x => 256 * acc + x.toNat) 0

/-- R23: the phase of each stage command. -/
def stagePhase : Instr → Phase
  | .ldblk => .split
  | .rot => .rotate
  | .mtfe => .rank
  | .hcnt | .htree | .hcode | .henc | .ctser => .encode
  | .frame => .frame
  | .deframe => .deframe
  | .ctdes | .hdec => .decode
  | .mtfd => .unrank
  | .unrot => .unrotate
  | .collect | .concat | .std => .concat
  | .nop | .setbs _ | .setcs _ | .srst | .cblk | .dblk | .comp | .decomp => .idle

/-- R267: the sequence number an error of each command records. -/
def recordedSeq (s : State) : Instr → Option Word
  | .rot | .henc => some s.seq
  | .ctdes | .hdec | .unrot | .collect => some s.rseq
  | .deframe => if s.inp.length < 4 then none else some (unbe32 s.inp)
  | .nop | .setbs _ | .setcs _ | .srst | .ldblk | .std | .mtfe | .mtfd | .hcnt | .htree | .hcode
  | .ctser | .frame | .concat | .cblk | .dblk | .comp | .decomp => none

/-- R12: the macro commands. -/
def isMacro : Instr → Bool
  | .cblk | .dblk | .comp | .decomp => true
  | _ => false

/-- R298: the command holds in this state. -/
def waits (i : Instr) (s : State) : Bool :=
  match i with
  | .ldblk | .cblk | .comp => !(decide (s.blkSize.toNat ≤ s.inp.length) || s.eoi)
  | .deframe | .dblk => decide (deframeOutcome s = .wait)
  | .decomp => !(decide (s.phase = .deframe) && s.eoc) && decide (deframeOutcome s = .wait)
  | _ => false

/-! ## The table of R45 -/

/-- The elements of R45's table. -/
inductive Elem where
  | blkSize | chkSize | seq | rseq | seqOvf | eoi | eoc | d | rt | cs | p | ml | ft | tr | ct
  | rs | inp | out | inCnt | outCnt
  deriving DecidableEq

/-- The element has the same value in both states. -/
def Elem.Same (s t : State) : Elem → Prop
  | .blkSize => t.blkSize = s.blkSize
  | .chkSize => t.chkSize = s.chkSize
  | .seq => t.seq = s.seq
  | .rseq => t.rseq = s.rseq
  | .seqOvf => t.seqOvf = s.seqOvf
  | .eoi => t.eoi = s.eoi
  | .eoc => t.eoc = s.eoc
  | .d => t.d = s.d
  | .rt => t.rt = s.rt
  | .cs => t.cs = s.cs
  | .p => t.p = s.p
  | .ml => t.ml = s.ml
  | .ft => t.ft = s.ft
  | .tr => t.tr = s.tr
  | .ct => t.ct = s.ct
  | .rs => t.rs = s.rs
  | .inp => t.inp = s.inp
  | .out => t.out = s.out
  | .inCnt => t.inCnt = s.inCnt
  | .outCnt => t.outCnt = s.outCnt

/-- The "writes" column of R45, and for the macro commands the rows of R231 to R234. -/
def writes : Instr → List Elem
  | .nop => []
  | .setbs _ => [.blkSize]
  | .setcs _ => [.chkSize]
  | .srst => [.blkSize, .chkSize, .seq, .rseq, .seqOvf, .eoi, .eoc, .d, .rt, .cs, .p, .ml, .ft,
      .tr, .ct, .rs, .inp, .inCnt]
  | .ldblk => [.d, .inp, .inCnt]
  | .std => [.out, .outCnt]
  | .rot => [.d, .rt]
  | .unrot => [.d]
  | .mtfe => [.d, .ml]
  | .mtfd => [.d, .ml]
  | .hcnt => [.ft]
  | .htree => [.tr]
  | .hcode => [.ct]
  | .henc => [.p]
  | .hdec => [.d]
  | .ctser => [.cs]
  | .ctdes => [.ct]
  | .frame => [.out, .outCnt, .seq, .seqOvf]
  | .deframe => [.rseq, .rt, .cs, .p, .inp, .inCnt, .eoc]
  | .collect => [.rs]
  | .concat => [.out, .outCnt, .rs]
  | .cblk | .comp => [.inp, .inCnt, .d, .rt, .ml, .ft, .tr, .ct, .p, .cs, .out, .outCnt, .seq,
      .seqOvf]
  | .dblk => [.inp, .inCnt, .eoc, .rseq, .rt, .cs, .p, .ct, .d, .ml, .rs]
  | .decomp => [.inp, .inCnt, .eoc, .rseq, .rt, .cs, .p, .ct, .d, .ml, .rs, .out, .outCnt]

/-! ## What one compressed Block leaves (R231) -/

/-- The Chunks of the next Block, rotated. -/
def blockRows (s : State) : List (Nat × List Byte) := rotateChunks (nextBlock s) s.chkSize.toNat

/-- The rank stream of the next Block. -/
def blockRanks (s : State) : List Byte :=
  (mtfEncode identityList ((blockRows s).flatMap Prod.snd)).1

/-- The Code Table of the next Block. -/
def blockCodes (s : State) : CodeTable := codesFromTree (buildTree (countFreqs (blockRanks s)))

/-- The payload of a rank stream under a table (R100). -/
def payloadFor (ct : CodeTable) (ranks : List Byte) : List Byte :=
  if ranks = [] then [] else payloadOf (codeBits ct ranks)

/-- R30, R202: the number of records written since reset, a 33-bit count. -/
def recordsWritten (s : State) : Nat := if s.seqOvf then 2 ^ 32 else s.seq.toNat

end Sys2Proof.Claims

open Sys2Proof Sys2Proof.Machine Sys2Proof.Claims

/-! ## Reset and the register port -/

/-- R47: every element has its tabled value after reset, whatever the parameters. -/
def Obligations.ResetGivesTheTabledValues : Prop :=
  ∀ cfg : Config,
    (State.resetWith cfg).cmdq = [] ∧ (State.resetWith cfg).cur = none ∧
    (State.resetWith cfg).phase = .idle ∧ (State.resetWith cfg).phase.code = 0 ∧
    (State.resetWith cfg).err = false ∧ (State.resetWith cfg).eoi = false ∧
    (State.resetWith cfg).eoc = false ∧ (State.resetWith cfg).seqOvf = false ∧
    (State.resetWith cfg).errCause = 0 ∧ (State.resetWith cfg).errSeq = 0 ∧
    (State.resetWith cfg).blkSize = BitVec.ofNat 32 cfg.blockSizeReset ∧
    (State.resetWith cfg).chkSize = BitVec.ofNat 32 cfg.chunkSizeReset ∧
    State.reset.blkSize = 65536 ∧ State.reset.chkSize = 1024 ∧
    (State.resetWith cfg).seq = 0 ∧ (State.resetWith cfg).rseq = 0 ∧
    (State.resetWith cfg).d = [] ∧ (State.resetWith cfg).rt = [] ∧
    (State.resetWith cfg).cs = [] ∧ (State.resetWith cfg).p = [] ∧
    IsIdentity (State.resetWith cfg).ml ∧
    (∀ b : Fin 256, (State.resetWith cfg).ft[b] = 0) ∧ (State.resetWith cfg).tr = [] ∧
    (∀ b : Byte, (State.resetWith cfg).ct.code b = none) ∧ (State.resetWith cfg).rs = [] ∧
    (State.resetWith cfg).inp = [] ∧ (State.resetWith cfg).out = [] ∧
    (State.resetWith cfg).inCnt = 0 ∧ (State.resetWith cfg).outCnt = 0

/-- R36: the sixteen addresses, the absence of a side effect, and the reset column. -/
def Obligations.RegisterPortShowsTheMap : Prop :=
  (∀ s : State,
    s.readReg 0x0 = s.status ∧ s.readReg 0x1 = s.errCause ∧ s.readReg 0x2 = s.errSeq ∧
    s.readReg 0x3 = s.blkSize ∧ s.readReg 0x4 = s.chkSize ∧ s.readReg 0x5 = s.seq ∧
    s.readReg 0x6 = s.rseq ∧ s.readReg 0x7 = BitVec.ofNat 32 s.d.length ∧
    s.readReg 0x8 = BitVec.ofNat 32 s.rt.length ∧ s.readReg 0x9 = BitVec.ofNat 32 s.cs.length ∧
    s.readReg 0xA = BitVec.ofNat 32 s.p.length ∧
    s.readReg 0xB = BitVec.ofNat 32 ((List.finRange 256).countP fun b => (s.ct[b]).isSome) ∧
    s.readReg 0xC = BitVec.ofNat 32 s.rs.length ∧ s.readReg 0xD = s.inCnt ∧
    s.readReg 0xE = s.outCnt ∧ s.readReg 0xF = 0 ∧
    ∀ a, hostAct (.readReg a) s = .next s) ∧
  ∀ a : BitVec 4, State.reset.readReg a = if a = 3 then 65536 else if a = 4 then 1024 else 0

/-- R25: the fields of `STATUS`, with the codes of the eleven phases (R23). -/
def Obligations.StatusBitsAreViews : Prop :=
  (Phase.code .idle = 0 ∧ Phase.code .split = 1 ∧ Phase.code .rotate = 2 ∧ Phase.code .rank = 3 ∧
    Phase.code .encode = 4 ∧ Phase.code .frame = 5 ∧ Phase.code .deframe = 6 ∧
    Phase.code .decode = 7 ∧ Phase.code .unrank = 8 ∧ Phase.code .unrotate = 9 ∧
    Phase.code .concat = 10) ∧
  ∀ s : State,
    s.status.getLsbD 0 = s.cur.isSome ∧ s.status.getLsbD 1 = s.err ∧ s.status.getLsbD 2 = s.eoi ∧
    s.status.getLsbD 3 = s.eoc ∧ s.status.getLsbD 4 = s.seqOvf ∧
    s.status.extractLsb' 5 3 = 0 ∧ s.status.extractLsb' 8 4 = s.phase.code ∧
    s.status.extractLsb' 12 20 = 0

/-- Reset meets the invariant, whatever the (legal) parameters. -/
def Obligations.ResetMeetsTheInvariant : Prop :=
  ∀ cfg : Config, cfg.wf = true → Inv (State.resetWith cfg)

/-! ## Decoding and the sequencer -/

/-- R93: words of every group of the opcode map, and a reserved one. -/
def Obligations.DecodeGivesTheListedCommands : Prop :=
  decode Config.default 0x00000000 = .command .nop ∧
  decode Config.default 0x01010000 = .command (.setbs 0x010000) ∧
  decode Config.default 0x02000003 = .command (.setcs 3) ∧
  decode Config.default 0x10000000 = .command .ldblk ∧
  decode Config.default 0x20000000 = .command .rot ∧
  decode Config.default 0x31000000 = .command .mtfd ∧
  decode Config.default 0x46000000 = .command .ctdes ∧
  decode Config.default 0x51000000 = .command .deframe ∧
  decode Config.default 0x63000000 = .command .decomp ∧
  decode Config.default 0x47000000 = .illegal (.reservedOpcode 0x47)

/-- R90 to R94: a word decodes to a command exactly when the command is legal and has that word. -/
def Obligations.DecodeAndEncodeAgree : Prop :=
  ∀ (cfg : Config) (w : Word) (i : Instr),
    decode cfg w = .command i ↔ (i.wf cfg = true ∧ encode i = w)

/-- R94: which words are illegal; one at the head of `CMDQ` raises `IllegalCommand` (cause 3, no
sequence number, `PHASE = IDLE`) and changes nothing else, and every other word runs as the command
whose word it is. -/
def Obligations.IllegalWordsRaiseIllegalCommand : Prop :=
  ∀ (s : State) (w : Word) (rest : List Word),
    s.cur = none → s.err = false → s.cmdq = w :: rest →
    (IllegalIn s.cfg.dcap w →
      step s = .next { s with cmdq := rest, err := true, errCause := 3, errSeq := 0,
                              phase := .idle, cur := none }) ∧
    (¬ IllegalIn s.cfg.dcap w → ∃ i, encode i = w ∧ step s = exec i (s.fetch rest i))

/-- R21, R71: the word at the head of `CMDQ` that decodes to `i` is taken into `CUR` and executed, with
`PHASE` at `IDLE` until a stage begins. -/
def Obligations.StepRunsTheDecodedCommand : Prop :=
  ∀ (s : State) (w : Word) (rest : List Word) (i : Instr),
    s.cur = none → s.err = false → s.cmdq = w :: rest → decode s.cfg w = .command i →
    step s = exec i { s with cmdq := rest, cur := some i, phase := .idle }

/-- R298, R236: a command in execution goes on as if just issued; R277: an idle core with an empty
queue keeps all its state. -/
def Obligations.HeldCommandsGoOnAndAnIdleCoreWaits : Prop :=
  (∀ (s : State) (i : Instr), s.cur = some i → s.err = false → step s = exec i s) ∧
  ∀ s : State, s.cur = none → s.cmdq = [] → step s = .next s

/-- R268: in the error state every word but `SRST`'s is removed with no effect whatever, legal or
not; `SRST` is executed. -/
def Obligations.ErrorStateDiscardsAllButSrst : Prop :=
  ∀ (s : State) (w : Word) (rest : List Word),
    s.cur = none → s.err = true → s.cmdq = w :: rest →
    (w ≠ 0x03000000 → step s = .next { s with cmdq := rest }) ∧
    (w = 0x03000000 → step s = exec .srst (s.fetch rest .srst))

/-- R269, R26: only `SRST` at the head of the queue, or the host's `Reset`, clears `ERR`; until then
`ERRCAUSE` and `ERRSEQ` keep describing the first error. -/
def Obligations.OnlySrstOrResetClearsErr : Prop :=
  ∀ s t : State, s.err = true → s.cur = none →
    (step s = .next t →
      (t.err = true ∧ t.errCause = s.errCause ∧ t.errSeq = s.errSeq) ∨
        ∃ rest, s.cmdq = 0x03000000 :: rest) ∧
    ∀ a, hostAct a s = .next t →
      (t.err = true ∧ t.errCause = s.errCause ∧ t.errSeq = s.errSeq) ∨ a = .reset

/-- R266, R267: an error of a stage command changes nothing but `ERR`, `ERRCAUSE`, `ERRSEQ`, `PHASE` and
`CUR`; it is one of R263's table under its code of R261, with its stage's phase and the sequence number R267
names. -/
def Obligations.ErrorsAreAllOrNothing : Prop :=
  (ErrorKind.code .malformedContainer = 1 ∧ ErrorKind.code .codeTableMismatch = 2 ∧
    ErrorKind.code .illegalCommand = 3 ∧ ErrorKind.code .capacityExceeded = 4) ∧
  ∀ (i : Instr) (s t : State), isMacro i = false → s.err = false → exec i s = .next t →
    t.err = true →
    t = { s with err := true, errCause := t.errCause, errSeq := t.errSeq, phase := stagePhase i,
                 cur := none } ∧
    (∃ e sub, (e, sub) ∈ errorTable ∧ causeField t.errCause = e.code ∧
      subField t.errCause = sub) ∧
    t.errCause.extractLsb' 9 23 = 0 ∧
    seqvField t.errCause = (recordedSeq s i).isSome ∧ t.errSeq = (recordedSeq s i).getD 0

/-- No step of the core ever stops: every error and every wait of the spec is a next state. -/
def Obligations.NoStepStops : Prop := ∀ s : State, ∃ t, step s = .next t

/-! ## System commands -/

/-- R250 to R252: `NOP` only ends; `SETBS` and `SETCS` write the zero-extended immediate; the decoder lets no
other immediate through. -/
def Obligations.NopSetbsSetcsResults : Prop :=
  encode .nop = 0 ∧
  ∀ s : State,
    exec .nop s = .next { s with cur := none, phase := .idle } ∧
    (∀ imm : BitVec 24, 1 ≤ imm.toNat → imm.toNat ≤ s.cfg.dcap →
      ∃ v : Word, v.toNat = imm.toNat ∧
        exec (.setbs imm) s = .next { s with blkSize := v, cur := none, phase := .idle }) ∧
    (∀ imm : BitVec 24, 1 ≤ imm.toNat →
      ∃ v : Word, v.toNat = imm.toNat ∧
        exec (.setcs imm) s = .next { s with chkSize := v, cur := none, phase := .idle }) ∧
    ∀ imm : BitVec 24,
      (encode (.setbs imm)).toNat = 0x01000000 + imm.toNat ∧
      (encode (.setcs imm)).toNat = 0x02000000 + imm.toNat ∧
      (imm.toNat = 0 ∨ s.cfg.dcap < imm.toNat →
        ∃ why, decode s.cfg (encode (.setbs imm)) = .illegal why) ∧
      (imm.toNat = 0 → ∃ why, decode s.cfg (encode (.setcs imm)) = .illegal why)

/-- R253: after `SRST` every element but `OUT`, `OUTCNT` and `CMDQ` is as after a reset of the same core. -/
def Obligations.SrstRestoresResetValues : Prop :=
  encode .srst = 0x03000000 ∧
  ∀ s : State, ∃ t, exec .srst s = .next t ∧
    t.out = s.out ∧ t.outRead = s.outRead ∧ t.outCnt = s.outCnt ∧ t.cmdq = s.cmdq ∧
    { t with out := [], outRead := 0, outCnt := 0, cmdq := [] } = State.resetWith s.cfg

/-! ## Block Splitter and raw store -/

/-- R200: `LDBLK` takes `min(BLKSIZE, |IN|)` bytes once a Block is there or the input has ended, and
until then waits in `SPLIT`. -/
def Obligations.LdblkTakesOneBlock : Prop :=
  encode .ldblk = 0x10000000 ∧
  ∀ s : State,
    (s.blkSize.toNat ≤ s.inp.length ∨ s.eoi = true →
      exec .ldblk s = .next { s with
        d := s.inp.take (min s.blkSize.toNat s.inp.length)
        inp := s.inp.drop (min s.blkSize.toNat s.inp.length)
        inCnt := s.inCnt + BitVec.ofNat 32 (min s.blkSize.toNat s.inp.length)
        cur := none, phase := .idle }) ∧
    (s.inp.length < s.blkSize.toNat → s.eoi = false →
      exec .ldblk s = .next { s with cur := some .ldblk, phase := .split })

/-- R201: `STD` pushes `D`. -/
def Obligations.StdPushesTheBuffer : Prop :=
  encode .std = 0x11000000 ∧
  ∀ s : State, exec .std s = .next { s with
    out := s.out ++ s.d, outCnt := s.outCnt + BitVec.ofNat 32 s.d.length,
    cur := none, phase := .idle }

/-! ## Rotation Transform -/

/-- R130 to R133: for every Chunk, `ROT` sorts its rotations (equal ones by offset), stores the row of
the Chunk itself and writes the last bytes of the rows; too many Chunks for `RT` raise. -/
def Obligations.RotSortsTheRotations : Prop :=
  encode .rot = 0x20000000 ∧
  ∀ s : State, 1 ≤ s.chkSize.toNat →
    (chunkCount s.d s.chkSize.toNat ≤ s.cfg.rtcap →
      ∃ rt d, exec .rot s = .next { s with rt := rt, d := d, cur := none, phase := .idle } ∧
        rt.length = chunkCount s.d s.chkSize.toNat ∧ d.length = s.d.length ∧
        ∀ i, i < chunkCount s.d s.chkSize.toNat →
          ∃ order, SortsRotations (chunkAt s.d s.chkSize.toNat i) order ∧
            (∃ r, rt[i]? = some r ∧ order[r.toNat]? = some 0) ∧
            ∀ j, j < (chunkAt s.d s.chkSize.toNat i).length →
              ∃ k, order[j]? = some k ∧
                d[i * s.chkSize.toNat + j]? = (chunkAt s.d s.chkSize.toNat i)[
                  (k + (chunkAt s.d s.chkSize.toNat i).length - 1) %
                    (chunkAt s.d s.chkSize.toNat i).length]?) ∧
    (s.cfg.rtcap < chunkCount s.d s.chkSize.toNat →
      exec .rot s = .next (s.raise .capacityExceeded 0 (some s.seq) .rotate))

/-- R134, R135: with one in-range index per Chunk, `UNROT` walks the sorted positions of each Chunk from
its index; otherwise it raises sub-cause 4. -/
def Obligations.UnrotWalksTheRows : Prop :=
  encode .unrot = 0x21000000 ∧
  ∀ s : State, 1 ≤ s.chkSize.toNat →
    ((s.rt.length = chunkCount s.d s.chkSize.toNat ∧
        ∀ i, i < chunkCount s.d s.chkSize.toNat →
          (s.rt.getD i 0).toNat < (chunkAt s.d s.chkSize.toNat i).length) →
      ∃ d, exec .unrot s = .next { s with d := d, cur := none, phase := .idle } ∧
        d.length = s.d.length ∧
        ∀ i, i < chunkCount s.d s.chkSize.toNat →
          ∃ (rows : List Nat) (row : Nat → Nat),
            SortsPositions (chunkAt s.d s.chkSize.toNat i) rows ∧
            row 0 = (s.rt.getD i 0).toNat ∧
            ∀ k, k < (chunkAt s.d s.chkSize.toNat i).length →
              rows[row k]? = some (row (k + 1)) ∧
              d[i * s.chkSize.toNat + k]? = (chunkAt s.d s.chkSize.toNat i)[row (k + 1)]?) ∧
    (¬ (s.rt.length = chunkCount s.d s.chkSize.toNat ∧
        ∀ i, i < chunkCount s.d s.chkSize.toNat →
          (s.rt.getD i 0).toNat < (chunkAt s.d s.chkSize.toNat i).length) →
      exec .unrot s = .next (s.raise .malformedContainer 4 (some s.rseq) .unrotate))

/-- R136: from every row the inverse recovers the rotation that stands there; so every row whose
rotation equals the Chunk recovers the Chunk, and the row `rotate` names is one. -/
def Obligations.UnrotateRecoversEveryRow : Prop :=
  ∀ c : List Byte,
    (∀ j k, (rotOrder c)[j]? = some k → unrotate j (rotate c).2 = rotation c k) ∧
    unrotate (rotate c).1 (rotate c).2 = c

/-- R136: `UNROT` directly after `ROT` restores `D` and raises nothing. -/
def Obligations.UnrotAfterRotRestoresTheBlock : Prop :=
  ∀ s : State, 1 ≤ s.chkSize.toNat → chunkCount s.d s.chkSize.toNat ≤ s.cfg.rtcap →
    ∃ t, exec .rot s = .next t ∧
      exec .unrot t = .next { s with rt := t.rt, cur := none, phase := .idle }

/-! ## Rank Transform -/

/-- R150, R151: `MTFE` emits each byte's index in the list and moves the byte to the front. -/
def Obligations.MtfeEmitsRanks : Prop :=
  encode .mtfe = 0x30000000 ∧
  ∀ s : State, ∃ (d ml : List Byte) (list : Nat → List Byte),
    exec .mtfe s = .next { s with d := d, ml := ml, cur := none, phase := .idle } ∧
    d.length = s.d.length ∧ IsIdentity (list 0) ∧ ml = list s.d.length ∧
    ∀ n b, s.d[n]? = some b → ∃ k, d[n]? = some k ∧
      (list n)[k.toNat]? = some b ∧ MovedToFront (list n) (list (n + 1)) k.toNat

/-- R150, R152: `MTFD` emits the byte at each index and moves it to the front. -/
def Obligations.MtfdEmitsBytes : Prop :=
  encode .mtfd = 0x31000000 ∧
  ∀ s : State, ∃ (d ml : List Byte) (list : Nat → List Byte),
    exec .mtfd s = .next { s with d := d, ml := ml, cur := none, phase := .idle } ∧
    d.length = s.d.length ∧ IsIdentity (list 0) ∧ ml = list s.d.length ∧
    ∀ n k, s.d[n]? = some k → ∃ b, d[n]? = some b ∧
      (list n)[k.toNat]? = some b ∧ MovedToFront (list n) (list (n + 1)) k.toNat

/-- R154: each of `MTFE` and `MTFD` undoes the other and leaves the same list, and nothing of `ML` survives
into either. -/
def Obligations.RankTransformRoundTrips : Prop :=
  ∀ s t : State,
    (exec .mtfe s = .next t → exec .mtfd t = .next { t with d := s.d }) ∧
    (exec .mtfd s = .next t → exec .mtfe t = .next { t with d := s.d }) ∧
    ∀ ml, exec .mtfe { s with ml := ml } = exec .mtfe s ∧ exec .mtfd { s with ml := ml } = exec .mtfd s

/-- R153: the ranks of a constant Block. -/
def Obligations.MtfeOfAConstantBlock : Prop :=
  ∀ (s : State) (b : Byte) (n : Nat), s.d = List.replicate (n + 1) b →
    ∃ ml, exec .mtfe s = .next { s with
      d := b :: List.replicate n 0, ml := ml, cur := none, phase := .idle }

/-! ## Prefix-Code Engine -/

/-- R160: `HCNT` counts every symbol; the counts sum to `DLEN`. -/
def Obligations.HcntCountsSymbols : Prop :=
  encode .hcnt = 0x40000000 ∧
  ∀ s : State, s.d.length < 2 ^ 32 →
    ∃ ft : FreqTable, exec .hcnt s = .next { s with ft := ft, cur := none, phase := .idle } ∧
      (∀ b : Byte, (ft[b.toFin]).toNat = s.d.count b) ∧ FreqTable.total ft = s.d.length

/-- R161 to R163: the leaves in ascending symbol order, then one node per merge, whose children are the
two live nodes extracted first and whose frequency is their sum; the root holds the total. -/
def Obligations.HtreeMergesTheTwoLowest : Prop :=
  encode .htree = 0x41000000 ∧
  ∀ s : State, FreqTable.total s.ft < 2 ^ 32 →
    ∃ tr : List TreeNode, exec .htree s = .next { s with tr := tr, cur := none, phase := .idle } ∧
      tr.length = 2 * symbolsBelow s.ft 256 - 1 ∧
      (∀ b : Fin 256, s.ft[b] ≠ 0 →
        tr[symbolsBelow s.ft b.val]? = some (.leaf (BitVec.ofFin b) s.ft[b])) ∧
      (∀ m, symbolsBelow s.ft 256 ≤ m → m < tr.length →
        ∃ f a b, tr[m]? = some (.node f a b) ∧
          f.toNat = (freqAt tr a).toNat + (freqAt tr b).toNat ∧
          ExtractedFirst tr (Live tr (symbolsBelow s.ft 256) m) a ∧
          ExtractedFirst tr (fun i => Live tr (symbolsBelow s.ft 256) m i ∧ i ≠ a) b) ∧
      (tr ≠ [] → (freqAt tr (tr.length - 1)).toNat = FreqTable.total s.ft)

/-- R165: the codes are the edge paths of the tree, `"0"` for the only leaf, none without a leaf. The
premise is the invariant that `TR` is always a tree `HTREE` built. -/
def Obligations.HcodeEmitsTreePaths : Prop :=
  encode .hcode = 0x42000000 ∧
  ∀ (s : State) (ft : FreqTable), s.tr = buildTree ft →
    ∃ ct : CodeTable, exec .hcode s = .next { s with ct := ct, cur := none, phase := .idle } ∧
      (s.tr = [] → ∀ b, ct.code b = none) ∧
      (∀ sym f, s.tr = [.leaf sym f] → ∀ b, ct.code b = if b = sym then some [false] else none) ∧
      (1 < s.tr.length → ∀ b c, ct.code b = some c ↔ LeadsTo s.tr (s.tr.length - 1) c b)

/-- R166: the table of a Block codes exactly the bytes that occur, with prefix-free codes of 1 to 255
bits; with two symbols or more every long enough bit string begins with exactly one code; the table
depends on the multiset of bytes alone. -/
def Obligations.CodesOfABlockArePrefixFree : Prop :=
  (∀ s t1 t2 t3 : State, s.d.length < 2 ^ 32 →
    exec .hcnt s = .next t1 → exec .htree t1 = .next t2 → exec .hcode t2 = .next t3 →
    (∀ b, t3.ct.code b ≠ none ↔ b ∈ s.d) ∧ t3.ct.Ok ∧
    (∀ x ∈ s.d, ∀ y ∈ s.d, x ≠ y → ∀ bits : Bits, 255 ≤ bits.length →
      ∃ b c, t3.ct.code b = some c ∧ c <+: bits ∧
        ∀ b' c', t3.ct.code b' = some c' → c' <+: bits → b' = b)) ∧
  ∀ d d' : List Byte, d.Perm d' →
    codesFromTree (buildTree (countFreqs d)) = codesFromTree (buildTree (countFreqs d'))

/-- R167, R100: the pad byte, then the codes of `D` and the padding packed; an empty `D` gives an empty
payload; a byte without a code, or a payload too long for `P`, raises. -/
def Obligations.HencPacksTheCodes : Prop :=
  encode .henc = 0x43000000 ∧
  ∀ s : State,
    (s.d = [] → exec .henc s = .next { s with p := [], cur := none, phase := .idle }) ∧
    ((∃ b ∈ s.d, s.ct.code b = none) →
      exec .henc s = .next (s.raise .codeTableMismatch 0 (some s.seq) .encode)) ∧
    ∀ (bits : Bits) (pad : Nat), s.d ≠ [] → (∀ b ∈ s.d, s.ct.code b ≠ none) →
      bits = (s.d.flatMap fun b => (s.ct.code b).getD []) → pad = (8 - bits.length % 8) % 8 →
      (1 + (bits.length + pad) / 8 ≤ s.cfg.pcap →
        ∃ packed, exec .henc s = .next { s with
            p := BitVec.ofNat 8 pad :: packed, cur := none, phase := .idle } ∧
          packed.length = (bits.length + pad) / 8 ∧
          unpackBits packed = bits ++ List.replicate pad false) ∧
      (s.cfg.pcap < 1 + (bits.length + pad) / 8 →
        exec .henc s = .next (s.raise .capacityExceeded 0 (some s.seq) .encode))

/-- R169, R170: the payload's bits split into codes in exactly one way, the bytes of which become `D`;
too much padding, bits left over, or more bytes than `D` holds raise. The premise is the invariant of
`CT` (R41). -/
def Obligations.HdecSplitsThePayload : Prop :=
  encode .hdec = 0x44000000 ∧
  ∀ s : State, s.ct.Ok →
    (s.p = [] → exec .hdec s = .next { s with d := [], cur := none, phase := .idle }) ∧
    ∀ (pad : Byte) (packed : List Byte), s.p = pad :: packed →
      ((7 < pad.toNat ∨ 8 * packed.length < pad.toNat) →
        exec .hdec s = .next (s.raise .malformedContainer 3 (some s.rseq) .decode)) ∧
      (pad.toNat ≤ 7 → pad.toNat ≤ 8 * packed.length →
        ∃ out rest,
          SplitsInto s.ct ((unpackBits packed).take (8 * packed.length - pad.toNat)) out rest ∧
          (s.cfg.dcap < out.length →
            exec .hdec s = .next (s.raise .capacityExceeded 0 (some s.rseq) .decode)) ∧
          (out.length ≤ s.cfg.dcap → rest ≠ [] →
            exec .hdec s = .next (s.raise .malformedContainer 3 (some s.rseq) .decode)) ∧
          (out.length ≤ s.cfg.dcap → rest = [] →
            exec .hdec s = .next { s with d := out, cur := none, phase := .idle }))

/-- R178 (c): `HDEC` after `HENC` with the same `CT` restores `D`. -/
def Obligations.HdecAfterHencRestoresTheBlock : Prop :=
  ∀ s t : State, s.ct.Ok → s.d.length ≤ s.cfg.dcap → s.err = false →
    exec .henc s = .next t → t.err = false →
    exec .hdec { t with d := [] } = .next { s with p := t.p, cur := none, phase := .idle }

/-- R171, R102: `CTSER` writes the entries of the present codes in ascending symbol order, at most 8960
bytes. The premise is the invariant of `CT` (R41). -/
def Obligations.CtserWritesAscendingEntries : Prop :=
  encode .ctser = 0x45000000 ∧
  ∀ s : State, s.ct.Ok →
    ∃ (cs : List Byte) (es : List (Byte × Bits)),
      exec .ctser s = .next { s with cs := cs, cur := none, phase := .idle } ∧
      Spells cs es ∧ (es.Pairwise fun x y => x.1.toNat < y.1.toNat) ∧
      (∀ b c, (b, c) ∈ es ↔ s.ct.code b = some c) ∧ cs.length ≤ 8960

/-- R172, R173: `CTDES` accepts exactly the regions that spell a table, and then holds that table;
every other region raises sub-cause 2. -/
def Obligations.CtdesAcceptsExactlyTables : Prop :=
  encode .ctdes = 0x46000000 ∧
  ∀ s : State,
    (∀ es, Spells s.cs es → FormTable es →
      ∃ ct : CodeTable, exec .ctdes s = .next { s with ct := ct, cur := none, phase := .idle } ∧
        ∀ b c, ct.code b = some c ↔ (b, c) ∈ es) ∧
    ((¬ ∃ es, Spells s.cs es ∧ FormTable es) →
      exec .ctdes s = .next (s.raise .malformedContainer 2 (some s.rseq) .decode))

/-- R178 (a): `CTDES` directly after `CTSER` restores `CT` and raises nothing. -/
def Obligations.CtdesAfterCtserRestoresTheTable : Prop :=
  ∀ s t : State, s.ct.Ok → exec .ctser s = .next t →
    exec .ctdes { t with ct := Vector.replicate 256 none } =
      .next { s with cs := t.cs, cur := none, phase := .idle }

/-! ## Container Codec -/

/-- R202: the record `FRAME` pushes and the counting of `SEQ`; after number 2^32 - 1 it raises. -/
def Obligations.FrameWritesOneRecord : Prop :=
  encode .frame = 0x50000000 ∧
  ∀ s : State,
    (s.seqOvf = true → exec .frame s = .next (s.raise .capacityExceeded 1 none .frame)) ∧
    (s.seqOvf = false →
      ∃ record, exec .frame s = .next { s with
          out := s.out ++ record
          outCnt := s.outCnt + BitVec.ofNat 32 (16 + 4 * s.rt.length + s.cs.length + s.p.length)
          seq := if s.seq = 0xFFFFFFFF then 0 else s.seq + 1
          seqOvf := decide (s.seq = 0xFFFFFFFF)
          cur := none, phase := .idle } ∧
        record = be32 s.seq ++ be32 (BitVec.ofNat 32 s.rt.length) ++ s.rt.flatMap be32 ++
          be32 (BitVec.ofNat 32 s.cs.length) ++ s.cs ++
          be32 (BitVec.ofNat 32 s.p.length) ++ s.p ∧
        record.length = 16 + 4 * s.rt.length + s.cs.length + s.p.length)

/-- R203, R204: what `DEFRAME` does with each verdict of `ParseRecord`. -/
def Obligations.DeframeTakesItsOutcome : Prop :=
  encode .deframe = 0x51000000 ∧
  ∀ s : State,
    (∀ seq rt cs p len, parseRecord s.cfg s.inp = .complete seq rt cs p len →
      exec .deframe s = .next { s with
        rseq := seq, rt := rt, cs := cs, p := p, inp := s.inp.drop len,
        inCnt := s.inCnt + BitVec.ofNat 32 len, cur := none, phase := .idle }) ∧
    (∀ seq, parseRecord s.cfg s.inp = .oversize seq →
      exec .deframe s = .next (s.raise .malformedContainer 6 (some seq) .deframe)) ∧
    ∀ seq, parseRecord s.cfg s.inp = .incomplete seq →
      (s.eoi = true → s.inp = [] →
        exec .deframe s = .next { s with eoc := true, cur := none, phase := .idle }) ∧
      (s.eoi = true → s.inp ≠ [] →
        exec .deframe s = .next (s.raise .malformedContainer 1 seq .deframe)) ∧
      (s.eoi = false → exec .deframe s = .next { s with cur := some .deframe, phase := .deframe })

/-- R96, R203: a record at the head of `IN` that fits the core is read field by field and consumed
whole; what follows it is not touched. -/
def Obligations.DeframeReadsBackARecord : Prop :=
  ∀ (s : State) (seq : Word) (rt : List Word) (cs p tail : List Byte),
    s.cfg.wf = true → rt.length ≤ s.cfg.rtcap → cs.length ≤ 8960 → p.length ≤ s.cfg.pcap →
    s.inp = recordBytes seq rt cs p ++ tail →
    exec .deframe s = .next { s with
      rseq := seq, rt := rt, cs := cs, p := p, inp := tail,
      inCnt := s.inCnt + BitVec.ofNat 32 (16 + 4 * rt.length + cs.length + p.length),
      cur := none, phase := .idle }

/-- R99: `ParseRecord` field by field, with `n`, `c` and `p` the three length fields. Each is tested
against its capacity as soon as it can be read; a record cut short is incomplete, its number known
from four bytes on; and a complete or an oversize verdict does not depend on bytes that come later. -/
def Obligations.ParseRecordVerdicts : Prop :=
  ∀ (cfg : Config) (b : List Byte),
    (∀ (seq : Word) (n c p : Nat), seq = BitVec.ofNat 32 (fieldAt b 0) → n = fieldAt b 4 →
      c = fieldAt b (8 + 4 * n) → p = fieldAt b (12 + 4 * n + c) →
      (b.length < 4 → parseRecord cfg b = .incomplete none) ∧
      (4 ≤ b.length → b.length < 8 → parseRecord cfg b = .incomplete (some seq)) ∧
      (8 ≤ b.length → cfg.rtcap < n → parseRecord cfg b = .oversize seq) ∧
      (8 ≤ b.length → n ≤ cfg.rtcap → b.length < 12 + 4 * n →
        parseRecord cfg b = .incomplete (some seq)) ∧
      (n ≤ cfg.rtcap → 12 + 4 * n ≤ b.length → 8960 < c → parseRecord cfg b = .oversize seq) ∧
      (n ≤ cfg.rtcap → 12 + 4 * n ≤ b.length → c ≤ 8960 → b.length < 16 + 4 * n + c →
        parseRecord cfg b = .incomplete (some seq)) ∧
      (n ≤ cfg.rtcap → c ≤ 8960 → 16 + 4 * n + c ≤ b.length → cfg.pcap < p →
        parseRecord cfg b = .oversize seq) ∧
      (n ≤ cfg.rtcap → c ≤ 8960 → 16 + 4 * n + c ≤ b.length → p ≤ cfg.pcap →
        b.length < 16 + 4 * n + c + p → parseRecord cfg b = .incomplete (some seq)) ∧
      (n ≤ cfg.rtcap → c ≤ 8960 → p ≤ cfg.pcap → 16 + 4 * n + c + p ≤ b.length →
        parseRecord cfg b = .complete seq
          ((List.range n).map fun i => BitVec.ofNat 32 (fieldAt b (8 + 4 * i)))
          ((b.drop (12 + 4 * n)).take c) ((b.drop (16 + 4 * n + c)).take p)
          (16 + 4 * n + c + p))) ∧
    (∀ (seq : Word) (rt : List Word) (cs p : List Byte) (k : Nat), cfg.wf = true →
      rt.length ≤ cfg.rtcap → cs.length ≤ 8960 → p.length ≤ cfg.pcap →
      k < (recordBytes seq rt cs p).length → b = (recordBytes seq rt cs p).take k →
      parseRecord cfg b = .incomplete (if k < 4 then none else some seq)) ∧
    ∀ later,
      (∀ seq, parseRecord cfg b = .oversize seq → parseRecord cfg (b ++ later) = .oversize seq) ∧
      ∀ seq rt cs p len, parseRecord cfg b = .complete seq rt cs p len →
        parseRecord cfg (b ++ later) = .complete seq rt cs p len ∧ len ≤ b.length

/-- R205: `COLLECT` stores a copy of `D` under `RSEQ` and no other key changes; a present key raises
sub-cause 5 before a full store raises `CapacityExceeded`. -/
def Obligations.CollectStoresUnderItsKey : Prop :=
  encode .collect = 0x52000000 ∧
  ∀ s : State, s.rs.wf = true →
    (s.rs.lookup s.rseq ≠ none →
      exec .collect s = .next (s.raise .malformedContainer 5 (some s.rseq) .concat)) ∧
    (s.rs.lookup s.rseq = none →
      (s.cfg.rsBlocks < s.rs.length + 1 ∨
        s.cfg.rsBytes < (s.rs.map fun e => e.2.length).sum + s.d.length) →
      exec .collect s = .next (s.raise .capacityExceeded 0 (some s.rseq) .concat)) ∧
    (s.rs.lookup s.rseq = none → s.rs.length + 1 ≤ s.cfg.rsBlocks →
      (s.rs.map fun e => e.2.length).sum + s.d.length ≤ s.cfg.rsBytes →
      ∃ rs : Store, exec .collect s = .next { s with rs := rs, cur := none, phase := .idle } ∧
        rs.wf = true ∧ rs.length = s.rs.length + 1 ∧
        ∀ k, rs.lookup k = if k = s.rseq then some s.d else s.rs.lookup k)

/-- R206: `CONCAT` pushes the Blocks in ascending key order and empties the store. -/
def Obligations.ConcatPushesInKeyOrder : Prop :=
  encode .concat = 0x53000000 ∧
  ∀ (s : State) (es : List (Word × List Byte)), s.rs.wf = true → es.Perm s.rs →
    (es.Pairwise fun x y => x.1.toNat < y.1.toNat) →
    exec .concat s = .next { s with
      rs := [], out := s.out ++ es.flatMap Prod.snd,
      outCnt := s.outCnt + BitVec.ofNat 32 (es.flatMap Prod.snd).length,
      cur := none, phase := .idle }

/-- R207: the store depends on the set of (number, Block) pairs collected, not on their order. -/
def Obligations.CollectOrderDoesNotMatter : Prop :=
  ∀ (m : Store) (k1 k2 : Word) (v1 v2 : List Byte), m.wf = true → k1 ≠ k2 →
    Store.insert k1 v1 (Store.insert k2 v2 m) = Store.insert k2 v2 (Store.insert k1 v1 m)

/-! ## Pipeline Orchestrator -/

/-- R231: an enabled `CBLK` whose Chunks fit `RT` and whose payload fits `P` compresses one Block: every
buffer and table it leaves, and the record it pushes. -/
def Obligations.CblkCompressesOneBlock : Prop :=
  ∀ s : State, (s.blkSize.toNat ≤ s.inp.length ∨ s.eoi = true) →
    chunkCount (nextBlock s) s.chkSize.toNat ≤ s.cfg.rtcap →
    (payloadFor (blockCodes s) (blockRanks s)).length ≤ s.cfg.pcap → s.seqOvf = false →
    exec .cblk s = .next { s with
      inp := s.inp.drop (nextBlock s).length
      inCnt := s.inCnt + BitVec.ofNat 32 (nextBlock s).length
      rt := (blockRows s).map fun r => BitVec.ofNat 32 r.1
      d := blockRanks s
      ml := (mtfEncode identityList ((blockRows s).flatMap Prod.snd)).2
      ft := countFreqs (blockRanks s)
      tr := buildTree (countFreqs (blockRanks s))
      ct := blockCodes s
      p := payloadFor (blockCodes s) (blockRanks s)
      cs := serializeTable (blockCodes s)
      out := s.out ++ recordBytes s.seq ((blockRows s).map fun r => BitVec.ofNat 32 r.1)
        (serializeTable (blockCodes s)) (payloadFor (blockCodes s) (blockRanks s))
      outCnt := s.outCnt + BitVec.ofNat 32 (recordBytes s.seq
        ((blockRows s).map fun r => BitVec.ofNat 32 r.1) (serializeTable (blockCodes s))
        (payloadFor (blockCodes s) (blockRanks s))).length
      seq := if s.seq = 0xFFFFFFFF then 0 else s.seq + 1
      seqOvf := decide (s.seq = 0xFFFFFFFF)
      cur := none, phase := .idle }

/-- R231: `CBLK` waits as `LDBLK` does; else the state after it is the state after its nine stage commands
issued one by one, also when one of them raises (the later ones are then discarded). -/
def Obligations.CblkEqualsItsNineStages : Prop :=
  ∀ (s : State) (rest : List Word), s.cur = none → s.err = false →
    (s.blkSize.toNat ≤ s.inp.length ∨ s.eoi = true →
      Host.Core.run Sys2Proof.core 9 { s with cmdq := [0x10000000, 0x20000000, 0x30000000,
        0x40000000, 0x41000000, 0x42000000, 0x43000000, 0x45000000, 0x50000000] ++ rest } =
      step { s with cmdq := 0x60000000 :: rest }) ∧
    (s.inp.length < s.blkSize.toNat → s.eoi = false →
      step { s with cmdq := 0x60000000 :: rest } =
        .next { s with cmdq := rest, cur := some .cblk, phase := .split })

/-- R232: `DBLK` waits as `DEFRAME` does; where there is a record (or what can never become one), the state
after it is the state after its six stage commands, also when one raises; at the end of the container
it only sets `EOC`. -/
def Obligations.DblkEqualsItsSixStages : Prop :=
  ∀ (s : State) (rest : List Word), s.cur = none → s.err = false →
    (deframeOutcome s ≠ .wait → deframeOutcome s ≠ .endOfContainer →
      Host.Core.run Sys2Proof.core 6 { s with cmdq := [0x51000000, 0x46000000, 0x44000000,
        0x31000000, 0x21000000, 0x52000000] ++ rest } =
      step { s with cmdq := 0x61000000 :: rest }) ∧
    (deframeOutcome s = .wait →
      step { s with cmdq := 0x61000000 :: rest } =
        .next { s with cmdq := rest, cur := some .dblk, phase := .deframe }) ∧
    (s.eoi = true → s.inp = [] →
      step { s with cmdq := 0x61000000 :: rest } =
        .next { s with cmdq := rest, eoc := true, phase := .idle })

/-- R232: `DBLK` of a record whose table, payload and indices are sound decodes it: every buffer it
leaves, and the Block stored under the record's number. -/
def Obligations.DblkDecodesOneRecord : Prop :=
  ∀ (s : State) (seq : Word) (rt : List Word) (ct : CodeTable) (ranks tail : List Byte),
    s.cfg.wf = true → 1 ≤ s.chkSize.toNat → ct.Ok → (∀ b ∈ ranks, ct.code b ≠ none) →
    ranks.length ≤ s.cfg.dcap → rt.length ≤ s.cfg.rtcap →
    (payloadFor ct ranks).length ≤ s.cfg.pcap →
    s.inp = recordBytes seq rt (serializeTable ct) (payloadFor ct ranks) ++ tail →
    rtFits rt ranks.length s.chkSize.toNat = true →
    s.rs.lookup seq = none → s.rs.length + 1 ≤ s.cfg.rsBlocks →
    (s.rs.map fun e => e.2.length).sum + ranks.length ≤ s.cfg.rsBytes →
    exec .dblk s = .next { s with
      rseq := seq, rt := rt, cs := serializeTable ct, p := payloadFor ct ranks
      inp := tail
      inCnt := s.inCnt + BitVec.ofNat 32
        (16 + 4 * rt.length + (serializeTable ct).length + (payloadFor ct ranks).length)
      ct := ct
      d := unrotateChunks rt (mtfDecode identityList ranks).1 s.chkSize.toNat
      ml := (mtfDecode identityList ranks).2
      rs := Store.insert seq (unrotateChunks rt (mtfDecode identityList ranks).1 s.chkSize.toNat)
        s.rs
      cur := none, phase := .idle }

/-- R233, R236: a pass of `COMP` waits as `LDBLK` does; with the input used up it ends; else it is one
`CBLK`, after which `COMP` is still in execution in `SPLIT`, unless the `CBLK` raised. -/
def Obligations.CompRunsOneBlockAPass : Prop :=
  encode .comp = 0x62000000 ∧
  ∀ s : State, 1 ≤ s.blkSize.toNat → s.err = false →
    (s.inp.length < s.blkSize.toNat → s.eoi = false →
      exec .comp s = .next { s with cur := some .comp, phase := .split }) ∧
    (s.eoi = true → s.inp = [] → exec .comp s = .next { s with cur := none, phase := .idle }) ∧
    ((s.blkSize.toNat ≤ s.inp.length ∨ s.eoi = true) → s.inp ≠ [] →
      ∃ t, exec .cblk s = .next t ∧
        exec .comp s =
          .next (if t.err then t else { t with cur := some .comp, phase := .split }))

/-- R234, R236: a pass of `DECOMP` waits as `DEFRAME` does, else it is one `DBLK`, after which `DECOMP` is
still in execution in `DEFRAME`, unless the `DBLK` raised; after the pass that met the end of the
container (`EOC` set, log 6: how the model tells) it is the `CONCAT` that ends it, which pushes a
canonical store in ascending key order. -/
def Obligations.DecompRunsOneRecordAPass : Prop :=
  encode .decomp = 0x63000000 ∧
  ∀ s : State, s.err = false →
    (s.phase = .deframe → s.eoc = true → exec .decomp s = .next { s with
      rs := [], out := s.out ++ s.rs.flatMap Prod.snd
      outCnt := s.outCnt + BitVec.ofNat 32 (s.rs.flatMap Prod.snd).length
      cur := none, phase := .idle }) ∧
    (∀ es : List (Word × List Byte), s.phase = .deframe → s.eoc = true → s.rs.wf = true →
      es.Perm s.rs → (es.Pairwise fun x y => x.1.toNat < y.1.toNat) →
      exec .decomp s = .next { s with
        rs := [], out := s.out ++ es.flatMap Prod.snd
        outCnt := s.outCnt + BitVec.ofNat 32 (es.flatMap Prod.snd).length
        cur := none, phase := .idle }) ∧
    ((s.phase ≠ .deframe ∨ s.eoc = false) →
      (deframeOutcome s = .wait →
        exec .decomp s = .next { s with cur := some .decomp, phase := .deframe }) ∧
      (deframeOutcome s ≠ .wait →
        ∃ t, exec .dblk s = .next t ∧
          exec .decomp s =
            .next (if t.err then t else { t with cur := some .decomp, phase := .deframe })))

/-- R208, R233: `COMP` on an ended input of `n` bytes takes `ceil(n / BLKSIZE)` Blocks and one more step,
and ends with the input consumed and as many records numbered; or an error has ended it. -/
def Obligations.CompConsumesTheWholeInput : Prop :=
  ∀ (s : State) (k : Nat), s.cur = none → s.err = false → s.eoi = true →
    s.cmdq = [0x62000000] → 1 ≤ s.blkSize.toNat →
    k = (s.inp.length + s.blkSize.toNat - 1) / s.blkSize.toNat →
    ∃ t, Host.Core.run Sys2Proof.core (k + 1) s = .next t ∧
      (t.err = true ∨
        (t.cur = none ∧ t.cmdq = [] ∧ t.phase = .idle ∧ t.inp = [] ∧
          t.seq = s.seq + BitVec.ofNat 32 k ∧
          t.inCnt = s.inCnt + BitVec.ofNat 32 s.inp.length))

/-- R234: a `DECOMP` that fails pushes nothing: no pass of it writes `OUT`, and its `CONCAT` never
fails. -/
def Obligations.FailedDecompPushesNothing : Prop :=
  ∀ s t : State, s.err = false → exec .decomp s = .next t →
    (t.err = true → t.out = s.out ∧ t.outCnt = s.outCnt ∧ t.rs = s.rs) ∧
    (t.cur ≠ none → t.out = s.out ∧ t.outCnt = s.outCnt)

/-- R7, R238: the record `CBLK` pushes, read by `DBLK` on a core with the same chunk size and the same
parameters, puts the very same Block into the store. -/
def Obligations.BlockRoundTrips : Prop :=
  ∀ (s t u : State) (record tail : List Byte),
    SizesOk s → s.err = false → exec .cblk s = .next t → t.err = false → t.cur = none →
    t.out = s.out ++ record →
    u.cfg = s.cfg → u.chkSize = s.chkSize → u.inp = record ++ tail →
    u.rs.lookup s.seq = none → u.rs.length + 1 ≤ u.cfg.rsBlocks →
    (u.rs.map fun e => e.2.length).sum + (nextBlock s).length ≤ u.cfg.rsBytes →
    ∃ v, exec .dblk u = .next v ∧ v.err = u.err ∧ v.cur = none ∧ v.inp = tail ∧
      v.d = nextBlock s ∧ v.rs = Store.insert s.seq (nextBlock s) u.rs

/-- R74, R237: nothing of an earlier Block reaches the next. What `CBLK` pushes, and how it fails, depends
only on the parameters, the input, the sizes and the record number; the Block `DBLK` decodes depends
only on the parameters, the input and the chunk size. -/
def Obligations.NothingCrossesBlocks : Prop :=
  ∀ s1 s2 t1 t2 : State, s1.cfg = s2.cfg → s1.inp = s2.inp → s1.eoi = s2.eoi →
    s1.chkSize = s2.chkSize → s1.err = false → s2.err = false →
    (s1.blkSize = s2.blkSize → s1.seq = s2.seq → s1.seqOvf = s2.seqOvf →
      exec .cblk s1 = .next t1 → exec .cblk s2 = .next t2 →
      ∃ bytes, t1.out = s1.out ++ bytes ∧ t2.out = s2.out ++ bytes ∧
        t1.seq = t2.seq ∧ t1.seqOvf = t2.seqOvf ∧ t1.err = t2.err ∧
        (t1.err = true → t1.errCause = t2.errCause ∧ t1.errSeq = t2.errSeq)) ∧
    (s1.inp ≠ [] → exec .dblk s1 = .next t1 → exec .dblk s2 = .next t2 →
      t1.cur = none → t1.err = false → t2.err = false →
      t1.rseq = t2.rseq ∧ t1.d = t2.d ∧
        t1.rs = Store.insert t1.rseq t1.d s1.rs ∧ t2.rs = Store.insert t1.rseq t1.d s2.rs)

/-! ## Host and whole machine -/

/-- R72: once a command can begin, a byte that arrives later changes nothing but the input left over. -/
def Obligations.LaterInputDoesNotChangeACommand : Prop :=
  ∀ (i : Instr) (s t : State) (b : Byte), i ≠ .srst → s.eoi = false → 1 ≤ s.blkSize.toNat →
    waits i s = false → exec i s = .next t →
    exec i { s with inp := s.inp ++ [b] } = .next { t with inp := t.inp ++ [b] }

/-- R79, R290, R297: the host's actions. -/
def Obligations.HostActionsHaveTheirEffects : Prop :=
  ∀ s : State,
    (∀ w, hostAct (.issueCmd w) s = .next { s with cmdq := s.cmdq ++ [w] }) ∧
    (∀ b, s.eoi = false → hostAct (.pushIn b) s = .next { s with inp := s.inp ++ [b] }) ∧
    (∀ b, s.eoi = true → hostAct (.pushIn b) s = .refused .pushAfterEoi) ∧
    hostAct .setEoi s = .next { s with eoi := true } ∧
    (∀ b, s.outHead = some b →
      ∃ t, hostAct .popOut s = .next t ∧ s.outPending = b :: t.outPending ∧
        t = { s with outRead := t.outRead }) ∧
    (s.outPending = [] → hostAct .popOut s = .refused .popOfEmptyOut) ∧
    (∀ a, hostAct (.readReg a) s = .next s) ∧
    hostAct .reset s = .next (State.resetWith s.cfg)

/-- R23, R24, R26, R27, R263, R266, R298: the sequencer, the flags and the error registers stay
consistent, from every state in which they are. -/
def Obligations.SequencerStaysConsistent : Prop :=
  ∀ s t : State, SequencerOk s → step s = .next t → SequencerOk t

/-- R28 to R44: every step keeps the whole invariant: the sequencer, the capacities, the ranges of the
sizes, `ML` a permutation, `CT` prefix-free, `RS` canonical. -/
def Obligations.StepKeepsTheInvariant : Prop :=
  ∀ s t : State, Inv s → step s = .next t → Inv t

/-- Every host action keeps the invariant too. -/
def Obligations.HostActionsKeepTheInvariant : Prop :=
  ∀ (a : HostAction) (s t : State), Inv s → hostAct a s = .next t → Inv t

/-- R45: a command writes exactly the elements of its row; besides them only `CUR` and `PHASE` (R23) and,
when it raises, the error registers. -/
def Obligations.CommandsWriteOnlyTheirRow : Prop :=
  ∀ (i : Instr) (s t : State), exec i s = .next t →
    (∀ e, e ∉ writes i → Elem.Same s t e) ∧
    t.cfg = s.cfg ∧ t.cmdq = s.cmdq ∧ t.outRead = s.outRead ∧
    (i ≠ .srst → t.err = s.err ∧ t.errCause = s.errCause ∧ t.errSeq = s.errSeq ∨ t.err = true)

/-- R30, R202: `FRAME`, `CBLK` and `COMP` push exactly when the 33-bit count of records grows by one, and
what they push then begins with the number that was next; every other command leaves the count,
except `SRST`, which sets it to 0. -/
def Obligations.EveryRecordPushedIsCounted : Prop :=
  ∀ (i : Instr) (s t : State), (s.seqOvf = true → s.seq = 0) → exec i s = .next t →
    (i = .frame ∨ i = .cblk ∨ i = .comp →
      (recordsWritten t = recordsWritten s ∧ t.out = s.out) ∨
      (recordsWritten t = recordsWritten s + 1 ∧ ∃ rest, t.out = s.out ++ be32 s.seq ++ rest)) ∧
    (i = .srst → recordsWritten t = 0 ∧ t.out = s.out) ∧
    (i ≠ .frame → i ≠ .cblk → i ≠ .comp → i ≠ .srst → recordsWritten t = recordsWritten s)

/-- R298: a command that holds has changed nothing but `CUR` and `PHASE`, and stepping again changes
nothing until the host acts. -/
def Obligations.HoldsChangeOnlyCurAndPhase : Prop :=
  ∀ (i : Instr) (s t : State), s.err = false → waits i s = true → exec i s = .next t →
    (∃ p, waitPhase i = some p ∧ t = { s with cur := some i, phase := p }) ∧
    (s.eoc = false → step t = .next t)
end

