-- ==== Sys2Proof/Laws/Bits.lean ====
section
/-! SUPPORT. Lengths and round trips of the byte and bit notation (R9, R66, R101). -/

namespace Sys2Proof.Machine

@[simp] theorem be32_length (v : Word) : (be32 v).length = 4 := rfl

@[simp] theorem be32Nat_length (n : Nat) : (be32Nat n).length = 4 := rfl

/-- The four bytes of a word, most significant first, are read back as that word (R9, R66). -/
theorem unbe32_be32_append (v : Word) (rest : List Byte) : unbe32 (be32 v ++ rest) = v := by
  simp only [unbe32, be32, List.cons_append, List.nil_append, List.getD_cons_zero,
    List.getD_cons_succ]
  apply BitVec.eq_of_getLsbD_eq
  intro i hi
  simp only [BitVec.getLsbD_append, BitVec.getLsbD_extractLsb']
  have e1 : 8 ≤ i → 8 + (i - 8) = i := by omega
  have e2 : 16 ≤ i → 16 + (i - 8 - 8) = i := by omega
  have e3 : 24 ≤ i → 24 + (i - 8 - 8 - 8) = i := by omega
  split_ifs
  · simp; omega
  · rw [e1 (by omega)]; simp; omega
  · rw [e2 (by omega)]; simp; omega
  · rw [e3 (by omega)]; simp; omega

theorem unbe32_be32 (v : Word) : unbe32 (be32 v) = v := by
  simpa using unbe32_be32_append v []

theorem slice_length {α : Type} (s : List α) (a b : Nat) :
    (slice s a b).length = min b s.length - a := by
  simp [slice]

/-- The slice that lies behind `x` and covers `y` is `y`. -/
theorem slice_append {α : Type} (x y z : List α) :
    slice (x ++ (y ++ z)) x.length (x.length + y.length) = y := by
  simp [slice, List.take_append]

@[simp] theorem zeros_length (n : Nat) : (zeros n).length = n := by simp [zeros]

@[simp] theorem unpackByte_length (b : Byte) : (unpackByte b).length = 8 := rfl

theorem unpackByte_packByte (b7 b6 b5 b4 b3 b2 b1 b0 : Bool) :
    unpackByte (packByte b7 b6 b5 b4 b3 b2 b1 b0) = [b7, b6, b5, b4, b3, b2, b1, b0] := by
  revert b7 b6 b5 b4 b3 b2 b1 b0; decide

@[simp] theorem unpackBits_length (s : List Byte) : (unpackBits s).length = 8 * s.length := by
  induction s with
  | nil => rfl
  | cons b s ih =>
    simp only [unpackBits, List.flatMap_cons, List.length_append, unpackByte_length,
      List.length_cons] at ih ⊢
    omega

/-- A bit string that `packBits` cannot take a byte from has fewer than 8 bits. -/
theorem length_lt_of_no_byte (c : Bits)
    (hc : ∀ b7 b6 b5 b4 b3 b2 b1 b0 rest,
      c = b7 :: b6 :: b5 :: b4 :: b3 :: b2 :: b1 :: b0 :: rest → False) : c.length < 8 := by
  match c, hc with
  | [], _ => simp
  | [_], _ => simp
  | [_, _], _ => simp
  | [_, _, _], _ => simp
  | [_, _, _, _], _ => simp
  | [_, _, _, _, _], _ => simp
  | [_, _, _, _, _, _], _ => simp
  | [_, _, _, _, _, _, _], _ => simp
  | _ :: _ :: _ :: _ :: _ :: _ :: _ :: _ :: _, hc => exact (hc _ _ _ _ _ _ _ _ _ rfl).elim

/-- A bit string of a multiple of 8 bits survives packing (R9). -/
theorem unpackBits_packBits (c : Bits) (h : c.length % 8 = 0) : unpackBits (packBits c) = c := by
  induction c using packBits.induct with
  | case1 b7 b6 b5 b4 b3 b2 b1 b0 rest ih =>
    have hr : rest.length % 8 = 0 := by simp only [List.length_cons] at h; omega
    have ih := ih hr
    simp only [unpackBits] at ih
    simp [packBits, unpackBits, unpackByte_packByte, ih]
  | case2 c hc =>
    have hl := length_lt_of_no_byte c hc
    have : c = [] := List.length_eq_zero_iff.mp (by omega)
    subst this; rfl

theorem packBits_length (c : Bits) : (packBits c).length = c.length / 8 := by
  induction c using packBits.induct with
  | case1 b7 b6 b5 b4 b3 b2 b1 b0 rest ih =>
    simp only [packBits, List.length_cons, ih]; omega
  | case2 c hc =>
    have hl := length_lt_of_no_byte c hc
    rw [packBits.eq_2 c hc, Nat.div_eq_of_lt hl]; rfl

end Sys2Proof.Machine
end

