-- ==== Sys2Proof/Laws/PerInstr.lean ====
section
/-! SUPPORT. What is proved of every command as syntax, one lemma a command. -/

namespace Sys2Proof.Laws.TableRow

/-- The mask of a command's row in spec/opcode_table.json (R91). -/
def mask : Instr → Word
  | .setbs _ | .setcs _ => 0xFF000000
  | .nop | .srst | .ldblk | .std | .rot | .unrot | .mtfe | .mtfd | .hcnt | .htree | .hcode
  | .henc | .hdec | .ctser | .ctdes | .frame | .deframe | .collect | .concat | .cblk | .dblk
  | .comp | .decomp => 0xFFFFFFFF

/-- The match of a command's row in spec/opcode_table.json (R91, R93). -/
def pattern : Instr → Word
  | .nop => 0x00000000
  | .setbs _ => 0x01000000
  | .setcs _ => 0x02000000
  | .srst => 0x03000000
  | .ldblk => 0x10000000
  | .std => 0x11000000
  | .rot => 0x20000000
  | .unrot => 0x21000000
  | .mtfe => 0x30000000
  | .mtfd => 0x31000000
  | .hcnt => 0x40000000
  | .htree => 0x41000000
  | .hcode => 0x42000000
  | .henc => 0x43000000
  | .hdec => 0x44000000
  | .ctser => 0x45000000
  | .ctdes => 0x46000000
  | .frame => 0x50000000
  | .deframe => 0x51000000
  | .collect => 0x52000000
  | .concat => 0x53000000
  | .cblk => 0x60000000
  | .dblk => 0x61000000
  | .comp => 0x62000000
  | .decomp => 0x63000000

/-- A command's word spells its row: masked, it is the row's match (R91), and its opcode and immediate
fields are the command's. -/
def Statement (i : Instr) : Prop :=
  encode i &&& mask i = pattern i ∧ opField (encode i) = i.opcode ∧
    immField (encode i) = i.immediate

/-- `op` of a word built of an opcode and an immediate (R90). -/
theorem opField_append (op : BitVec 8) (imm : BitVec 24) : opField (op ++ imm) = op := by
  apply BitVec.eq_of_getLsbD_eq
  intro i hi
  simp only [opField, BitVec.getLsbD_extractLsb', BitVec.getLsbD_append]
  have h : ¬ 24 + i < 24 := by omega
  simp [hi, h]

/-- `imm` of a word built of an opcode and an immediate (R90). -/
theorem immField_append (op : BitVec 8) (imm : BitVec 24) : immField (op ++ imm) = imm := by
  apply BitVec.eq_of_getLsbD_eq
  intro i hi
  simp only [immField, BitVec.getLsbD_extractLsb', BitVec.getLsbD_append]
  simp [hi]

/-- A format I word masked to its opcode (R91). -/
theorem mask_append (op : BitVec 8) (imm : BitVec 24) :
    (op ++ imm) &&& 0xFF000000#32 = op ++ 0#24 := by
  apply BitVec.eq_of_getLsbD_eq
  intro i hi
  have hm : (0xFF000000#32 : Word) = 0xFF#8 ++ 0#24 := by decide
  rw [hm]
  simp only [BitVec.getLsbD_and, BitVec.getLsbD_append]
  by_cases h : i < 24
  · simp [h]
  · have h8 : i - 24 < 8 := by omega
    have hff : (0xFF#8).getLsbD (i - 24) = true := by
      have : ∀ k, k < 8 → (0xFF#8).getLsbD k = true := by decide
      exact this _ h8
    simp [h, hff]

theorem nop : Statement .nop := by unfold Statement; decide

theorem setbs (imm : BitVec 24) : Statement (.setbs imm) :=
  ⟨(mask_append _ imm).trans (show 0x01#8 ++ 0#24 = 0x01000000#32 by decide), opField_append _ imm,
    immField_append _ imm⟩

theorem setcs (imm : BitVec 24) : Statement (.setcs imm) :=
  ⟨(mask_append _ imm).trans (show 0x02#8 ++ 0#24 = 0x02000000#32 by decide), opField_append _ imm,
    immField_append _ imm⟩

theorem srst : Statement .srst := by unfold Statement; decide

theorem ldblk : Statement .ldblk := by unfold Statement; decide

theorem std : Statement .std := by unfold Statement; decide

theorem rot : Statement .rot := by unfold Statement; decide

theorem unrot : Statement .unrot := by unfold Statement; decide

theorem mtfe : Statement .mtfe := by unfold Statement; decide

theorem mtfd : Statement .mtfd := by unfold Statement; decide

theorem hcnt : Statement .hcnt := by unfold Statement; decide

theorem htree : Statement .htree := by unfold Statement; decide

theorem hcode : Statement .hcode := by unfold Statement; decide

theorem henc : Statement .henc := by unfold Statement; decide

theorem hdec : Statement .hdec := by unfold Statement; decide

theorem ctser : Statement .ctser := by unfold Statement; decide

theorem ctdes : Statement .ctdes := by unfold Statement; decide

theorem frame : Statement .frame := by unfold Statement; decide

theorem deframe : Statement .deframe := by unfold Statement; decide

theorem collect : Statement .collect := by unfold Statement; decide

theorem concat : Statement .concat := by unfold Statement; decide

theorem cblk : Statement .cblk := by unfold Statement; decide

theorem dblk : Statement .dblk := by unfold Statement; decide

theorem comp : Statement .comp := by unfold Statement; decide

theorem decomp : Statement .decomp := by unfold Statement; decide

end Sys2Proof.Laws.TableRow
end

