-- ==== Sys2Proof/Laws/PrefixCode.lean ====
section
/-! SUPPORT. What the tables and the bit streams of the Prefix-Code Engine read back as (R41, R100 to
R103). -/

namespace Sys2Proof.Machine

/-- A table's element at a symbol. -/
@[simp] theorem tabulate_get {α : Type} (f : Byte → α) (b : Byte) :
    (tabulate f)[b.toFin] = f b := by
  simp [tabulate]

/-- `FT[b]` after `HCNT` (R160). -/
theorem countFreqs_get (d : List Byte) (b : Byte) :
    (countFreqs d)[b.toFin] = BitVec.ofNat 32 (d.count b) := tabulate_get _ _

/-- `CT[b]` of a table that assignments left. -/
theorem tableOf_code (es : List (Byte × Bits)) (b : Byte) :
    (tableOf es).code b = es.reverse.lookup b := tabulate_get _ _

/-- The numbered elements of a table are its symbols with what it holds for them. -/
theorem mem_zipIdx_table {α : Type} (t : Vector α 256) (a : α) (n : Nat) :
    (a, n) ∈ t.toList.zipIdx ↔ n < 256 ∧ a = t[(BitVec.ofNat 8 n).toFin] := by
  rw [List.mem_zipIdx_iff_getElem?, List.getElem?_eq_some_iff]
  constructor
  · rintro ⟨h, ha⟩
    have hn : n < 256 := by simpa using h
    have ha : t.toList[n] = a := ha
    exact ⟨hn, by simp [← ha, Nat.mod_eq_of_lt hn]⟩
  · rintro ⟨hn, rfl⟩
    exact ⟨by simpa using hn, by simp [Nat.mod_eq_of_lt hn]⟩

/-- The leaves are those of the symbols that occur (R161). -/
theorem mem_leavesOf (ft : FreqTable) (b : Byte) (f : Word) :
    TreeNode.leaf b f ∈ leavesOf ft ↔ f = ft[b.toFin] ∧ f ≠ 0 := by
  simp only [leavesOf, List.mem_filterMap, Prod.exists]
  constructor
  · rintro ⟨f', n, h, he⟩
    obtain ⟨hn, rfl⟩ := (mem_zipIdx_table _ _ _).mp h
    split_ifs at he with h0
    simp only [Option.some.injEq, TreeNode.leaf.injEq] at he
    obtain ⟨rfl, rfl⟩ := he
    exact ⟨rfl, h0⟩
  · rintro ⟨rfl, h0⟩
    exact ⟨ft[b.toFin], b.toNat, (mem_zipIdx_table _ _ _).mpr ⟨b.isLt, by simp⟩,
      by rw [if_neg h0]; simp⟩

/-- The entries are the present codes (R41). -/
theorem mem_entries (ct : CodeTable) (b : Byte) (c : Bits) :
    (b, c) ∈ ct.entries ↔ ct.code b = some c := by
  simp only [CodeTable.entries, List.mem_filterMap, Option.map_eq_some_iff, Prod.mk.injEq,
    CodeTable.code, Prod.exists]
  constructor
  · rintro ⟨o, n, h, c', rfl, rfl, rfl⟩
    exact ((mem_zipIdx_table _ _ _).mp h).2.symm
  · intro h
    exact ⟨some c, b.toNat, (mem_zipIdx_table _ _ _).mpr ⟨b.isLt, by simp [h]⟩, c, rfl, by simp, rfl⟩

/-- The entries stand in ascending symbol order (R103, R171). -/
theorem entries_sorted (ct : CodeTable) :
    ct.entries.Pairwise fun x y => x.1.toNat < y.1.toNat := by
  rw [CodeTable.entries, List.pairwise_filterMap, List.pairwise_iff_getElem]
  intro i j hi hj hij x hx y hy
  have hj' : j < 256 := by simpa using hj
  obtain ⟨c, -, rfl⟩ := Option.map_eq_some_iff.mp hx
  obtain ⟨d, -, rfl⟩ := Option.map_eq_some_iff.mp hy
  simp only [List.getElem_zipIdx, Nat.zero_add, BitVec.toNat_ofNat]
  omega

/-- A symbol found for a code has that code (R169). -/
theorem code_of_symbolOf {ct : CodeTable} {c : Bits} {b : Byte} (h : ct.symbolOf c = some b) :
    ct.code b = some c := by
  obtain ⟨k, hk, rfl⟩ := Option.map_eq_some_iff.mp h
  obtain ⟨hlt, hval, -⟩ := List.idxOf?_eq_some_iff.mp hk
  have hlt' : k < 256 := by simpa using hlt
  simp only [CodeTable.code]
  simpa [Nat.mod_eq_of_lt hlt'] using hval

/-- Where no symbol is found, none has the code (R169). -/
theorem symbolOf_eq_none {ct : CodeTable} {c : Bits} :
    ct.symbolOf c = none ↔ ∀ b, ct.code b ≠ some c := by
  simp only [CodeTable.symbolOf, Option.map_eq_none_iff, List.idxOf?_eq_none_iff]
  constructor
  · intro h b hb
    exact h (hb ▸ by simp [CodeTable.code])
  · intro h hm
    obtain ⟨i, hi, hv⟩ := List.getElem_of_mem hm
    have hi' : i < 256 := by simpa using hi
    exact h (BitVec.ofFin ⟨i, hi'⟩) (by simpa [CodeTable.code] using hv)

/-- `pad` is below 8 and fills the last byte (R100). -/
theorem padOf_spec (n : Nat) : padOf n < 8 ∧ (n + padOf n) % 8 = 0 := by
  simp only [padOf]; omega

/-- The length of a payload (R100). -/
theorem payloadOf_length (bits : Bits) :
    (payloadOf bits).length = 1 + (bits.length + padOf bits.length) / 8 := by
  simp only [payloadOf, List.length_cons, packBits_length, List.length_append, zeros_length]
  omega

/-- The packed bytes of a payload are its bits and the padding (R100, R101). -/
theorem unpackBits_payload (bits : Bits) :
    unpackBits (packBits (bits ++ zeros (padOf bits.length))) =
      bits ++ zeros (padOf bits.length) := by
  refine unpackBits_packBits _ ?_
  simpa using (padOf_spec bits.length).2

/-- A payload gives back its bits (R100, R169). -/
theorem payloadBits_payloadOf (bits : Bits) :
    ∃ pad packed, payloadOf bits = pad :: packed ∧ payloadBits pad packed = some bits := by
  refine ⟨_, _, rfl, ?_⟩
  have ⟨h8, hm⟩ := padOf_spec bits.length
  have hp : (BitVec.ofNat 8 (padOf bits.length)).toNat = padOf bits.length := by
    rw [BitVec.toNat_ofNat, Nat.mod_eq_of_lt]; omega
  have hl : 8 * (packBits (bits ++ zeros (padOf bits.length))).length =
      bits.length + padOf bits.length := by
    simp only [packBits_length, List.length_append, zeros_length]; omega
  simp only [payloadBits, hp, hl, unpackBits_payload]
  rw [if_neg (by omega), if_neg (by omega), Nat.add_sub_cancel]
  simp

/-- A symbol's code is read off first. -/
theorem codeBits_cons (ct : CodeTable) (b : Byte) (d : List Byte) :
    codeBits ct (b :: d) = (ct.code b).getD [] ++ codeBits ct d := rfl

theorem allCoded_iff (ct : CodeTable) (d : List Byte) :
    allCoded ct d = true ↔ ∀ b ∈ d, ct.code b ≠ none := by
  simp [allCoded, Option.isSome_iff_ne_none]

end Sys2Proof.Machine
end

