-- ==== Sys2Proof/Laws/State.lean ====
section
/-! SUPPORT. One lemma per field per named update of State, so that no proof unfolds an update. -/

namespace Sys2Proof.Machine

variable (s : State)

/-! ## enter -/

@[simp] theorem State.enter_cfg (p : Phase) : (s.enter p).cfg = s.cfg := rfl
@[simp] theorem State.enter_cmdq (p : Phase) : (s.enter p).cmdq = s.cmdq := rfl
@[simp] theorem State.enter_cur (p : Phase) : (s.enter p).cur = s.cur := rfl
@[simp] theorem State.enter_phase (p : Phase) : (s.enter p).phase = p := rfl
@[simp] theorem State.enter_err (p : Phase) : (s.enter p).err = s.err := rfl
@[simp] theorem State.enter_eoi (p : Phase) : (s.enter p).eoi = s.eoi := rfl
@[simp] theorem State.enter_eoc (p : Phase) : (s.enter p).eoc = s.eoc := rfl
@[simp] theorem State.enter_seqOvf (p : Phase) : (s.enter p).seqOvf = s.seqOvf := rfl
@[simp] theorem State.enter_errCause (p : Phase) : (s.enter p).errCause = s.errCause := rfl
@[simp] theorem State.enter_errSeq (p : Phase) : (s.enter p).errSeq = s.errSeq := rfl
@[simp] theorem State.enter_blkSize (p : Phase) : (s.enter p).blkSize = s.blkSize := rfl
@[simp] theorem State.enter_chkSize (p : Phase) : (s.enter p).chkSize = s.chkSize := rfl
@[simp] theorem State.enter_seq (p : Phase) : (s.enter p).seq = s.seq := rfl
@[simp] theorem State.enter_rseq (p : Phase) : (s.enter p).rseq = s.rseq := rfl
@[simp] theorem State.enter_d (p : Phase) : (s.enter p).d = s.d := rfl
@[simp] theorem State.enter_rt (p : Phase) : (s.enter p).rt = s.rt := rfl
@[simp] theorem State.enter_cs (p : Phase) : (s.enter p).cs = s.cs := rfl
@[simp] theorem State.enter_p (p : Phase) : (s.enter p).p = s.p := rfl
@[simp] theorem State.enter_ml (p : Phase) : (s.enter p).ml = s.ml := rfl
@[simp] theorem State.enter_ft (p : Phase) : (s.enter p).ft = s.ft := rfl
@[simp] theorem State.enter_tr (p : Phase) : (s.enter p).tr = s.tr := rfl
@[simp] theorem State.enter_ct (p : Phase) : (s.enter p).ct = s.ct := rfl
@[simp] theorem State.enter_rs (p : Phase) : (s.enter p).rs = s.rs := rfl
@[simp] theorem State.enter_inp (p : Phase) : (s.enter p).inp = s.inp := rfl
@[simp] theorem State.enter_out (p : Phase) : (s.enter p).out = s.out := rfl
@[simp] theorem State.enter_outRead (p : Phase) : (s.enter p).outRead = s.outRead := rfl
@[simp] theorem State.enter_inCnt (p : Phase) : (s.enter p).inCnt = s.inCnt := rfl
@[simp] theorem State.enter_outCnt (p : Phase) : (s.enter p).outCnt = s.outCnt := rfl

/-! ## endCommand -/

@[simp] theorem State.endCommand_cfg : (s.endCommand).cfg = s.cfg := rfl
@[simp] theorem State.endCommand_cmdq : (s.endCommand).cmdq = s.cmdq := rfl
@[simp] theorem State.endCommand_cur : (s.endCommand).cur = none := rfl
@[simp] theorem State.endCommand_phase : (s.endCommand).phase = .idle := rfl
@[simp] theorem State.endCommand_err : (s.endCommand).err = s.err := rfl
@[simp] theorem State.endCommand_eoi : (s.endCommand).eoi = s.eoi := rfl
@[simp] theorem State.endCommand_eoc : (s.endCommand).eoc = s.eoc := rfl
@[simp] theorem State.endCommand_seqOvf : (s.endCommand).seqOvf = s.seqOvf := rfl
@[simp] theorem State.endCommand_errCause : (s.endCommand).errCause = s.errCause := rfl
@[simp] theorem State.endCommand_errSeq : (s.endCommand).errSeq = s.errSeq := rfl
@[simp] theorem State.endCommand_blkSize : (s.endCommand).blkSize = s.blkSize := rfl
@[simp] theorem State.endCommand_chkSize : (s.endCommand).chkSize = s.chkSize := rfl
@[simp] theorem State.endCommand_seq : (s.endCommand).seq = s.seq := rfl
@[simp] theorem State.endCommand_rseq : (s.endCommand).rseq = s.rseq := rfl
@[simp] theorem State.endCommand_d : (s.endCommand).d = s.d := rfl
@[simp] theorem State.endCommand_rt : (s.endCommand).rt = s.rt := rfl
@[simp] theorem State.endCommand_cs : (s.endCommand).cs = s.cs := rfl
@[simp] theorem State.endCommand_p : (s.endCommand).p = s.p := rfl
@[simp] theorem State.endCommand_ml : (s.endCommand).ml = s.ml := rfl
@[simp] theorem State.endCommand_ft : (s.endCommand).ft = s.ft := rfl
@[simp] theorem State.endCommand_tr : (s.endCommand).tr = s.tr := rfl
@[simp] theorem State.endCommand_ct : (s.endCommand).ct = s.ct := rfl
@[simp] theorem State.endCommand_rs : (s.endCommand).rs = s.rs := rfl
@[simp] theorem State.endCommand_inp : (s.endCommand).inp = s.inp := rfl
@[simp] theorem State.endCommand_out : (s.endCommand).out = s.out := rfl
@[simp] theorem State.endCommand_outRead : (s.endCommand).outRead = s.outRead := rfl
@[simp] theorem State.endCommand_inCnt : (s.endCommand).inCnt = s.inCnt := rfl
@[simp] theorem State.endCommand_outCnt : (s.endCommand).outCnt = s.outCnt := rfl

/-! ## holdAt -/

@[simp] theorem State.holdAt_cfg (i : Instr) (p : Phase) : (s.holdAt i p).cfg = s.cfg := rfl
@[simp] theorem State.holdAt_cmdq (i : Instr) (p : Phase) : (s.holdAt i p).cmdq = s.cmdq := rfl
@[simp] theorem State.holdAt_cur (i : Instr) (p : Phase) : (s.holdAt i p).cur = some i := rfl
@[simp] theorem State.holdAt_phase (i : Instr) (p : Phase) : (s.holdAt i p).phase = p := rfl
@[simp] theorem State.holdAt_err (i : Instr) (p : Phase) : (s.holdAt i p).err = s.err := rfl
@[simp] theorem State.holdAt_eoi (i : Instr) (p : Phase) : (s.holdAt i p).eoi = s.eoi := rfl
@[simp] theorem State.holdAt_eoc (i : Instr) (p : Phase) : (s.holdAt i p).eoc = s.eoc := rfl
@[simp] theorem State.holdAt_seqOvf (i : Instr) (p : Phase) :
    (s.holdAt i p).seqOvf = s.seqOvf := rfl
@[simp] theorem State.holdAt_errCause (i : Instr) (p : Phase) :
    (s.holdAt i p).errCause = s.errCause := rfl
@[simp] theorem State.holdAt_errSeq (i : Instr) (p : Phase) :
    (s.holdAt i p).errSeq = s.errSeq := rfl
@[simp] theorem State.holdAt_blkSize (i : Instr) (p : Phase) :
    (s.holdAt i p).blkSize = s.blkSize := rfl
@[simp] theorem State.holdAt_chkSize (i : Instr) (p : Phase) :
    (s.holdAt i p).chkSize = s.chkSize := rfl
@[simp] theorem State.holdAt_seq (i : Instr) (p : Phase) : (s.holdAt i p).seq = s.seq := rfl
@[simp] theorem State.holdAt_rseq (i : Instr) (p : Phase) : (s.holdAt i p).rseq = s.rseq := rfl
@[simp] theorem State.holdAt_d (i : Instr) (p : Phase) : (s.holdAt i p).d = s.d := rfl
@[simp] theorem State.holdAt_rt (i : Instr) (p : Phase) : (s.holdAt i p).rt = s.rt := rfl
@[simp] theorem State.holdAt_cs (i : Instr) (p : Phase) : (s.holdAt i p).cs = s.cs := rfl
@[simp] theorem State.holdAt_p (i : Instr) (p : Phase) : (s.holdAt i p).p = s.p := rfl
@[simp] theorem State.holdAt_ml (i : Instr) (p : Phase) : (s.holdAt i p).ml = s.ml := rfl
@[simp] theorem State.holdAt_ft (i : Instr) (p : Phase) : (s.holdAt i p).ft = s.ft := rfl
@[simp] theorem State.holdAt_tr (i : Instr) (p : Phase) : (s.holdAt i p).tr = s.tr := rfl
@[simp] theorem State.holdAt_ct (i : Instr) (p : Phase) : (s.holdAt i p).ct = s.ct := rfl
@[simp] theorem State.holdAt_rs (i : Instr) (p : Phase) : (s.holdAt i p).rs = s.rs := rfl
@[simp] theorem State.holdAt_inp (i : Instr) (p : Phase) : (s.holdAt i p).inp = s.inp := rfl
@[simp] theorem State.holdAt_out (i : Instr) (p : Phase) : (s.holdAt i p).out = s.out := rfl
@[simp] theorem State.holdAt_outRead (i : Instr) (p : Phase) :
    (s.holdAt i p).outRead = s.outRead := rfl
@[simp] theorem State.holdAt_inCnt (i : Instr) (p : Phase) : (s.holdAt i p).inCnt = s.inCnt := rfl
@[simp] theorem State.holdAt_outCnt (i : Instr) (p : Phase) :
    (s.holdAt i p).outCnt = s.outCnt := rfl

/-! ## fetch -/

@[simp] theorem State.fetch_cfg (rest : List Word) (i : Instr) : (s.fetch rest i).cfg = s.cfg := rfl
@[simp] theorem State.fetch_cmdq (rest : List Word) (i : Instr) :
    (s.fetch rest i).cmdq = rest := rfl
@[simp] theorem State.fetch_cur (rest : List Word) (i : Instr) :
    (s.fetch rest i).cur = some i := rfl
@[simp] theorem State.fetch_phase (rest : List Word) (i : Instr) :
    (s.fetch rest i).phase = .idle := rfl
@[simp] theorem State.fetch_err (rest : List Word) (i : Instr) : (s.fetch rest i).err = s.err := rfl
@[simp] theorem State.fetch_eoi (rest : List Word) (i : Instr) : (s.fetch rest i).eoi = s.eoi := rfl
@[simp] theorem State.fetch_eoc (rest : List Word) (i : Instr) : (s.fetch rest i).eoc = s.eoc := rfl
@[simp] theorem State.fetch_seqOvf (rest : List Word) (i : Instr) :
    (s.fetch rest i).seqOvf = s.seqOvf := rfl
@[simp] theorem State.fetch_errCause (rest : List Word) (i : Instr) :
    (s.fetch rest i).errCause = s.errCause := rfl
@[simp] theorem State.fetch_errSeq (rest : List Word) (i : Instr) :
    (s.fetch rest i).errSeq = s.errSeq := rfl
@[simp] theorem State.fetch_blkSize (rest : List Word) (i : Instr) :
    (s.fetch rest i).blkSize = s.blkSize := rfl
@[simp] theorem State.fetch_chkSize (rest : List Word) (i : Instr) :
    (s.fetch rest i).chkSize = s.chkSize := rfl
@[simp] theorem State.fetch_seq (rest : List Word) (i : Instr) : (s.fetch rest i).seq = s.seq := rfl
@[simp] theorem State.fetch_rseq (rest : List Word) (i : Instr) :
    (s.fetch rest i).rseq = s.rseq := rfl
@[simp] theorem State.fetch_d (rest : List Word) (i : Instr) : (s.fetch rest i).d = s.d := rfl
@[simp] theorem State.fetch_rt (rest : List Word) (i : Instr) : (s.fetch rest i).rt = s.rt := rfl
@[simp] theorem State.fetch_cs (rest : List Word) (i : Instr) : (s.fetch rest i).cs = s.cs := rfl
@[simp] theorem State.fetch_p (rest : List Word) (i : Instr) : (s.fetch rest i).p = s.p := rfl
@[simp] theorem State.fetch_ml (rest : List Word) (i : Instr) : (s.fetch rest i).ml = s.ml := rfl
@[simp] theorem State.fetch_ft (rest : List Word) (i : Instr) : (s.fetch rest i).ft = s.ft := rfl
@[simp] theorem State.fetch_tr (rest : List Word) (i : Instr) : (s.fetch rest i).tr = s.tr := rfl
@[simp] theorem State.fetch_ct (rest : List Word) (i : Instr) : (s.fetch rest i).ct = s.ct := rfl
@[simp] theorem State.fetch_rs (rest : List Word) (i : Instr) : (s.fetch rest i).rs = s.rs := rfl
@[simp] theorem State.fetch_inp (rest : List Word) (i : Instr) : (s.fetch rest i).inp = s.inp := rfl
@[simp] theorem State.fetch_out (rest : List Word) (i : Instr) : (s.fetch rest i).out = s.out := rfl
@[simp] theorem State.fetch_outRead (rest : List Word) (i : Instr) :
    (s.fetch rest i).outRead = s.outRead := rfl
@[simp] theorem State.fetch_inCnt (rest : List Word) (i : Instr) :
    (s.fetch rest i).inCnt = s.inCnt := rfl
@[simp] theorem State.fetch_outCnt (rest : List Word) (i : Instr) :
    (s.fetch rest i).outCnt = s.outCnt := rfl

/-! ## raise -/

@[simp] theorem State.raise_cfg (e : ErrorKind) (b : BitVec 4) (q : Option Word) (p : Phase) :
    (s.raise e b q p).cfg = s.cfg := rfl
@[simp] theorem State.raise_cmdq (e : ErrorKind) (b : BitVec 4) (q : Option Word) (p : Phase) :
    (s.raise e b q p).cmdq = s.cmdq := rfl
@[simp] theorem State.raise_cur (e : ErrorKind) (b : BitVec 4) (q : Option Word) (p : Phase) :
    (s.raise e b q p).cur = none := rfl
@[simp] theorem State.raise_phase (e : ErrorKind) (b : BitVec 4) (q : Option Word) (p : Phase) :
    (s.raise e b q p).phase = p := rfl
@[simp] theorem State.raise_err (e : ErrorKind) (b : BitVec 4) (q : Option Word) (p : Phase) :
    (s.raise e b q p).err = true := rfl
@[simp] theorem State.raise_eoi (e : ErrorKind) (b : BitVec 4) (q : Option Word) (p : Phase) :
    (s.raise e b q p).eoi = s.eoi := rfl
@[simp] theorem State.raise_eoc (e : ErrorKind) (b : BitVec 4) (q : Option Word) (p : Phase) :
    (s.raise e b q p).eoc = s.eoc := rfl
@[simp] theorem State.raise_seqOvf (e : ErrorKind) (b : BitVec 4) (q : Option Word) (p : Phase) :
    (s.raise e b q p).seqOvf = s.seqOvf := rfl
@[simp] theorem State.raise_errCause (e : ErrorKind) (b : BitVec 4) (q : Option Word) (p : Phase) :
    (s.raise e b q p).errCause = errCauseWord e b q.isSome := rfl
@[simp] theorem State.raise_errSeq (e : ErrorKind) (b : BitVec 4) (q : Option Word) (p : Phase) :
    (s.raise e b q p).errSeq = q.getD 0 := rfl
@[simp] theorem State.raise_blkSize (e : ErrorKind) (b : BitVec 4) (q : Option Word) (p : Phase) :
    (s.raise e b q p).blkSize = s.blkSize := rfl
@[simp] theorem State.raise_chkSize (e : ErrorKind) (b : BitVec 4) (q : Option Word) (p : Phase) :
    (s.raise e b q p).chkSize = s.chkSize := rfl
@[simp] theorem State.raise_seq (e : ErrorKind) (b : BitVec 4) (q : Option Word) (p : Phase) :
    (s.raise e b q p).seq = s.seq := rfl
@[simp] theorem State.raise_rseq (e : ErrorKind) (b : BitVec 4) (q : Option Word) (p : Phase) :
    (s.raise e b q p).rseq = s.rseq := rfl
@[simp] theorem State.raise_d (e : ErrorKind) (b : BitVec 4) (q : Option Word) (p : Phase) :
    (s.raise e b q p).d = s.d := rfl
@[simp] theorem State.raise_rt (e : ErrorKind) (b : BitVec 4) (q : Option Word) (p : Phase) :
    (s.raise e b q p).rt = s.rt := rfl
@[simp] theorem State.raise_cs (e : ErrorKind) (b : BitVec 4) (q : Option Word) (p : Phase) :
    (s.raise e b q p).cs = s.cs := rfl
@[simp] theorem State.raise_p (e : ErrorKind) (b : BitVec 4) (q : Option Word) (p : Phase) :
    (s.raise e b q p).p = s.p := rfl
@[simp] theorem State.raise_ml (e : ErrorKind) (b : BitVec 4) (q : Option Word) (p : Phase) :
    (s.raise e b q p).ml = s.ml := rfl
@[simp] theorem State.raise_ft (e : ErrorKind) (b : BitVec 4) (q : Option Word) (p : Phase) :
    (s.raise e b q p).ft = s.ft := rfl
@[simp] theorem State.raise_tr (e : ErrorKind) (b : BitVec 4) (q : Option Word) (p : Phase) :
    (s.raise e b q p).tr = s.tr := rfl
@[simp] theorem State.raise_ct (e : ErrorKind) (b : BitVec 4) (q : Option Word) (p : Phase) :
    (s.raise e b q p).ct = s.ct := rfl
@[simp] theorem State.raise_rs (e : ErrorKind) (b : BitVec 4) (q : Option Word) (p : Phase) :
    (s.raise e b q p).rs = s.rs := rfl
@[simp] theorem State.raise_inp (e : ErrorKind) (b : BitVec 4) (q : Option Word) (p : Phase) :
    (s.raise e b q p).inp = s.inp := rfl
@[simp] theorem State.raise_out (e : ErrorKind) (b : BitVec 4) (q : Option Word) (p : Phase) :
    (s.raise e b q p).out = s.out := rfl
@[simp] theorem State.raise_outRead (e : ErrorKind) (b : BitVec 4) (q : Option Word) (p : Phase) :
    (s.raise e b q p).outRead = s.outRead := rfl
@[simp] theorem State.raise_inCnt (e : ErrorKind) (b : BitVec 4) (q : Option Word) (p : Phase) :
    (s.raise e b q p).inCnt = s.inCnt := rfl
@[simp] theorem State.raise_outCnt (e : ErrorKind) (b : BitVec 4) (q : Option Word) (p : Phase) :
    (s.raise e b q p).outCnt = s.outCnt := rfl

/-! ## inPop -/

@[simp] theorem State.inPop_cfg (n : Nat) : (s.inPop n).cfg = s.cfg := rfl
@[simp] theorem State.inPop_cmdq (n : Nat) : (s.inPop n).cmdq = s.cmdq := rfl
@[simp] theorem State.inPop_cur (n : Nat) : (s.inPop n).cur = s.cur := rfl
@[simp] theorem State.inPop_phase (n : Nat) : (s.inPop n).phase = s.phase := rfl
@[simp] theorem State.inPop_err (n : Nat) : (s.inPop n).err = s.err := rfl
@[simp] theorem State.inPop_eoi (n : Nat) : (s.inPop n).eoi = s.eoi := rfl
@[simp] theorem State.inPop_eoc (n : Nat) : (s.inPop n).eoc = s.eoc := rfl
@[simp] theorem State.inPop_seqOvf (n : Nat) : (s.inPop n).seqOvf = s.seqOvf := rfl
@[simp] theorem State.inPop_errCause (n : Nat) : (s.inPop n).errCause = s.errCause := rfl
@[simp] theorem State.inPop_errSeq (n : Nat) : (s.inPop n).errSeq = s.errSeq := rfl
@[simp] theorem State.inPop_blkSize (n : Nat) : (s.inPop n).blkSize = s.blkSize := rfl
@[simp] theorem State.inPop_chkSize (n : Nat) : (s.inPop n).chkSize = s.chkSize := rfl
@[simp] theorem State.inPop_seq (n : Nat) : (s.inPop n).seq = s.seq := rfl
@[simp] theorem State.inPop_rseq (n : Nat) : (s.inPop n).rseq = s.rseq := rfl
@[simp] theorem State.inPop_d (n : Nat) : (s.inPop n).d = s.d := rfl
@[simp] theorem State.inPop_rt (n : Nat) : (s.inPop n).rt = s.rt := rfl
@[simp] theorem State.inPop_cs (n : Nat) : (s.inPop n).cs = s.cs := rfl
@[simp] theorem State.inPop_p (n : Nat) : (s.inPop n).p = s.p := rfl
@[simp] theorem State.inPop_ml (n : Nat) : (s.inPop n).ml = s.ml := rfl
@[simp] theorem State.inPop_ft (n : Nat) : (s.inPop n).ft = s.ft := rfl
@[simp] theorem State.inPop_tr (n : Nat) : (s.inPop n).tr = s.tr := rfl
@[simp] theorem State.inPop_ct (n : Nat) : (s.inPop n).ct = s.ct := rfl
@[simp] theorem State.inPop_rs (n : Nat) : (s.inPop n).rs = s.rs := rfl
@[simp] theorem State.inPop_inp (n : Nat) : (s.inPop n).inp = s.inp.drop n := rfl
@[simp] theorem State.inPop_out (n : Nat) : (s.inPop n).out = s.out := rfl
@[simp] theorem State.inPop_outRead (n : Nat) : (s.inPop n).outRead = s.outRead := rfl
@[simp] theorem State.inPop_inCnt (n : Nat) : (s.inPop n).inCnt = s.inCnt + BitVec.ofNat 32 n := rfl
@[simp] theorem State.inPop_outCnt (n : Nat) : (s.inPop n).outCnt = s.outCnt := rfl

/-! ## outPush -/

@[simp] theorem State.outPush_cfg (bs : List Byte) : (s.outPush bs).cfg = s.cfg := rfl
@[simp] theorem State.outPush_cmdq (bs : List Byte) : (s.outPush bs).cmdq = s.cmdq := rfl
@[simp] theorem State.outPush_cur (bs : List Byte) : (s.outPush bs).cur = s.cur := rfl
@[simp] theorem State.outPush_phase (bs : List Byte) : (s.outPush bs).phase = s.phase := rfl
@[simp] theorem State.outPush_err (bs : List Byte) : (s.outPush bs).err = s.err := rfl
@[simp] theorem State.outPush_eoi (bs : List Byte) : (s.outPush bs).eoi = s.eoi := rfl
@[simp] theorem State.outPush_eoc (bs : List Byte) : (s.outPush bs).eoc = s.eoc := rfl
@[simp] theorem State.outPush_seqOvf (bs : List Byte) : (s.outPush bs).seqOvf = s.seqOvf := rfl
@[simp] theorem State.outPush_errCause (bs : List Byte) :
    (s.outPush bs).errCause = s.errCause := rfl
@[simp] theorem State.outPush_errSeq (bs : List Byte) : (s.outPush bs).errSeq = s.errSeq := rfl
@[simp] theorem State.outPush_blkSize (bs : List Byte) : (s.outPush bs).blkSize = s.blkSize := rfl
@[simp] theorem State.outPush_chkSize (bs : List Byte) : (s.outPush bs).chkSize = s.chkSize := rfl
@[simp] theorem State.outPush_seq (bs : List Byte) : (s.outPush bs).seq = s.seq := rfl
@[simp] theorem State.outPush_rseq (bs : List Byte) : (s.outPush bs).rseq = s.rseq := rfl
@[simp] theorem State.outPush_d (bs : List Byte) : (s.outPush bs).d = s.d := rfl
@[simp] theorem State.outPush_rt (bs : List Byte) : (s.outPush bs).rt = s.rt := rfl
@[simp] theorem State.outPush_cs (bs : List Byte) : (s.outPush bs).cs = s.cs := rfl
@[simp] theorem State.outPush_p (bs : List Byte) : (s.outPush bs).p = s.p := rfl
@[simp] theorem State.outPush_ml (bs : List Byte) : (s.outPush bs).ml = s.ml := rfl
@[simp] theorem State.outPush_ft (bs : List Byte) : (s.outPush bs).ft = s.ft := rfl
@[simp] theorem State.outPush_tr (bs : List Byte) : (s.outPush bs).tr = s.tr := rfl
@[simp] theorem State.outPush_ct (bs : List Byte) : (s.outPush bs).ct = s.ct := rfl
@[simp] theorem State.outPush_rs (bs : List Byte) : (s.outPush bs).rs = s.rs := rfl
@[simp] theorem State.outPush_inp (bs : List Byte) : (s.outPush bs).inp = s.inp := rfl
@[simp] theorem State.outPush_out (bs : List Byte) : (s.outPush bs).out = s.out ++ bs := rfl
@[simp] theorem State.outPush_outRead (bs : List Byte) : (s.outPush bs).outRead = s.outRead := rfl
@[simp] theorem State.outPush_inCnt (bs : List Byte) : (s.outPush bs).inCnt = s.inCnt := rfl
@[simp] theorem State.outPush_outCnt (bs : List Byte) :
    (s.outPush bs).outCnt = s.outCnt + BitVec.ofNat 32 bs.length := rfl

/-! ## softReset -/

@[simp] theorem State.softReset_cfg : (s.softReset).cfg = s.cfg := rfl
@[simp] theorem State.softReset_cmdq : (s.softReset).cmdq = s.cmdq := rfl
@[simp] theorem State.softReset_cur : (s.softReset).cur = none := rfl
@[simp] theorem State.softReset_phase : (s.softReset).phase = .idle := rfl
@[simp] theorem State.softReset_err : (s.softReset).err = false := rfl
@[simp] theorem State.softReset_eoi : (s.softReset).eoi = false := rfl
@[simp] theorem State.softReset_eoc : (s.softReset).eoc = false := rfl
@[simp] theorem State.softReset_seqOvf : (s.softReset).seqOvf = false := rfl
@[simp] theorem State.softReset_errCause : (s.softReset).errCause = 0 := rfl
@[simp] theorem State.softReset_errSeq : (s.softReset).errSeq = 0 := rfl
@[simp] theorem State.softReset_blkSize :
    (s.softReset).blkSize = BitVec.ofNat 32 s.cfg.blockSizeReset := rfl
@[simp] theorem State.softReset_chkSize :
    (s.softReset).chkSize = BitVec.ofNat 32 s.cfg.chunkSizeReset := rfl
@[simp] theorem State.softReset_seq : (s.softReset).seq = 0 := rfl
@[simp] theorem State.softReset_rseq : (s.softReset).rseq = 0 := rfl
@[simp] theorem State.softReset_d : (s.softReset).d = [] := rfl
@[simp] theorem State.softReset_rt : (s.softReset).rt = [] := rfl
@[simp] theorem State.softReset_cs : (s.softReset).cs = [] := rfl
@[simp] theorem State.softReset_p : (s.softReset).p = [] := rfl
@[simp] theorem State.softReset_ml : (s.softReset).ml = identityList := rfl
@[simp] theorem State.softReset_ft : (s.softReset).ft = Vector.replicate 256 0 := rfl
@[simp] theorem State.softReset_tr : (s.softReset).tr = [] := rfl
@[simp] theorem State.softReset_ct : (s.softReset).ct = Vector.replicate 256 none := rfl
@[simp] theorem State.softReset_rs : (s.softReset).rs = [] := rfl
@[simp] theorem State.softReset_inp : (s.softReset).inp = [] := rfl
@[simp] theorem State.softReset_out : (s.softReset).out = s.out := rfl
@[simp] theorem State.softReset_outRead : (s.softReset).outRead = s.outRead := rfl
@[simp] theorem State.softReset_inCnt : (s.softReset).inCnt = 0 := rfl
@[simp] theorem State.softReset_outCnt : (s.softReset).outCnt = s.outCnt := rfl

/-! ## withFetchWord -/

@[simp] theorem State.withFetchWord_cfg (n w : Nat) : (s.withFetchWord n w).cfg = s.cfg := rfl
@[simp] theorem State.withFetchWord_cmdq (n w : Nat) :
    (s.withFetchWord n w).cmdq = BitVec.ofNat 32 (w % 2 ^ n) :: s.cmdq := rfl
@[simp] theorem State.withFetchWord_cur (n w : Nat) : (s.withFetchWord n w).cur = none := rfl
@[simp] theorem State.withFetchWord_phase (n w : Nat) : (s.withFetchWord n w).phase = .idle := rfl
@[simp] theorem State.withFetchWord_err (n w : Nat) : (s.withFetchWord n w).err = false := rfl
@[simp] theorem State.withFetchWord_eoi (n w : Nat) : (s.withFetchWord n w).eoi = s.eoi := rfl
@[simp] theorem State.withFetchWord_eoc (n w : Nat) : (s.withFetchWord n w).eoc = s.eoc := rfl
@[simp] theorem State.withFetchWord_seqOvf (n w : Nat) :
    (s.withFetchWord n w).seqOvf = s.seqOvf := rfl
@[simp] theorem State.withFetchWord_errCause (n w : Nat) :
    (s.withFetchWord n w).errCause = s.errCause := rfl
@[simp] theorem State.withFetchWord_errSeq (n w : Nat) :
    (s.withFetchWord n w).errSeq = s.errSeq := rfl
@[simp] theorem State.withFetchWord_blkSize (n w : Nat) :
    (s.withFetchWord n w).blkSize = s.blkSize := rfl
@[simp] theorem State.withFetchWord_chkSize (n w : Nat) :
    (s.withFetchWord n w).chkSize = s.chkSize := rfl
@[simp] theorem State.withFetchWord_seq (n w : Nat) : (s.withFetchWord n w).seq = s.seq := rfl
@[simp] theorem State.withFetchWord_rseq (n w : Nat) : (s.withFetchWord n w).rseq = s.rseq := rfl
@[simp] theorem State.withFetchWord_d (n w : Nat) : (s.withFetchWord n w).d = s.d := rfl
@[simp] theorem State.withFetchWord_rt (n w : Nat) : (s.withFetchWord n w).rt = s.rt := rfl
@[simp] theorem State.withFetchWord_cs (n w : Nat) : (s.withFetchWord n w).cs = s.cs := rfl
@[simp] theorem State.withFetchWord_p (n w : Nat) : (s.withFetchWord n w).p = s.p := rfl
@[simp] theorem State.withFetchWord_ml (n w : Nat) : (s.withFetchWord n w).ml = s.ml := rfl
@[simp] theorem State.withFetchWord_ft (n w : Nat) : (s.withFetchWord n w).ft = s.ft := rfl
@[simp] theorem State.withFetchWord_tr (n w : Nat) : (s.withFetchWord n w).tr = s.tr := rfl
@[simp] theorem State.withFetchWord_ct (n w : Nat) : (s.withFetchWord n w).ct = s.ct := rfl
@[simp] theorem State.withFetchWord_rs (n w : Nat) : (s.withFetchWord n w).rs = s.rs := rfl
@[simp] theorem State.withFetchWord_inp (n w : Nat) : (s.withFetchWord n w).inp = s.inp := rfl
@[simp] theorem State.withFetchWord_out (n w : Nat) : (s.withFetchWord n w).out = s.out := rfl
@[simp] theorem State.withFetchWord_outRead (n w : Nat) :
    (s.withFetchWord n w).outRead = s.outRead := rfl
@[simp] theorem State.withFetchWord_inCnt (n w : Nat) : (s.withFetchWord n w).inCnt = s.inCnt := rfl
@[simp] theorem State.withFetchWord_outCnt (n w : Nat) :
    (s.withFetchWord n w).outCnt = s.outCnt := rfl

end Sys2Proof.Machine
end

