-- ==== Sys2Proof/Laws/Stages.lean ====
section
/-! SUPPORT. What every shared operation and every stage can do, once each: the provers cite these and
unfold no stage. -/

namespace Sys2Proof.Machine

/-! ## The ends of commands -/

@[simp] theorem andThen_ok (s : State) (f : State → StageEnd) :
    (StageEnd.ok s).andThen f = f s := rfl

@[simp] theorem andThen_raised (s : State) (f : State → StageEnd) :
    (StageEnd.raised s).andThen f = .raised s := rfl

@[simp] theorem andThen_held (p : Phase) (f : State → StageEnd) :
    (StageEnd.held p).andThen f = .held p := rfl

@[simp] theorem finish_ok (i : Instr) (s t : State) : finish i s (.ok t) = .next t.endCommand := rfl

@[simp] theorem finish_raised (i : Instr) (s t : State) : finish i s (.raised t) = .next t := rfl

@[simp] theorem finish_held (i : Instr) (s : State) (p : Phase) :
    finish i s (.held p) = .next (s.holdAt i p) := rfl

@[simp] theorem finishPass_ok (i : Instr) (p : Phase) (s t : State) :
    finishPass i p s (.ok t) = .next (t.holdAt i p) := rfl

@[simp] theorem finishPass_raised (i : Instr) (p : Phase) (s t : State) :
    finishPass i p s (.raised t) = .next t := rfl

@[simp] theorem finishPass_held (i : Instr) (p q : Phase) (s : State) :
    finishPass i p s (.held q) = .next (s.holdAt i q) := rfl

/-- A command that ends: with its stages' state and nothing in execution, with an error, or waiting. -/
theorem finish_cases (i : Instr) (s : State) (r : StageEnd) :
    (∃ t, r = .ok t ∧ finish i s r = .next t.endCommand) ∨
    (∃ t, r = .raised t ∧ finish i s r = .next t) ∨
    (∃ p, r = .held p ∧ finish i s r = .next (s.holdAt i p)) := by
  cases r with
  | ok t => exact .inl ⟨t, rfl, rfl⟩
  | raised t => exact .inr (.inl ⟨t, rfl, rfl⟩)
  | held p => exact .inr (.inr ⟨p, rfl, rfl⟩)

theorem finishPass_cases (i : Instr) (p : Phase) (s : State) (r : StageEnd) :
    (∃ t, r = .ok t ∧ finishPass i p s r = .next (t.holdAt i p)) ∨
    (∃ t, r = .raised t ∧ finishPass i p s r = .next t) ∨
    (∃ q, r = .held q ∧ finishPass i p s r = .next (s.holdAt i q)) := by
  cases r with
  | ok t => exact .inl ⟨t, rfl, rfl⟩
  | raised t => exact .inr (.inl ⟨t, rfl, rfl⟩)
  | held q => exact .inr (.inr ⟨q, rfl, rfl⟩)

/-- A composition ends well exactly when its first part does and then its second. -/
theorem andThen_eq_ok {r : StageEnd} {f : State → StageEnd} {t : State} :
    r.andThen f = .ok t ↔ ∃ s, r = .ok s ∧ f s = .ok t := by
  cases r <;> simp [StageEnd.andThen]

/-- A composition raises where its first part raises, or, that having ended well, its second. -/
theorem andThen_eq_raised {r : StageEnd} {f : State → StageEnd} {t : State} :
    r.andThen f = .raised t ↔ r = .raised t ∨ ∃ s, r = .ok s ∧ f s = .raised t := by
  cases r <;> simp [StageEnd.andThen]

theorem andThen_eq_held {r : StageEnd} {f : State → StageEnd} {p : Phase} :
    r.andThen f = .held p ↔ r = .held p ∨ ∃ s, r = .ok s ∧ f s = .held p := by
  cases r <;> simp [StageEnd.andThen]

/-! ## The stages -/

/-- R200: the enabling condition of `LDBLK` in the spec's words. -/
theorem blockReady_iff (s : State) :
    blockReady s = true ↔ s.blkSize.toNat ≤ s.inp.length ∨ s.eoi = true := by
  rw [blockReady, Bool.or_eq_true, decide_eq_true_iff, State.inAvail]

/-- R200: `LDBLK` takes a Block or waits. -/
theorem stageLdblk_cases (s : State) :
    (blockReady s = true ∧ stageLdblk s =
      .ok { s with
        d := s.inp.take (min s.blkSize.toNat s.inp.length)
        inp := s.inp.drop (min s.blkSize.toNat s.inp.length)
        inCnt := s.inCnt + BitVec.ofNat 32 (min s.blkSize.toNat s.inp.length)
        phase := .split }) ∨
    (blockReady s = false ∧ stageLdblk s = .held .split) := by
  cases h : blockReady s with
  | true => exact .inl ⟨rfl, by simp only [stageLdblk, h]; rfl⟩
  | false => exact .inr ⟨rfl, by simp [stageLdblk, h]⟩

/-- R201. -/
theorem stageStd_eq (s : State) : stageStd s = .ok ((s.outPush s.d).enter .concat) := rfl

/-- R133: `ROT` rotates every Chunk, or there are too many. -/
theorem stageRot_cases (s : State) :
    (nch s.d.length s.chkSize.toNat ≤ s.cfg.rtcap ∧ stageRot s =
      .ok { s with
        rt := (rotateChunks s.d s.chkSize.toNat).map rowWord
        d := (rotateChunks s.d s.chkSize.toNat).flatMap Prod.snd
        phase := .rotate }) ∨
    (s.cfg.rtcap < nch s.d.length s.chkSize.toNat ∧
      stageRot s = .raised (s.raise .capacityExceeded 0 (some s.seq) .rotate)) := by
  by_cases h : s.cfg.rtcap < nch s.d.length s.chkSize.toNat
  · exact .inr ⟨h, by simp [stageRot, h]⟩
  · exact .inl ⟨by omega, by simp [stageRot, h, State.enter]⟩

/-- R135: `UNROT` inverts every Chunk, or the rotation table does not fit. -/
theorem stageUnrot_cases (s : State) :
    (rtFits s.rt s.d.length s.chkSize.toNat = true ∧ stageUnrot s =
      .ok { s with d := unrotateChunks s.rt s.d s.chkSize.toNat, phase := .unrotate }) ∨
    (rtFits s.rt s.d.length s.chkSize.toNat = false ∧
      stageUnrot s = .raised (s.raise .malformedContainer 4 (some s.rseq) .unrotate)) := by
  cases h : rtFits s.rt s.d.length s.chkSize.toNat with
  | true => exact .inl ⟨rfl, by simp [stageUnrot, h, State.enter]⟩
  | false => exact .inr ⟨rfl, by simp [stageUnrot, h]⟩

/-- R167: `HENC` on an empty `D`, on a byte without a code, on too long a payload, and else. -/
theorem stageHenc_cases (s : State) :
    (s.d = [] ∧ stageHenc s = .ok { s with p := [], phase := .encode }) ∨
    (s.d ≠ [] ∧ allCoded s.ct s.d = false ∧
      stageHenc s = .raised (s.raise .codeTableMismatch 0 (some s.seq) .encode)) ∨
    (s.d ≠ [] ∧ allCoded s.ct s.d = true ∧
      s.cfg.pcap < (payloadOf (codeBits s.ct s.d)).length ∧
      stageHenc s = .raised (s.raise .capacityExceeded 0 (some s.seq) .encode)) ∨
    (s.d ≠ [] ∧ allCoded s.ct s.d = true ∧
      (payloadOf (codeBits s.ct s.d)).length ≤ s.cfg.pcap ∧
      stageHenc s = .ok { s with p := payloadOf (codeBits s.ct s.d), phase := .encode }) := by
  by_cases hd : s.d = []
  · exact .inl ⟨hd, by simp [stageHenc, hd, State.enter]⟩
  · cases ha : allCoded s.ct s.d with
    | false => exact .inr (.inl ⟨hd, rfl, by simp [stageHenc, hd, ha]⟩)
    | true =>
      by_cases hp : s.cfg.pcap < (payloadOf (codeBits s.ct s.d)).length
      · exact .inr (.inr (.inl ⟨hd, rfl, hp, by simp [stageHenc, hd, ha, hp]⟩))
      · exact .inr (.inr (.inr ⟨hd, rfl, by omega,
          by simp [stageHenc, hd, ha, hp, State.enter]⟩))

/-- R169, R170: `HDEC` writes `D`, finds the payload bad, or emits more than `D` holds. -/
theorem stageHdec_cases (s : State) :
    (∃ out, stageHdec s = .ok { s with d := out, phase := .decode } ∧
      ((s.p = [] ∧ out = []) ∨ ∃ pad packed bits, s.p = pad :: packed ∧
        payloadBits pad packed = some bits ∧
        matchBits s.ct s.cfg.dcap bits [] [] = .done out [])) ∨
    (stageHdec s = .raised (s.raise .malformedContainer 3 (some s.rseq) .decode) ∧
      ∃ pad packed, s.p = pad :: packed ∧ (payloadBits pad packed = none ∨
        ∃ bits out b cur, payloadBits pad packed = some bits ∧
          matchBits s.ct s.cfg.dcap bits [] [] = .done out (b :: cur))) ∨
    (stageHdec s = .raised (s.raise .capacityExceeded 0 (some s.rseq) .decode) ∧
      ∃ pad packed bits, s.p = pad :: packed ∧ payloadBits pad packed = some bits ∧
        matchBits s.ct s.cfg.dcap bits [] [] = .overflow) := by
  unfold stageHdec
  cases hp : s.p with
  | nil => exact .inl ⟨[], rfl, .inl ⟨rfl, rfl⟩⟩
  | cons pad packed =>
    simp only
    cases hb : payloadBits pad packed with
    | none => exact .inr (.inl ⟨rfl, pad, packed, rfl, .inl hb⟩)
    | some bits =>
      simp only
      cases hm : matchBits s.ct s.cfg.dcap bits [] [] with
      | overflow => exact .inr (.inr ⟨rfl, pad, packed, bits, rfl, hb, hm⟩)
      | done out cur =>
        cases cur with
        | nil => exact .inl ⟨out, rfl, .inr ⟨pad, packed, bits, rfl, hb, hm⟩⟩
        | cons b cur =>
          exact .inr (.inl ⟨rfl, pad, packed, rfl, .inr ⟨bits, out, b, cur, hb, hm⟩⟩)

/-- R172: `CTDES` holds the table the region spells, or the region is bad. -/
theorem stageCtdes_cases (s : State) :
    (∃ t, deserializeTable s.cs = some t ∧ stageCtdes s = .ok { s with ct := t, phase := .decode }) ∨
    (deserializeTable s.cs = none ∧
      stageCtdes s = .raised (s.raise .malformedContainer 2 (some s.rseq) .decode)) := by
  unfold stageCtdes
  cases h : deserializeTable s.cs with
  | some t => exact .inl ⟨t, rfl, rfl⟩
  | none => exact .inr ⟨rfl, rfl⟩

/-- R30, R202: the counting of a record in one update. -/
theorem countRecord_eq (s : State) : s.countRecord =
    { s with
      seq := if s.seq = 0xFFFFFFFF#32 then 0 else s.seq + 1
      seqOvf := s.seqOvf || decide (s.seq = 0xFFFFFFFF#32) } := by
  by_cases h : s.seq = 0xFFFFFFFF#32
  · simp [State.countRecord, h]
  · simp [State.countRecord, h]

/-- R202: `FRAME` pushes a record and counts it, or the numbers are used up. -/
theorem stageFrame_cases (s : State) :
    (s.seqOvf = false ∧ stageFrame s =
      .ok { s with
        out := s.out ++ s.record
        outCnt := s.outCnt + BitVec.ofNat 32 s.record.length
        seq := if s.seq = 0xFFFFFFFF#32 then 0 else s.seq + 1
        seqOvf := decide (s.seq = 0xFFFFFFFF#32)
        phase := .frame }) ∨
    (s.seqOvf = true ∧ stageFrame s = .raised (s.raise .capacityExceeded 1 none .frame)) := by
  cases h : s.seqOvf with
  | true => exact .inr ⟨rfl, by simp [stageFrame, h]⟩
  | false =>
    refine .inl ⟨rfl, ?_⟩
    simp [stageFrame, h, countRecord_eq, State.enter, State.outPush]

/-- R203: `DEFRAME`, by its outcome. -/
theorem stageDeframe_cases (s : State) :
    (∃ seq rt cs p len, deframeOutcome s = .record seq rt cs p len ∧ stageDeframe s =
      .ok { s with
        rseq := seq, rt := rt, cs := cs, p := p
        inp := s.inp.drop len
        inCnt := s.inCnt + BitVec.ofNat 32 len
        phase := .deframe }) ∨
    (∃ seq, deframeOutcome s = .oversize seq ∧
      stageDeframe s = .raised (s.raise .malformedContainer 6 (some seq) .deframe)) ∨
    (∃ seq, deframeOutcome s = .truncated seq ∧
      stageDeframe s = .raised (s.raise .malformedContainer 1 seq .deframe)) ∨
    (deframeOutcome s = .endOfContainer ∧
      stageDeframe s = .ok { s with eoc := true, phase := .deframe }) ∨
    (deframeOutcome s = .wait ∧ stageDeframe s = .held .deframe) := by
  unfold stageDeframe
  cases h : deframeOutcome s with
  | record seq rt cs p len => exact .inl ⟨seq, rt, cs, p, len, rfl, rfl⟩
  | oversize seq => exact .inr (.inl ⟨seq, rfl, rfl⟩)
  | truncated seq => exact .inr (.inr (.inl ⟨seq, rfl, rfl⟩))
  | endOfContainer => exact .inr (.inr (.inr (.inl ⟨rfl, rfl⟩)))
  | wait => exact .inr (.inr (.inr (.inr ⟨rfl, rfl⟩)))

/-- R205: `COLLECT` stores `D`, meets a present key, or a full store. -/
theorem stageCollect_cases (s : State) :
    (s.rs.has s.rseq = false ∧ storeFull s = false ∧ stageCollect s =
      .ok { s with rs := Store.insert s.rseq s.d s.rs, phase := .concat }) ∨
    (s.rs.has s.rseq = true ∧
      stageCollect s = .raised (s.raise .malformedContainer 5 (some s.rseq) .concat)) ∨
    (s.rs.has s.rseq = false ∧ storeFull s = true ∧
      stageCollect s = .raised (s.raise .capacityExceeded 0 (some s.rseq) .concat)) := by
  cases hh : s.rs.has s.rseq with
  | true => exact .inr (.inl ⟨rfl, by simp [stageCollect, hh]⟩)
  | false =>
    cases hf : storeFull s with
    | true => exact .inr (.inr ⟨rfl, rfl, by simp [stageCollect, hh, hf]⟩)
    | false => exact .inl ⟨rfl, rfl, by simp [stageCollect, hh, hf, State.enter]⟩

/-- R206. -/
theorem stageConcat_eq (s : State) : stageConcat s =
    .ok { s with
      rs := []
      out := s.out ++ s.rs.concat
      outCnt := s.outCnt + BitVec.ofNat 32 s.rs.concat.length
      phase := .concat } := rfl

end Sys2Proof.Machine
end

