-- ==== Sys2Proof/Laws/Store.lean ====
section
/-! SUPPORT. The reassembly store keeps its canonical form, and reads back what was stored (R42, R65). -/

namespace Sys2Proof.Machine

theorem Store.wf_iff (m : Store) :
    m.wf = true ↔ m.Pairwise fun a b => a.1.toNat < b.1.toNat := by
  simp [Store.wf]

@[simp] theorem Store.wf_nil : Store.wf [] = true := by decide

/-- The entries after an insertion are the new one and old ones. -/
theorem Store.mem_insert {k : Word} {v : List Byte} {m : Store} {e : Word × List Byte}
    (h : e ∈ Store.insert k v m) : e = (k, v) ∨ e ∈ m := by
  induction m with
  | nil => simpa [Store.insert] using h
  | cons a m ih =>
    simp only [Store.insert] at h
    split_ifs at h with h1 h2
    · simpa using h
    · rcases List.mem_cons.mp h with h | h
      · exact .inl h
      · exact .inr (List.mem_cons_of_mem _ h)
    · rcases List.mem_cons.mp h with h | h
      · exact .inr (h ▸ List.mem_cons_self)
      · rcases ih h with h | h
        · exact .inl h
        · exact .inr (List.mem_cons_of_mem _ h)

/-- A store stays canonical: `RS[k] <- v` keeps the keys strictly rising. -/
theorem Store.insert_wf (k : Word) (v : List Byte) (m : Store) (h : m.wf = true) :
    (Store.insert k v m).wf = true := by
  rw [Store.wf_iff] at h ⊢
  induction m with
  | nil => simp [Store.insert]
  | cons a m ih =>
    have ⟨ha, hm⟩ := List.pairwise_cons.mp h
    simp only [Store.insert]
    split_ifs with h1 h2
    · refine List.pairwise_cons.mpr ⟨fun e he => ?_, h⟩
      rcases List.mem_cons.mp he with rfl | he
      · exact h1
      · exact Nat.lt_trans h1 (ha e he)
    · subst h2
      exact List.pairwise_cons.mpr ⟨ha, hm⟩
    · refine List.pairwise_cons.mpr ⟨fun e he => ?_, ih hm⟩
      rcases Store.mem_insert he with rfl | he
      · have : k.toNat ≠ a.1.toNat := fun h => h2 (BitVec.eq_of_toNat_eq h)
        simp only; omega
      · exact ha e he

/-- `k in RS` says that `RS[k]` is there (R9). -/
theorem Store.has_iff (m : Store) (k : Word) : m.has k = true ↔ m.lookup k ≠ none := by
  induction m with
  | nil => simp [Store.has, Store.keys]
  | cons a m ih =>
    obtain ⟨ak, av⟩ := a
    simp only [Store.has, Store.keys, List.map_cons, List.contains_cons, Bool.or_eq_true] at ih ⊢
    by_cases h : k = ak
    · subst h; simp
    · have h' : (k == ak) = false := by simpa using h
      simp only [h', Bool.false_eq_true, false_or, List.lookup_cons]
      exact ih

/-- A Block stored is read back, and no other key is touched. -/
theorem Store.lookup_insert (m : Store) (k : Word) (v : List Byte) (j : Word) :
    (Store.insert k v m).lookup j = if j = k then some v else m.lookup j := by
  induction m with
  | nil =>
    by_cases hj : j = k
    · subst hj; simp [Store.insert]
    · have : (j == k) = false := by simpa using hj
      simp [Store.insert, hj, List.lookup_cons, this]
  | cons a m ih =>
    obtain ⟨ak, av⟩ := a
    simp only [Store.insert]
    by_cases hj : j = k
    · subst hj
      rw [if_pos rfl] at ih ⊢
      split_ifs with h1 h2
      · simp
      · simp
      · have : (j == ak) = false := by simpa using h2
        simp [List.lookup_cons, this, ih]
    · have hb : (j == k) = false := by simpa using hj
      split_ifs with h1 h2
      · simp [List.lookup_cons, hb]
      · subst h2; simp [List.lookup_cons, hb]
      · simp [List.lookup_cons, ih, hj]

/-- A new key adds one entry and its bytes. -/
theorem Store.insert_size (m : Store) (k : Word) (v : List Byte) (h : m.has k = false) :
    (Store.insert k v m).length = m.length + 1 ∧
      (Store.insert k v m).bytes = m.bytes + v.length := by
  induction m with
  | nil => simp [Store.insert, Store.bytes]
  | cons a m ih =>
    simp only [Store.has, Store.keys, List.map_cons, List.contains_cons, Bool.or_eq_false_iff] at h
    have hk : k ≠ a.1 := by simpa using h.1
    have ⟨hl, hb⟩ := ih (by simpa [Store.has, Store.keys] using h.2)
    simp only [Store.bytes] at hb
    simp only [Store.insert]
    split_ifs with h1
    · simp [Store.bytes]; omega
    · simp [hl, hb, Store.bytes]; omega

end Sys2Proof.Machine
end

