-- ==== Sys2Proof/Laws/Transforms.lean ====
section
/-! SUPPORT. Lengths, permutations and orders of the Rank and the Rotation Transform (R130 to R154). -/

namespace Sys2Proof.Machine

/-! ## Rank Transform -/

@[simp] theorem identityList_length : identityList.length = 256 := by simp [identityList]

/-- Moving to the front permutes the list (R150). -/
theorem mtfFront_perm (ml : List Byte) (k : Nat) : (mtfFront ml k).Perm ml := by
  unfold mtfFront
  cases h : ml[k]? with
  | none => exact .refl _
  | some b =>
    obtain ⟨hk, rfl⟩ := List.getElem?_eq_some_iff.mp h
    exact List.getElem_cons_eraseIdx_perm hk

@[simp] theorem mtfFront_length (ml : List Byte) (k : Nat) : (mtfFront ml k).length = ml.length :=
  (mtfFront_perm ml k).length_eq

theorem mtfEncode_length (ml bs : List Byte) : (mtfEncode ml bs).1.length = bs.length := by
  induction bs generalizing ml with
  | nil => rfl
  | cons b bs ih => simp [mtfEncode, ih]

theorem mtfDecode_length (ml ks : List Byte) : (mtfDecode ml ks).1.length = ks.length := by
  induction ks generalizing ml with
  | nil => rfl
  | cons k ks ih => simp [mtfDecode, ih]

/-- `ML` stays a permutation of its initial list (R38, R150). -/
theorem mtfEncode_perm (ml bs : List Byte) : (mtfEncode ml bs).2.Perm ml := by
  induction bs generalizing ml with
  | nil => exact .refl _
  | cons b bs ih => exact (ih _).trans (mtfFront_perm _ _)

theorem mtfDecode_perm (ml ks : List Byte) : (mtfDecode ml ks).2.Perm ml := by
  induction ks generalizing ml with
  | nil => exact .refl _
  | cons k ks ih => exact (ih _).trans (mtfFront_perm _ _)

/-- Every byte is in a permutation of the identity list. -/
theorem mem_of_perm_identity {ml : List Byte} (h : ml.Perm identityList) (b : Byte) : b ∈ ml := by
  refine h.symm.subset ?_
  simp only [identityList, List.mem_map, List.mem_range]
  exact ⟨b.toNat, b.isLt, by simp⟩

/-! ## Rotation Transform -/

@[simp] theorem rot_length (c : List Byte) (k : Nat) : (rot c k).length = c.length := by
  simp only [rot, List.length_append, List.length_drop, List.length_take]; omega

/-- All offsets stand in `order`, each once (R131). -/
theorem rotOrder_perm (c : List Byte) : (rotOrder c).Perm (List.range c.length) :=
  List.perm_insertionSort _ _

@[simp] theorem rotOrder_length (c : List Byte) : (rotOrder c).length = c.length := by
  simpa using (rotOrder_perm c).length_eq

theorem nextRow_perm (t : List Byte) : (nextRow t).Perm (List.range t.length) :=
  List.perm_insertionSort _ _

@[simp] theorem nextRow_length (t : List Byte) : (nextRow t).length = t.length := by
  simpa using (nextRow_perm t).length_eq

/-- `|t| = N` (R131). -/
@[simp] theorem rotate_length (c : List Byte) : (rotate c).2.length = c.length := by
  simp [rotate]

@[simp] theorem unrotateFrom_length (t : List Byte) (rows : List Nat) (n r : Nat) :
    (unrotateFrom t rows n r).length = n := by
  induction n generalizing r with
  | zero => rfl
  | succ n ih => simp [unrotateFrom, ih]

@[simp] theorem unrotate_length (r : Nat) (t : List Byte) : (unrotate r t).length = t.length := by
  simp [unrotate]

/-- A Chunk is the next `C` bytes from its start (R130). -/
theorem chunk_eq (d : List Byte) (c i : Nat) : chunk d c i = (d.drop (i * c)).take c := by
  have h : (i + 1) * c = i * c + c := by rw [Nat.add_mul, Nat.one_mul]
  have ht : d.take (min (i * c + c) d.length) = d.take (i * c + c) := by
    rcases Nat.le_total (i * c + c) d.length with hl | hl
    · rw [Nat.min_eq_left hl]
    · rw [Nat.min_eq_right hl, List.take_of_length_le hl, List.take_of_length_le (Nat.le_refl _)]
  rw [chunk, slice, h, ht, List.drop_take]
  congr 1; omega

/-- A Chunk has its length (R130). -/
theorem chunk_length (d : List Byte) (c i : Nat) : (chunk d c i).length = clen d.length c i := by
  have h : (i + 1) * c = i * c + c := by rw [Nat.add_mul, Nat.one_mul]
  simp only [chunk_eq, clen, h, List.length_take, List.length_drop]; omega

/-- The offsets stand in the order of R131 and R132: no later one comes before an earlier one. -/
theorem rotOrder_sorted (c : List Byte) : (rotOrder c).Pairwise (rotLe c) := by
  have total : Std.Total (rotLe c) := ⟨fun j k => by
    rcases lt_trichotomy (rotKey c j) (rotKey c k) with h | h | h
    · exact .inl (.inl h)
    · rcases Nat.le_total j k with hjk | hjk
      · exact .inl (.inr ⟨h, hjk⟩)
      · exact .inr (.inr ⟨h.symm, hjk⟩)
    · exact .inr (.inl h)⟩
  have trans : IsTrans Nat (rotLe c) := ⟨fun i j k hij hjk => by
    rcases hij with h1 | ⟨h1, h1'⟩ <;> rcases hjk with h2 | ⟨h2, h2'⟩
    · exact .inl (lt_trans h1 h2)
    · exact .inl (h2 ▸ h1)
    · exact .inl (h1 ▸ h2)
    · exact .inr ⟨h1.trans h2, Nat.le_trans h1' h2'⟩⟩
  exact List.pairwise_insertionSort _ _

/-- The positions stand in the order of R134. -/
theorem nextRow_sorted (t : List Byte) : (nextRow t).Pairwise (byteLe t) := by
  have total : Std.Total (byteLe t) := ⟨fun i j => by
    rcases Nat.lt_trichotomy (t.getD i 0).toNat (t.getD j 0).toNat with h | h | h
    · exact .inl (.inl h)
    · have h := BitVec.eq_of_toNat_eq h
      rcases Nat.le_total i j with hij | hij
      · exact .inl (.inr ⟨h, hij⟩)
      · exact .inr (.inr ⟨h.symm, hij⟩)
    · exact .inr (.inl h)⟩
  have trans : IsTrans Nat (byteLe t) := ⟨fun i j k hij hjk => by
    rcases hij with h1 | ⟨h1, h1'⟩ <;> rcases hjk with h2 | ⟨h2, h2'⟩
    · exact .inl (Nat.lt_trans h1 h2)
    · exact .inl (h2 ▸ h1)
    · exact .inl (h1 ▸ h2)
    · exact .inr ⟨h1.trans h2, Nat.le_trans h1' h2'⟩⟩
  exact List.pairwise_insertionSort _ _

end Sys2Proof.Machine
end

