-- ==== Sys2Proof/Machine/Assembler.lean ====
section
/-! DEFINITION. The assembler syntax of R105: one command or host directive a line. What R105 leaves
open of its text (white space, letter case of hexadecimal digits) is log 21. -/

namespace Sys2Proof.Machine

/-- The mnemonic of a command (R93). -/
def mnemonicOf : Instr → String
  | .nop => "NOP"
  | .setbs _ => "SETBS"
  | .setcs _ => "SETCS"
  | .srst => "SRST"
  | .ldblk => "LDBLK"
  | .std => "STD"
  | .rot => "ROT"
  | .unrot => "UNROT"
  | .mtfe => "MTFE"
  | .mtfd => "MTFD"
  | .hcnt => "HCNT"
  | .htree => "HTREE"
  | .hcode => "HCODE"
  | .henc => "HENC"
  | .hdec => "HDEC"
  | .ctser => "CTSER"
  | .ctdes => "CTDES"
  | .frame => "FRAME"
  | .deframe => "DEFRAME"
  | .collect => "COLLECT"
  | .concat => "CONCAT"
  | .cblk => "CBLK"
  | .dblk => "DBLK"
  | .comp => "COMP"
  | .decomp => "DECOMP"

/-- A line of a command stream: a command word, the bytes of `.in`, `.eoi`, or nothing (R105). A word
written as a number stands for itself (program P8). -/
inductive AsmLine where
  | word (w : Word)
  | inBytes (bs : List Byte)
  | eoi
  | blank
  deriving DecidableEq, Repr

/-- The words of a line, between spaces and tabs; `cur` is the word being read, backwards. -/
def lineTokens : List Char → List Char → List (List Char)
  | [], cur => if cur = [] then [] else [cur.reverse]
  | c :: cs, cur =>
    if c = ' ' ∨ c = '\t' then
      if cur = [] then lineTokens cs [] else cur.reverse :: lineTokens cs []
    else lineTokens cs (c :: cur)

/-- The value of a hexadecimal digit. -/
def hexDigit (c : Char) : Option Nat :=
  if '0' ≤ c ∧ c ≤ '9' then some (c.toNat - 48)
  else if 'A' ≤ c ∧ c ≤ 'F' then some (c.toNat - 55)
  else if 'a' ≤ c ∧ c ≤ 'f' then some (c.toNat - 87)
  else none

/-- A number of the given base, after the digits worth `acc`. -/
def digitsFrom (base : Nat) : List Char → Nat → Option Nat
  | [], acc => some acc
  | c :: cs, acc =>
    match hexDigit c with
    | none => none
    | some v => if v < base then digitsFrom base cs (acc * base + v) else none

/-- A decimal or `0x` hexadecimal number (R105). -/
def asmNumber : List Char → Option Nat
  | [] => none
  | '0' :: 'x' :: c :: cs => digitsFrom 16 (c :: cs) 0
  | cs => digitsFrom 10 cs 0

/-- One byte of `.in`: two hexadecimal digits. -/
def asmByte : List Char → Option Byte
  | [h, l] =>
    match hexDigit h, hexDigit l with
    | some a, some b => some (BitVec.ofNat 8 (16 * a + b))
    | _, _ => none
  | _ => none

/-- The bytes of `.in`. -/
def asmBytes : List (List Char) → Option (List Byte)
  | [] => some []
  | t :: ts =>
    match asmByte t, asmBytes ts with
    | some b, some bs => some (b :: bs)
    | _, _ => none

/-- The format Z command of a mnemonic. -/
def zCommand (t : List Char) : Option Instr :=
  (zRows.find? fun r => (mnemonicOf r.2).toList == t).map Prod.snd

/-- A format I word: the opcode and the operand as six hexadecimal digits (R105). An operand that the
decoder refuses still assembles; one above 24 bits does not. -/
def formatIWord (op : BitVec 8) (t : List Char) : Option AsmLine :=
  match asmNumber t with
  | none => none
  | some v => if v < 2 ^ 24 then some (.word (op ++ BitVec.ofNat 24 v)) else none

/-- The line that a list of tokens spells (R105). -/
def asmTokens : List (List Char) → Option AsmLine
  | [] => some .blank
  | [t] =>
    if t = ".eoi".toList then some .eoi
    else if t = ".in".toList then some (.inBytes [])
    else
      match zCommand t with
      | some i => some (.word (encode i))
      | none =>
        match asmNumber t with
        | none => none
        | some v => if v < 2 ^ 32 then some (.word (BitVec.ofNat 32 v)) else none
  | t :: u :: ts =>
    if t = ".in".toList then (asmBytes (u :: ts)).map .inBytes
    else if ts ≠ [] then none
    else if t = "SETBS".toList then formatIWord 0x01 u
    else if t = "SETCS".toList then formatIWord 0x02 u
    else none

/-- One line; `;` starts a comment (R105). -/
def assembleLine (line : String) : Option AsmLine :=
  asmTokens (lineTokens (line.toList.takeWhile fun c => c ≠ ';') [])

/-- What the host does for a line (R105): directives are host actions, not commands. -/
def AsmLine.actions : AsmLine → List HostAction
  | .word w => [.issueCmd w]
  | .inBytes bs => bs.map .pushIn
  | .eoi => [.setEoi]
  | .blank => []

/-- The host actions of a program, line by line. -/
def assemble : List String → Option (List HostAction)
  | [] => some []
  | line :: lines =>
    match assembleLine line, assemble lines with
    | some l, some as => some (l.actions ++ as)
    | _, _ => none

end Sys2Proof.Machine
end

