-- ==== Sys2Proof/Tests/Slice0.lean ====
section
/-! SUPPORT. Tests against the vectors of spec/95_test_vectors.md (the vector stands in each comment), the
smoke test of well-formedness, and a witness for the premises of every statement that has some. -/

namespace Sys2Proof.Tests

set_option Elab.async false

open Sys2Proof.Machine

/-! ## Helpers -/

/-- Bytes from numbers. -/
def bytes (l : List Nat) : List Byte := l.map (BitVec.ofNat 8)

/-- The Blocks of the vectors. -/
def banana : List Byte := bytes [0x62, 0x61, 0x6E, 0x61, 0x6E, 0x61]
def nnbaaa : List Byte := bytes [0x6E, 0x6E, 0x62, 0x61, 0x61, 0x61]
/-- The rank stream of V22. -/
def ranks22 : List Byte := bytes [0x6E, 0, 0x63, 0x63, 0, 0]
/-- The table of V32. -/
def table32 : CodeTable :=
  tableOf [(0x00, [false]), (0x63, [true, true]), (0x6E, [true, false])]
/-- The region of V40. -/
def region40 : List Byte := bytes [0, 1, 1, 0, 0x63, 2, 1, 0xC0, 0x6E, 2, 1, 0x80]
/-- The payload of V33. -/
def payload33 : List Byte := bytes [7, 0x9E, 0]
/-- The record of V54. -/
def record54 : List Byte :=
  bytes [0, 0, 0, 0, 0, 0, 0, 1, 0, 0, 0, 3, 0, 0, 0, 0xC] ++ region40 ++
    bytes [0, 0, 0, 3, 7, 0x9E, 0]
/-- The record of V75: the Block "a". -/
def record75 : List Byte :=
  bytes [0, 0, 0, 0, 0, 0, 0, 1, 0, 0, 0, 0, 0, 0, 0, 4, 0x61, 1, 1, 0, 0, 0, 0, 2, 7, 0]

/-- The core after reset, holding `d` with chunk size `c`. -/
def holding (d : List Byte) (c : Word) : State := { State.reset with d := d, chkSize := c }

/-- The core after reset with the input `inp` and the end-of-input flag `eoi`. -/
def fed (inp : List Byte) (eoi : Bool) : State := { State.reset with inp := inp, eoi := eoi }

/-- The core after reset with one word queued. -/
def queued (w : Word) : State := { State.reset with cmdq := [w] }

/-- The core in the error state that an illegal command leaves, with one word queued. -/
def failed (w : Word) : State := { (queued w).raiseIllegal with cmdq := [w] }

/-- A core with the smallest parameters. -/
def tinyConfig : Config := ⟨1, 1, 1, 1, 1, 0, 0⟩

/-- The small core after reset, holding `d` with chunk size 1. -/
def tiny (d : List Byte) : State := { State.resetWith tinyConfig with d := d }

def stateOf (s : State) : Host.Outcome State Fault Refusal → State
  | .next t => t
  | .fault _ | .refused _ => s

def ran : Host.Outcome State Fault Refusal → Bool
  | .next _ => true
  | .fault _ | .refused _ => false

/-- The state a command ends in. -/
def after (i : Instr) (s : State) : State := stateOf s (exec i s)

/-- The state one step ends in. -/
def stepped (s : State) : State := stateOf s (step s)

theorem eq_next {s : State} {o : Host.Outcome State Fault Refusal} (h : ran o = true) :
    o = .next (stateOf s o) := by
  cases o <;> simp_all [ran, stateOf]

/-! ## Decoding: every command from its word, written out from R90 and R93 -/

theorem test_decode_nop : decode Config.default 0b00000000000000000000000000000000#32 = .command .nop := by
  decide
theorem test_decode_setbs :
    decode Config.default 0b00000001000000010000000000000000#32 = .command (.setbs 65536) := by decide
theorem test_decode_setcs :
    decode Config.default 0b00000010000000000000000000000011#32 = .command (.setcs 3) := by decide
theorem test_decode_srst : decode Config.default 0b00000011000000000000000000000000#32 = .command .srst := by
  decide
theorem test_decode_ldblk :
    decode Config.default 0b00010000000000000000000000000000#32 = .command .ldblk := by decide
theorem test_decode_std : decode Config.default 0b00010001000000000000000000000000#32 = .command .std := by
  decide
theorem test_decode_rot : decode Config.default 0b00100000000000000000000000000000#32 = .command .rot := by
  decide
theorem test_decode_unrot :
    decode Config.default 0b00100001000000000000000000000000#32 = .command .unrot := by decide
theorem test_decode_mtfe : decode Config.default 0b00110000000000000000000000000000#32 = .command .mtfe := by
  decide
theorem test_decode_mtfd : decode Config.default 0b00110001000000000000000000000000#32 = .command .mtfd := by
  decide
theorem test_decode_hcnt : decode Config.default 0b01000000000000000000000000000000#32 = .command .hcnt := by
  decide
theorem test_decode_htree :
    decode Config.default 0b01000001000000000000000000000000#32 = .command .htree := by decide
theorem test_decode_hcode :
    decode Config.default 0b01000010000000000000000000000000#32 = .command .hcode := by decide
theorem test_decode_henc : decode Config.default 0b01000011000000000000000000000000#32 = .command .henc := by
  decide
theorem test_decode_hdec : decode Config.default 0b01000100000000000000000000000000#32 = .command .hdec := by
  decide
theorem test_decode_ctser :
    decode Config.default 0b01000101000000000000000000000000#32 = .command .ctser := by decide
theorem test_decode_ctdes :
    decode Config.default 0b01000110000000000000000000000000#32 = .command .ctdes := by decide
theorem test_decode_frame :
    decode Config.default 0b01010000000000000000000000000000#32 = .command .frame := by decide
theorem test_decode_deframe :
    decode Config.default 0b01010001000000000000000000000000#32 = .command .deframe := by decide
theorem test_decode_collect :
    decode Config.default 0b01010010000000000000000000000000#32 = .command .collect := by decide
theorem test_decode_concat :
    decode Config.default 0b01010011000000000000000000000000#32 = .command .concat := by decide
theorem test_decode_cblk : decode Config.default 0b01100000000000000000000000000000#32 = .command .cblk := by
  decide
theorem test_decode_dblk : decode Config.default 0b01100001000000000000000000000000#32 = .command .dblk := by
  decide
theorem test_decode_comp : decode Config.default 0b01100010000000000000000000000000#32 = .command .comp := by
  decide
theorem test_decode_decomp :
    decode Config.default 0b01100011000000000000000000000000#32 = .command .decomp := by decide

/-- V91, V92: what is refused, by name. -/
theorem test_decode_refuses :
    decode Config.default 0x62000001 = .illegal (.immediateNotZero 0x62 1) ∧
    [0x04000000#32, 0x12000000, 0x47000000, 0x64000000, 0xFF000000].map (decode Config.default) =
      [0x04#8, 0x12, 0x47, 0x64, 0xFF].map (fun op => Decoded.illegal (.reservedOpcode op)) := by
  decide

/-! ## Well-formedness: an ill-formed command for each check (R94) -/

/-- V87 and V90: a size of 0. -/
theorem test_wellformed_zero :
    (Instr.setbs 0).wf Config.default = false ∧ (Instr.setcs 0).wf Config.default = false ∧
    decode Config.default 0x01000000 = .illegal .blockSizeZero ∧
    decode Config.default 0x02000000 = .illegal .chunkSizeZero := by decide

/-- V88: a block size above `DCAP`. -/
theorem test_wellformed_capacity :
    (Instr.setbs 0xFFFFFF).wf Config.default = true ∧ (Instr.setbs 2).wf tinyConfig = false ∧
    decode Config.default 0x01FFFFFF = .command (.setbs 0xFFFFFF) ∧
    decode tinyConfig 0x01000002 = .illegal (.blockSizeAboveCapacity 2) := by decide

/-! ## System commands -/

/-- V85. -/
theorem test_nop : stepped (queued 0x00000000) = State.reset := rfl
/-- V86. -/
theorem test_setbs : stepped (queued 0x01000006) = { State.reset with blkSize := 6 } :=
  rfl
/-- V87: `ERRCAUSE`, `ERRSEQ`, `STATUS`. -/
theorem test_setbs_zero :
    (stepped (queued 0x01000000)).errCause = 0x003 ∧ (stepped (queued 0x01000000)).errSeq = 0 ∧
    (stepped (queued 0x01000000)).status = 0x00000002 ∧
    (stepped (queued 0x01000000)).blkSize = 65536 := by decide +kernel
/-- V89. -/
theorem test_setcs : stepped (queued 0x02000003) = { State.reset with chkSize := 3 } :=
  rfl
/-- V90, V91: illegal words. -/
theorem test_illegal_words :
    (stepped (queued 0x02000000)).errCause = 3 ∧ (stepped (queued 0x62000001)).errCause = 3 := by
  decide +kernel
/-- V93: discarded in the error state. -/
theorem test_discarded :
    stepped (failed 0x62000000) = { failed 0 with cmdq := [] } ∧
    stepped (failed 0xFF000000) = { failed 0 with cmdq := [] } := ⟨rfl, rfl⟩
/-- V94. -/
theorem test_srst :
    stepped { failed 0x03000000 with inp := [1], inCnt := 3, out := record54, outCnt := 35, chkSize := 8 } =
      { State.reset with out := record54, outCnt := 35 } := rfl

/-! ## Block Splitter and raw store -/

/-- V52, the second Block: shorter at the end of the input. -/
theorem test_ldblk :
    (after .ldblk { fed (bytes [0x64, 0x61, 0x62, 0x72, 0x61]) true with blkSize := 6, inCnt := 6 }).d =
      bytes [0x64, 0x61, 0x62, 0x72, 0x61] ∧
    (after .ldblk { fed (bytes [0x64, 0x61, 0x62, 0x72, 0x61]) true with blkSize := 6, inCnt := 6 }).inCnt =
      11 := by decide +kernel
/-- V53. -/
theorem test_ldblk_waits :
    (after .ldblk { fed (bytes [0x61, 0x62, 0x72, 0x61]) false with blkSize := 6 }).status = 0x00000101 ∧
    (after .ldblk { fed (bytes [0x61, 0x62, 0x72, 0x61]) false with blkSize := 6 }).inp =
      bytes [0x61, 0x62, 0x72, 0x61] := by decide +kernel
/-- V66. -/
theorem test_std :
    (after .std (holding (bytes [0x41, 0, 0, 0, 0]) 8)).out = bytes [0x41, 0, 0, 0, 0] ∧
    (after .std (holding (bytes [0x41, 0, 0, 0, 0]) 8)).outCnt = 5 := by decide +kernel

/-! ## Rotation Transform -/

/-- V10. -/
theorem test_rot :
    (after .rot (holding banana 8)).rt = [3] ∧ (after .rot (holding banana 8)).d = nnbaaa := by
  decide +kernel
/-- V11: two Chunks. -/
theorem test_rot_chunks :
    (after .rot (holding banana 3)).rt = [1, 1] ∧
    (after .rot (holding banana 3)).d = bytes [0x62, 0x6E, 0x61, 0x6E, 0x61, 0x61] := by decide +kernel
/-- V12: equal rotations. -/
theorem test_rotate_ties :
    rotate (bytes [0x61, 0x62, 0x61, 0x62]) = (0, bytes [0x62, 0x62, 0x61, 0x61]) := by decide +kernel
/-- V18. -/
theorem test_unrot : (after .unrot { holding nnbaaa 8 with rt := [3] }).d = banana := by decide +kernel
/-- V21a. -/
theorem test_unrot_count :
    after .unrot { holding nnbaaa 3 with rt := [3], rseq := 9 } =
      { holding nnbaaa 3 with rt := [3], rseq := 9, err := true, errCause := 0x141, errSeq := 9,
                              phase := .unrotate } := rfl

/-! ## Rank Transform -/

/-- V22. -/
theorem test_mtfe : (after .mtfe (holding nnbaaa 8)).d = ranks22 := by decide +kernel
/-- V21: a constant Block. -/
theorem test_mtfe_constant :
    (after .mtfe (holding (bytes [0x41, 0x41, 0x41]) 8)).d = bytes [0x41, 0, 0] := by decide +kernel
/-- V24. -/
theorem test_mtfd :
    (after .mtfd (holding (bytes [0x62, 0x62, 0x6E, 1, 1, 1]) 8)).d = banana := by decide +kernel
/-- V28. -/
theorem test_mtfd_last :
    (after .mtfd (holding (bytes [3, 3, 3, 3]) 8)).d = bytes [3, 2, 1, 0] := by decide +kernel

/-! ## Prefix-Code Engine -/

/-- V30. -/
theorem test_hcnt :
    (after .hcnt (holding ranks22 8)).ft.toList =
      (List.range 256).map fun b =>
        if b = 0 then 3 else if b = 0x63 then 2 else if b = 0x6E then 1 else 0 := by
  decide +kernel
/-- V31: the tie between a leaf and a node. -/
theorem test_htree :
    (after .htree { State.reset with ft := countFreqs ranks22 }).tr =
      [.leaf 0 3, .leaf 0x63 2, .leaf 0x6E 1, .node 3 2 1, .node 6 0 3] := by decide +kernel
/-- V37: equal counts. -/
theorem test_htree_ties :
    (after .htree { State.reset with ft := countFreqs [0x0A, 0x14, 0x1E, 0x28] }).tr =
      [.leaf 0x0A 1, .leaf 0x14 1, .leaf 0x1E 1, .leaf 0x28 1, .node 2 0 1, .node 2 2 3,
       .node 4 4 5] := by decide +kernel
/-- V32. -/
theorem test_hcode :
    (after .hcode { State.reset with
      tr := [.leaf 0 3, .leaf 0x63 2, .leaf 0x6E 1, .node 3 2 1, .node 6 0 3] }).ct.toList =
      table32.toList := by
  decide +kernel
/-- V34: one symbol. -/
theorem test_hcode_single :
    (after .hcode { State.reset with tr := [.leaf 0x61 1] }).ct.entries = [(0x61, [false])] := by
  decide +kernel
/-- V33. -/
theorem test_henc : (after .henc { holding ranks22 8 with ct := table32 }).p = payload33 := by
  decide +kernel
/-- V47. -/
theorem test_henc_mismatch :
    after .henc { holding [0x61, 1] 8 with ct := tableOf [(0, [true]), (0x61, [false])], seq := 4 } =
      { holding [0x61, 1] 8 with
        ct := tableOf [(0, [true]), (0x61, [false])], seq := 4, err := true, errCause := 0x102,
        errSeq := 4, phase := .encode } := rfl
/-- V42, V43: the padding is not read. -/
theorem test_hdec :
    (after .hdec { State.reset with p := payload33, ct := table32 }).d = ranks22 ∧
    (after .hdec { State.reset with p := bytes [7, 0x9E, 0x7F], ct := table32 }).d = ranks22 := by
  decide +kernel
/-- V45: three bad payloads. -/
theorem test_hdec_rejects :
    ([bytes [8, 0x9E, 0], bytes [3], bytes [7, 0x9E]].map fun p =>
      (after .hdec { State.reset with p := p, ct := table32 }).errCause) = [0x131, 0x131, 0x131] := by
  decide +kernel
/-- V40. -/
theorem test_ctser : (after .ctser { State.reset with ct := table32 }).cs = region40 := by decide +kernel
/-- V41: a code of nine bits. -/
theorem test_entry_long :
    entryBytes (2, List.replicate 7 true ++ [false]) = bytes [2, 8, 1, 0xFE] ∧
    entryBytes (1, List.replicate 9 true) = bytes [1, 9, 2, 0xFF, 0x80] := by decide +kernel
/-- V50: entries in another order. -/
theorem test_ctdes :
    (after .ctdes { State.reset with
      cs := bytes [0x6E, 2, 1, 0x80, 0, 1, 1, 0, 0x63, 2, 1, 0xC0] }).ct.toList =
      table32.toList := by decide +kernel
/-- V49: eight regions that are no table. -/
theorem test_ctdes_rejects :
    ([bytes [0, 1], bytes [0, 0, 0], bytes [0, 1, 2, 0, 0], bytes [0, 9, 2, 0xFF], bytes [0, 1, 1, 0x40],
      bytes [0, 1, 1, 0, 0, 1, 1, 0x80], bytes [0, 1, 1, 0, 0x63, 2, 1, 0],
      bytes [0, 2, 1, 0xC0, 0x63, 2, 1, 0xC0]].map fun cs =>
      (after .ctdes { State.reset with cs := cs }).errCause) = List.replicate 8 0x121 := by
  decide +kernel

/-! ## Container Codec -/

/-- V54. -/
theorem test_frame :
    after .frame { State.reset with rt := [3], cs := region40, p := payload33 } =
      { State.reset with
        rt := [3], cs := region40, p := payload33, out := record54, outCnt := 35, seq := 1 } := rfl
/-- V56. -/
theorem test_frame_overflow :
    (after .frame { State.reset with seq := 0xFFFFFFFF }).seq = 0 ∧
    (after .frame { State.reset with seq := 0xFFFFFFFF }).status.getLsbD 4 = true ∧
    (after .frame { State.reset with seqOvf := true }).errCause = 0x014 := by decide +kernel
/-- V57. -/
theorem test_deframe :
    after .deframe { fed record54 false with rseq := 8 } =
      { State.reset with rt := [3], cs := region40, p := payload33, inCnt := 35 } := rfl
/-- V60, V62, V58: truncated, oversize, end of the container. -/
theorem test_deframe_outcomes :
    (after .deframe (fed (record54.take 3) true)).errCause = 0x011 ∧
    (after .deframe (fed (record54.take 4) true)).errCause = 0x111 ∧
    (after .deframe (fed (bytes [0, 0, 0, 7, 1, 0, 0, 0]) false)).errCause = 0x161 ∧
    (after .deframe (fed (bytes [0, 0, 0, 7, 1, 0, 0, 0]) false)).errSeq = 7 ∧
    after .deframe (fed [] true) = { fed [] true with eoc := true } :=
  ⟨by decide +kernel, by decide +kernel, by decide +kernel, by decide +kernel, rfl⟩
/-- V64: a number that is present. -/
theorem test_collect :
    (after .collect { holding [1] 8 with rseq := 1 }).rs = [(1, [1])] ∧
    (after .collect { holding [1] 8 with rseq := 1, rs := [(1, [2])] }).errCause = 0x151 := by
  decide +kernel
/-- V65. -/
theorem test_concat :
    (after .concat { State.reset with
      rs := Store.insert 3 [0x63] (Store.insert 0 [0x61, 0x62] [(0xFFFFFFFF, [0x64])]) }).out =
      bytes [0x61, 0x62, 0x63, 0x64] := by decide +kernel

/-! ## Pipeline Orchestrator -/

/-- V75. -/
theorem test_cblk : (after .cblk (fed [0x61] true)).out = record75 := by decide +kernel
/-- V71. -/
theorem test_cblk_empty :
    (after .cblk (fed [] true)).out = List.replicate 16 0 ∧ (after .cblk (fed [] true)).seq = 1 := by
  decide +kernel
/-- V75's record, decompressed (R238). -/
theorem test_dblk : (after .dblk (fed record75 true)).rs = [(0, [0x61])] := by decide +kernel
/-- V70. -/
theorem test_comp_empty : after .comp (fed [] true) = fed [] true := rfl
/-- One pass of `COMP`: still in execution in `SPLIT`. -/
theorem test_comp_pass :
    (after .comp (fed [0x61] true)).out = record75 ∧
    (after .comp (fed [0x61] true)).cur = some .comp ∧
    (after .comp (fed [0x61] true)).phase = .split := by decide +kernel
/-- One pass of `DECOMP`, and the pass that meets the end of the container. -/
theorem test_decomp_pass :
    (after .decomp (fed record75 true)).rs = [(0, [0x61])] ∧
    (after .decomp (fed record75 true)).cur = some .decomp ∧
    after .decomp (fed [] true) =
      { fed [] true with eoc := true, cur := some .decomp, phase := .deframe } :=
  ⟨by decide +kernel, by decide +kernel, rfl⟩
/-- The last step of `DECOMP` (P4: the Blocks in key order). -/
theorem test_decomp_concat :
    after .decomp { fed [] true with
      eoc := true, cur := some .decomp, phase := .deframe, rs := [(0, [1, 2]), (1, [3])] } =
      { fed [] true with eoc := true, out := [1, 2, 3], outCnt := 3 } := rfl

/-! ## Register port, host, assembler -/

/-- R36 and R47: what every address reads after reset. -/
theorem test_readReg_reset :
    (List.range 16).map (fun a => State.reset.readReg (BitVec.ofNat 4 a)) =
      [0, 0, 0, 65536, 1024, 0, 0, 0, 0, 0, 0, 0, 0, 0, 0, 0] := by decide +kernel
/-- R79, R297. -/
theorem test_host :
    hostAct (.pushIn 7) (fed [6] false) = .next (fed [6, 7] false) ∧
    hostAct (.pushIn 7) (fed [6] true) = .refused .pushAfterEoi ∧
    hostAct .popOut State.reset = .refused .popOfEmptyOut := ⟨rfl, rfl, rfl⟩
/-- P1's lines (R105). -/
theorem test_assemble :
    assemble ["SETBS 16 ; 0x01000010", "SETCS 0x8", "COMP", ".in 62 61", "", ".eoi"] =
      some [.issueCmd 0x01000010, .issueCmd 0x02000008, .issueCmd 0x62000000, .pushIn 0x62, .pushIn 0x61,
            .setEoi] := by decide +kernel
/-- P8's second line, and lines that spell nothing. -/
theorem test_assemble_words :
    assembleLine "0x62000001 ; illegal" = some (.word 0x62000001) ∧ assembleLine "SETBS" = none ∧
    assembleLine "ROT 3" = none ∧ assembleLine "SETCS 16777216" = none := by decide +kernel
/-- How the host places an instruction: the very next step runs it. -/
theorem test_withFetchWord :
    decodeTableWord 32 0x02000003 = some (.setcs 3) ∧
    stepped (State.reset.withFetchWord 32 0x02000003) = { State.reset with chkSize := 3 } :=
  ⟨by decide, rfl⟩

/-! ## Witnesses: the premises of every statement that has some, met together, clause by clause -/

open Sys2Proof.Claims

/-- A Code Table of two symbols that meets the invariant. -/
def pair : CodeTable := tableOf [(0x61, [false]), (0x62, [true])]

theorem witness_pair_ok : pair.Ok := by
  have key : ∀ b c, pair.code b = some c → (b = 0x61 ∧ c = [false]) ∨ (b = 0x62 ∧ c = [true]) := by
    intro b c h
    rw [pair, tableOf_code] at h
    simp only [List.reverse_cons, List.reverse_nil, List.nil_append, List.cons_append,
      List.lookup_cons, List.lookup_nil] at h
    split at h
    · exact .inr (by simp_all)
    · split at h
      · exact .inl (by simp_all)
      · cases h
  constructor
  · intro b c h
    rcases key b c h with ⟨-, rfl⟩ | ⟨-, rfl⟩ <;> decide
  · intro b1 b2 c1 c2 hne h1 h2
    rcases key b1 c1 h1 with ⟨rfl, rfl⟩ | ⟨rfl, rfl⟩ <;>
      rcases key b2 c2 h2 with ⟨rfl, rfl⟩ | ⟨rfl, rfl⟩ <;> first | exact absurd rfl hne | decide

theorem witness_empty_ok : CodeTable.Ok (Vector.replicate 256 none) :=
  ⟨fun b c h => by simp [CodeTable.code] at h, fun b1 b2 c1 c2 _ h => by simp [CodeTable.code] at h⟩

/-- The invariant holds of a core that has bytes to read and a command to take. -/
theorem witness_invariant : Inv { fed [0x61] true with cmdq := [0x60000000] } where
  sequencer :=
    { idle_phase := fun _ _ => rfl
      error_ends_command := nofun
      waiting := nofun
      no_error := fun _ => ⟨rfl, rfl⟩
      error := nofun
      container_end := nofun
      wrapped := nofun }
  sizes :=
    { config := by decide
      block_size := by decide
      chunk_size := by decide
      data := by decide
      rotation_table := by decide
      serialized := by decide
      payload := by decide
      store_blocks := by decide
      store_bytes := by decide
      read_prefix := by decide
      pushed := by decide }
  tables :=
    { rank_list := .refl _
      freqs := by decide +kernel
      tree := ⟨Vector.replicate 256 0, by decide +kernel, by decide +kernel⟩
      codes := witness_empty_ok
      store := by decide }

theorem witness_ResetMeetsTheInvariant : Config.default.wf = true ∧ tinyConfig.wf = true := by decide

theorem witness_DecodeAndEncodeAgree :
    decode Config.default 0x02FFFFFF = .command (.setcs 0xFFFFFF) ∧
    (Instr.setcs 0xFFFFFF).wf Config.default = true ∧ encode (.setcs 0xFFFFFF) = 0x02FFFFFF := by decide

/-- Each way to be illegal at its edge, and a legal word beside it. -/
theorem witness_IllegalWordsRaiseIllegalCommand :
    (queued 0x64000000).cur = none ∧ (queued 0x64000000).err = false ∧
    (queued 0x64000000).cmdq = 0x64000000 :: [] ∧ (queued 0x64000000).cfg.dcap = 16777215 ∧
    IllegalIn 16777215 0x64000000 ∧ IllegalIn 16777215 0x63000001 ∧ IllegalIn 16777215 0x01000000 ∧
    IllegalIn 16777214 0x01FFFFFF ∧ IllegalIn 16777215 0x02000000 ∧
    ¬ IllegalIn 16777215 0x63000000 ∧ ¬ IllegalIn 16777215 0x01FFFFFF ∧
    ¬ IllegalIn 16777215 0x02000001 := by
  refine ⟨rfl, rfl, rfl, rfl, ?_, ?_, ?_, ?_, ?_, ?_, ?_, ?_⟩ <;> unfold IllegalIn <;> decide

theorem witness_StepRunsTheDecodedCommand :
    (queued 0x20000000).cur = none ∧ (queued 0x20000000).err = false ∧
    (queued 0x20000000).cmdq = 0x20000000 :: [] ∧
    decode (queued 0x20000000).cfg 0x20000000 = .command .rot := by decide

theorem witness_HeldCommandsGoOnAndAnIdleCoreWaits :
    (after .ldblk (fed [] false)).cur = some .ldblk ∧ (after .ldblk (fed [] false)).err = false ∧
    State.reset.cur = none ∧ State.reset.cmdq = [] := by decide

theorem witness_ErrorStateDiscardsAllButSrst :
    (failed 0x62000000).cur = none ∧ (failed 0x62000000).err = true ∧
    (failed 0x62000000).cmdq = 0x62000000 :: [] ∧ (failed 0x03000000).cur = none ∧
    (failed 0x03000000).err = true ∧ (failed 0x03000000).cmdq = 0x03000000 :: [] := by decide

theorem witness_OnlySrstOrResetClearsErr :
    (failed 0x62000000).err = true ∧ (failed 0x62000000).cur = none ∧
    step (failed 0x62000000) = .next (stepped (failed 0x62000000)) ∧
    hostAct .setEoi (failed 0x62000000) = .next { failed 0x62000000 with eoi := true } :=
  ⟨rfl, rfl, eq_next (by decide), rfl⟩

/-- V21a. -/
theorem witness_ErrorsAreAllOrNothing :
    isMacro .unrot = false ∧ (holding nnbaaa 3).err = false ∧
    exec .unrot (holding nnbaaa 3) = .next (after .unrot (holding nnbaaa 3)) ∧
    (after .unrot (holding nnbaaa 3)).err = true :=
  ⟨rfl, rfl, eq_next (by decide +kernel), by decide +kernel⟩

/-- Both ends of the operand range. -/
theorem witness_NopSetbsSetcsResults :
    1 ≤ (1 : BitVec 24).toNat ∧ (1 : BitVec 24).toNat ≤ State.reset.cfg.dcap ∧
    1 ≤ (0xFFFFFF : BitVec 24).toNat ∧ (0xFFFFFF : BitVec 24).toNat ≤ State.reset.cfg.dcap := by decide

/-- A Block of exactly `BLKSIZE` bytes, one byte less with and without the end of the input. -/
theorem witness_LdblkTakesOneBlock :
    { fed banana false with blkSize := 6 }.blkSize.toNat ≤ (fed banana false).inp.length ∧
    (fed banana true).eoi = true ∧
    (fed banana false).inp.length < { fed banana false with blkSize := 7 }.blkSize.toNat ∧
    (fed banana false).eoi = false := by decide

/-- As many Chunks as `RT` holds, and one more. -/
theorem witness_RotSortsTheRotations :
    1 ≤ (tiny [1]).chkSize.toNat ∧ chunkCount (tiny [1]).d (tiny [1]).chkSize.toNat ≤ (tiny [1]).cfg.rtcap ∧
    1 ≤ (tiny [1, 2]).chkSize.toNat ∧
    (tiny [1, 2]).cfg.rtcap < chunkCount (tiny [1, 2]).d (tiny [1, 2]).chkSize.toNat := by decide

/-- V21b and V21c: the largest index in range, and one above it. -/
theorem witness_UnrotWalksTheRows :
    (({ holding nnbaaa 8 with rt := [5] } : State).rt.length = chunkCount nnbaaa 8 ∧
      ∀ i, i < chunkCount nnbaaa 8 →
        (({ holding nnbaaa 8 with rt := [5] } : State).rt.getD i 0).toNat < (chunkAt nnbaaa 8 i).length) ∧
    ¬ (({ holding nnbaaa 8 with rt := [6] } : State).rt.length = chunkCount nnbaaa 8 ∧
      ∀ i, i < chunkCount nnbaaa 8 →
        (({ holding nnbaaa 8 with rt := [6] } : State).rt.getD i 0).toNat < (chunkAt nnbaaa 8 i).length) := by
  decide +kernel

theorem witness_UnrotateRecoversEveryRow : (rotOrder banana)[3]? = some 0 := by decide +kernel

theorem witness_UnrotAfterRotRestoresTheBlock :
    1 ≤ (tiny [1]).chkSize.toNat ∧
    chunkCount (tiny [1]).d (tiny [1]).chkSize.toNat ≤ (tiny [1]).cfg.rtcap := by decide

theorem witness_RankTransformRoundTrips :
    exec .mtfe (holding nnbaaa 8) = .next (after .mtfe (holding nnbaaa 8)) ∧
    exec .mtfd (holding ranks22 8) = .next (after .mtfd (holding ranks22 8)) := ⟨rfl, rfl⟩

theorem witness_MtfeOfAConstantBlock : (holding [0x41, 0x41] 8).d = List.replicate (1 + 1) 0x41 := rfl

theorem witness_HcntCountsSymbols : (holding ranks22 8).d.length < 2 ^ 32 := by decide

/-- A table of three symbols, and one of none. -/
theorem witness_HtreeMergesTheTwoLowest :
    FreqTable.total (countFreqs ranks22) < 2 ^ 32 ∧ buildTree (countFreqs ranks22) ≠ [] ∧
    FreqTable.total State.reset.ft < 2 ^ 32 := by decide +kernel

/-- No leaf, one leaf, more. -/
theorem witness_HcodeEmitsTreePaths :
    ([] : List TreeNode) = buildTree (countFreqs []) ∧
    [TreeNode.leaf 0x61 1] = buildTree (countFreqs [0x61]) ∧
    [TreeNode.leaf 0x61 1, .leaf 0x62 1, .node 2 0 1] = buildTree (countFreqs [0x61, 0x62]) := by
  decide +kernel

theorem witness_CodesOfABlockArePrefixFree :
    (holding ranks22 8).d.length < 2 ^ 32 ∧
    exec .hcnt (holding ranks22 8) = .next (after .hcnt (holding ranks22 8)) ∧
    exec .htree (after .hcnt (holding ranks22 8)) =
      .next (after .htree (after .hcnt (holding ranks22 8))) ∧
    exec .hcode (after .htree (after .hcnt (holding ranks22 8))) =
      .next (after .hcode (after .htree (after .hcnt (holding ranks22 8)))) ∧
    (0x6E : Byte) ∈ (holding ranks22 8).d ∧ (0 : Byte) ∈ (holding ranks22 8).d ∧ (0x6E : Byte) ≠ 0 ∧
    255 ≤ (List.replicate 255 true).length ∧ ranks22.Perm ranks22.reverse :=
  ⟨by decide, rfl, rfl, rfl, by decide, by decide, by decide,
    List.length_replicate.ge, List.reverse_perm _ |>.symm⟩

/-- An empty Block, a byte without a code, and a payload that just fits `P` or does not. -/
theorem witness_HencPacksTheCodes :
    (holding [] 8).d = [] ∧ (∃ b ∈ (holding [1] 8).d, (holding [1] 8).ct.code b = none) ∧
    (∀ b ∈ [(0x61 : Byte)], pair.code b ≠ none) ∧
    ([(0x61 : Byte)].flatMap fun b => (pair.code b).getD []) = [false] ∧ (8 - 1 % 8) % 8 = 7 ∧
    1 + (1 + 7) / 8 ≤ ({ tinyConfig with pcap := 2 } : Config).pcap ∧ tinyConfig.pcap < 1 + (1 + 7) / 8 := by
  decide +kernel

/-- V44, V45, V36: no payload, `pad` 8, `pad` above the bits, a payload that decodes to one byte with room for
it, without room, and with a bit left over. -/
theorem witness_HdecSplitsThePayload :
    pair.Ok ∧ State.reset.p = [] ∧ 7 < (8 : Byte).toNat ∧ 8 * ([] : List Byte).length < (3 : Byte).toNat ∧
    (7 : Byte).toNat ≤ 7 ∧ (7 : Byte).toNat ≤ 8 * ([0] : List Byte).length ∧
    SplitsInto pair ((unpackBits [0]).take (8 * ([0] : List Byte).length - (7 : Byte).toNat)) [0x61] [] ∧
    ([0x61] : List Byte).length ≤ tinyConfig.dcap ∧
    ({ tinyConfig with dcap := 0 } : Config).dcap < ([0x61] : List Byte).length ∧
    SplitsInto (tableOf [(0x61, [false])]) [false, true] [0x61] [true] := by
  refine ⟨witness_pair_ok, rfl, by decide, by decide, by decide, by decide, ⟨?_, ?_, ?_⟩, by decide,
    by decide, ⟨?_, ?_, ?_⟩⟩
  · decide +kernel
  · decide +kernel
  · intro b c h hp
    have h1 := witness_pair_ok.length b c h
    rw [List.prefix_nil.mp hp] at h1
    simp at h1
  · decide +kernel
  · decide +kernel
  · intro b c h hp
    rw [tableOf_code] at h
    simp only [List.reverse_cons, List.reverse_nil, List.nil_append, List.lookup_cons,
      List.lookup_nil] at h
    split at h
    · cases h; revert hp; decide
    · cases h

theorem witness_HdecAfterHencRestoresTheBlock :
    ({ holding [0x61] 8 with ct := pair } : State).ct.Ok ∧
    (holding [0x61] 8).d.length ≤ (holding [0x61] 8).cfg.dcap ∧ (holding [0x61] 8).err = false ∧
    exec .henc { holding [0x61] 8 with ct := pair } = .next (after .henc { holding [0x61] 8 with ct := pair }) ∧
    (after .henc { holding [0x61] 8 with ct := pair }).err = false :=
  ⟨witness_pair_ok, by decide, rfl, eq_next (by decide +kernel), by decide +kernel⟩

theorem witness_CtserWritesAscendingEntries : ({ State.reset with ct := pair } : State).ct.Ok :=
  witness_pair_ok

/-- A region of one entry, the empty region, and a region of one byte, which spells nothing. -/
theorem witness_CtdesAcceptsExactlyTables :
    (Spells (bytes [0x61, 3, 1, 0xA0]) [(0x61, [true, false, true])] ∧
      FormTable [(0x61, [true, false, true])]) ∧
    (Spells [] [] ∧ FormTable []) ∧ ¬ ∃ es, Spells [0x61] es ∧ FormTable es := by
  refine ⟨⟨⟨[0xA0], [], rfl, by decide, by decide, by decide, by decide, rfl⟩, by simp [FormTable]⟩,
    ⟨rfl, by simp [FormTable]⟩, ?_⟩
  rintro ⟨es, hs, -⟩
  cases es with
  | nil => cases hs
  | cons e es =>
    obtain ⟨b, c⟩ := e
    obtain ⟨code, rest, h, -⟩ := hs
    simp at h

theorem witness_CtdesAfterCtserRestoresTheTable :
    ({ State.reset with ct := pair } : State).ct.Ok ∧
    exec .ctser { State.reset with ct := pair } = .next (after .ctser { State.reset with ct := pair }) :=
  ⟨witness_pair_ok, rfl⟩

theorem witness_FrameWritesOneRecord :
    ({ State.reset with seqOvf := true } : State).seqOvf = true ∧
    ({ State.reset with seq := 0xFFFFFFFF } : State).seqOvf = false := by decide

/-- V57, V62, V58, V60, V59: each outcome. -/
theorem witness_DeframeTakesItsOutcome :
    parseRecord Config.default (fed record75 false).inp = .complete 0 [0] (bytes [0x61, 1, 1, 0]) (bytes [7, 0]) 26 ∧
    parseRecord Config.default (bytes [0, 0, 0, 7, 1, 0, 0, 0]) = .oversize 7 ∧
    (parseRecord Config.default [] = .incomplete none ∧ (fed [] true).eoi = true) ∧
    (parseRecord Config.default (record75.take 25) = .incomplete (some 0) ∧ record75.take 25 ≠ []) ∧
    (fed (record75.take 25) false).eoi = false := by decide +kernel

theorem witness_DeframeReadsBackARecord :
    State.reset.cfg.wf = true ∧ ([3] : List Word).length ≤ State.reset.cfg.rtcap ∧
    region40.length ≤ 8960 ∧ payload33.length ≤ State.reset.cfg.pcap ∧
    (fed (record54 ++ [9]) false).inp = recordBytes 0 [3] region40 payload33 ++ [9] := by decide +kernel

/-- The head of a record with the three length fields given, and zeros for what they count. -/
def head (n c p : Nat) (rt cs : List Byte) : List Byte :=
  be32Nat 7 ++ be32Nat n ++ rt ++ be32Nat c ++ cs ++ be32Nat p

/-- The lengths and fields of each clause, at its edges: 3, 4 and 7 bytes; `n` at and above `RTCAP`; `c` at
8960 and above; `p` at `PCAP` and above; a whole record. -/
theorem witness_ParseRecordVerdicts_fields :
    (record75.take 3).length < 4 ∧ 4 ≤ (record75.take 4).length ∧ (record75.take 7).length < 8 ∧
    (8 ≤ (be32Nat 7 ++ be32Nat 2).length ∧ tinyConfig.rtcap < fieldAt (be32Nat 7 ++ be32Nat 2) 4) ∧
    (fieldAt (be32Nat 7 ++ be32Nat 1) 4 ≤ tinyConfig.rtcap ∧
      (be32Nat 7 ++ be32Nat 1).length < 12 + 4 * 1) ∧
    (fieldAt (head 1 8961 0 [0, 0, 0, 0] []) 4 = 1 ∧ 12 + 4 * 1 ≤ (head 1 8961 0 [0, 0, 0, 0] []).length ∧
      8960 < fieldAt (head 1 8961 0 [0, 0, 0, 0] []) (8 + 4 * 1)) ∧
    (fieldAt (head 1 8960 0 [0, 0, 0, 0] []) (8 + 4 * 1) ≤ 8960 ∧
      (head 1 8960 0 [0, 0, 0, 0] []).length < 16 + 4 * 1 + 8960) ∧
    (16 + 4 * 1 + 1 ≤ (head 1 1 2 [0, 0, 0, 0] [5]).length ∧
      tinyConfig.pcap < fieldAt (head 1 1 2 [0, 0, 0, 0] [5]) (12 + 4 * 1 + 1)) ∧
    (fieldAt (head 1 1 1 [0, 0, 0, 0] [5]) (12 + 4 * 1 + 1) ≤ tinyConfig.pcap ∧
      (head 1 1 1 [0, 0, 0, 0] [5]).length < 16 + 4 * 1 + 1 + 1) ∧
    16 + 4 * 1 + 1 + 1 ≤ (head 1 1 1 [0, 0, 0, 0] [5] ++ [6]).length := by decide

/-- A record cut one byte short, and the verdicts that later bytes leave. -/
theorem witness_ParseRecordVerdicts_prefixes :
    Config.default.wf = true ∧ ([0] : List Word).length ≤ Config.default.rtcap ∧
    (bytes [0x61, 1, 1, 0]).length ≤ 8960 ∧ (bytes [7, 0]).length ≤ Config.default.pcap ∧
    25 < (recordBytes 0 [0] (bytes [0x61, 1, 1, 0]) (bytes [7, 0])).length ∧
    record75.take 25 = (recordBytes 0 [0] (bytes [0x61, 1, 1, 0]) (bytes [7, 0])).take 25 ∧
    parseRecord Config.default (bytes [0, 0, 0, 7, 1, 0, 0, 0]) = .oversize 7 ∧
    parseRecord Config.default record75 = .complete 0 [0] (bytes [0x61, 1, 1, 0]) (bytes [7, 0]) 26 := by
  decide +kernel

/-- A present key, no room (in Blocks, in bytes), and just enough room. -/
theorem witness_CollectStoresUnderItsKey :
    Store.wf [(0, [1])] = true ∧ List.lookup (0 : Word) [((0 : Word), [(1 : Byte)])] ≠ none ∧
    Store.wf [] = true ∧ List.lookup (0 : Word) ([] : Store) = none ∧
    (tiny [1]).cfg.rsBlocks < ([] : Store).length + 1 ∧
    ({ tinyConfig with rsBlocks := 1 } : Config).rsBytes <
      (([] : Store).map fun e => e.2.length).sum + (tiny [1]).d.length ∧
    ([] : Store).length + 1 ≤ ({ tinyConfig with rsBlocks := 1, rsBytes := 1 } : Config).rsBlocks ∧
    (([] : Store).map fun e => e.2.length).sum + (tiny [1]).d.length ≤
      ({ tinyConfig with rsBlocks := 1, rsBytes := 1 } : Config).rsBytes := by decide

theorem witness_ConcatPushesInKeyOrder :
    Store.wf [(0, [1]), (3, [2])] = true ∧
    ([((0 : Word), [(1 : Byte)]), (3, [2])] : Store).Perm [(0, [1]), (3, [2])] ∧
    ([((0 : Word), [(1 : Byte)]), (3, [2])] : Store).Pairwise fun x y => x.1.toNat < y.1.toNat := by decide

theorem witness_CollectOrderDoesNotMatter : Store.wf [] = true ∧ (0 : Word) ≠ 1 := by decide

/-- An input that has ended, one Chunk for the one entry of `RT`, a payload of two bytes. -/
theorem witness_CblkCompressesOneBlock :
    let s : State := { State.resetWith { tinyConfig with pcap := 2 } with inp := [0x61], eoi := true }
    (s.blkSize.toNat ≤ s.inp.length ∨ s.eoi = true) ∧
    chunkCount (nextBlock s) s.chkSize.toNat ≤ s.cfg.rtcap ∧
    (payloadFor (blockCodes s) (blockRanks s)).length ≤ s.cfg.pcap ∧ s.seqOvf = false := by
  decide +kernel

theorem witness_CblkEqualsItsNineStages :
    (fed [0x61] true).cur = none ∧ (fed [0x61] true).err = false ∧ (fed [0x61] true).eoi = true ∧
    (fed [0x61] false).cur = none ∧ (fed [0x61] false).err = false ∧
    { fed [0x61] false with blkSize := 1 }.blkSize.toNat ≤ (fed [0x61] false).inp.length ∧
    (fed [0x61] false).inp.length < { fed [0x61] false with blkSize := 2 }.blkSize.toNat ∧
    (fed [0x61] false).eoi = false := by decide

theorem witness_DblkEqualsItsSixStages :
    (fed record75 false).cur = none ∧ (fed record75 false).err = false ∧
    deframeOutcome (fed record75 false) ≠ .wait ∧ deframeOutcome (fed record75 false) ≠ .endOfContainer ∧
    deframeOutcome (fed (record75.take 25) false) = .wait ∧
    (fed [] true).eoi = true ∧ (fed [] true).inp = [] := by decide +kernel

theorem witness_DblkDecodesOneRecord :
    (fed (recordBytes 0 [0] (serializeTable pair) (payloadFor pair [0x61])) true).cfg.wf = true ∧
    1 ≤ State.reset.chkSize.toNat ∧ pair.Ok ∧ (∀ b ∈ [(0x61 : Byte)], pair.code b ≠ none) ∧
    ([0x61] : List Byte).length ≤ State.reset.cfg.dcap ∧ ([0] : List Word).length ≤ State.reset.cfg.rtcap ∧
    (payloadFor pair [0x61]).length ≤ State.reset.cfg.pcap ∧
    rtFits [0] ([0x61] : List Byte).length State.reset.chkSize.toNat = true ∧
    State.reset.rs.lookup 0 = none ∧ State.reset.rs.length + 1 ≤ State.reset.cfg.rsBlocks ∧
    (State.reset.rs.map fun e => e.2.length).sum + ([0x61] : List Byte).length ≤
      State.reset.cfg.rsBytes :=
  ⟨by decide, by decide, witness_pair_ok, by decide +kernel, by decide, by decide, by decide +kernel,
    by decide +kernel, by decide, by decide, by decide⟩

/-- One byte less than a Block, the end of an empty input, and a Block at the end of the input. -/
theorem witness_CompRunsOneBlockAPass :
    1 ≤ (fed [] false).blkSize.toNat ∧ (fed [] false).err = false ∧
    (fed [] false).inp.length < (fed [] false).blkSize.toNat ∧ (fed [] false).eoi = false ∧
    ((fed [] true).eoi = true ∧ (fed [] true).inp = []) ∧
    ((fed [1] true).eoi = true ∧ (fed [1] true).inp ≠ []) := by decide

/-- After the pass that met the end; a record to wait for; a record that is there. -/
theorem witness_DecompRunsOneRecordAPass :
    (after .decomp (fed [] true)).err = false ∧ (after .decomp (fed [] true)).phase = .deframe ∧
    (after .decomp (fed [] true)).eoc = true ∧
    ((fed [] false).err = false ∧ (fed [] false).phase ≠ .deframe ∧ deframeOutcome (fed [] false) = .wait) ∧
    ((fed record75 false).err = false ∧ (fed record75 false).eoc = false ∧
      deframeOutcome (fed record75 false) ≠ .wait) ∧
    (Store.wf [(0, [1]), (3, [2])] = true ∧
      ([((0 : Word), [(1 : Byte)]), (3, [2])] : Store).Perm [(0, [1]), (3, [2])] ∧
      ([((0 : Word), [(1 : Byte)]), (3, [2])] : Store).Pairwise fun x y => x.1.toNat < y.1.toNat) := by
  decide +kernel

theorem witness_CompConsumesTheWholeInput :
    let s : State := { fed [1, 2, 3] true with cmdq := [0x62000000], blkSize := 2 }
    s.cur = none ∧ s.err = false ∧ s.eoi = true ∧ s.cmdq = [0x62000000] ∧ 1 ≤ s.blkSize.toNat ∧
    2 = (s.inp.length + s.blkSize.toNat - 1) / s.blkSize.toNat := by decide

/-- A record cut short, and one that is there. -/
theorem witness_FailedDecompPushesNothing :
    (fed (record75.take 25) true).err = false ∧
    exec .decomp (fed (record75.take 25) true) = .next (after .decomp (fed (record75.take 25) true)) ∧
    (after .decomp (fed (record75.take 25) true)).err = true ∧
    exec .decomp (fed record75 true) = .next (after .decomp (fed record75 true)) ∧
    (after .decomp (fed record75 true)).cur ≠ none :=
  ⟨rfl, eq_next (by decide +kernel), by decide +kernel, eq_next (by decide +kernel), by decide +kernel⟩

theorem witness_BlockRoundTrips :
    SizesOk (fed [0x61] true) ∧ (fed [0x61] true).err = false ∧
    exec .cblk (fed [0x61] true) = .next (after .cblk (fed [0x61] true)) ∧
    (after .cblk (fed [0x61] true)).err = false ∧ (after .cblk (fed [0x61] true)).cur = none ∧
    (after .cblk (fed [0x61] true)).out = (fed [0x61] true).out ++ record75 ∧
    (fed record75 true).cfg = (fed [0x61] true).cfg ∧
    (fed record75 true).chkSize = (fed [0x61] true).chkSize ∧ (fed record75 true).inp = record75 ++ [] ∧
    (fed record75 true).rs.lookup (fed [0x61] true).seq = none ∧
    (fed record75 true).rs.length + 1 ≤ (fed record75 true).cfg.rsBlocks ∧
    ((fed record75 true).rs.map fun e => e.2.length).sum + (nextBlock (fed [0x61] true)).length ≤
      (fed record75 true).cfg.rsBytes :=
  ⟨{ config := by decide, block_size := by decide, chunk_size := by decide, data := by decide
     rotation_table := by decide, serialized := by decide, payload := by decide
     store_blocks := by decide, store_bytes := by decide, read_prefix := by decide
     pushed := by decide },
    rfl, eq_next (by decide +kernel), by decide +kernel, by decide +kernel, by decide +kernel, rfl, rfl,
    by decide, by decide, by decide, by decide⟩

/-- Two cores that differ in what an earlier Block left. -/
theorem witness_NothingCrossesBlocks :
    (exec .cblk (fed [0x61] true) = .next (after .cblk (fed [0x61] true)) ∧
      exec .cblk { fed [0x61] true with ct := pair, d := [1] } =
        .next (after .cblk { fed [0x61] true with ct := pair, d := [1] })) ∧
    (fed record75 true).inp ≠ [] ∧
    exec .dblk (fed record75 true) = .next (after .dblk (fed record75 true)) ∧
    exec .dblk { fed record75 true with ct := pair, d := [1] } =
      .next (after .dblk { fed record75 true with ct := pair, d := [1] }) ∧
    (after .dblk (fed record75 true)).cur = none ∧ (after .dblk (fed record75 true)).err = false ∧
    (after .dblk { fed record75 true with ct := pair, d := [1] }).err = false :=
  ⟨⟨eq_next (by decide +kernel), eq_next (by decide +kernel)⟩, by decide, eq_next (by decide +kernel),
    eq_next (by decide +kernel), by decide +kernel, by decide +kernel, by decide +kernel⟩

theorem witness_LaterInputDoesNotChangeACommand :
    Instr.deframe ≠ .srst ∧ (fed record75 false).eoi = false ∧ 1 ≤ (fed record75 false).blkSize.toNat ∧
    waits .deframe (fed record75 false) = false ∧
    exec .deframe (fed record75 false) = .next (after .deframe (fed record75 false)) :=
  ⟨by decide, rfl, by decide, by decide +kernel, eq_next (by decide +kernel)⟩

theorem witness_HostActionsHaveTheirEffects :
    (fed [] false).eoi = false ∧ (fed [] true).eoi = true ∧
    ({ State.reset with out := [5] } : State).outHead = some 5 ∧ State.reset.outPending = [] := by decide

theorem witness_SequencerStaysConsistent :
    SequencerOk { fed [0x61] true with cmdq := [0x60000000] } ∧
    step { fed [0x61] true with cmdq := [0x60000000] } =
      .next (stepped { fed [0x61] true with cmdq := [0x60000000] }) :=
  ⟨witness_invariant.sequencer, eq_next (by decide +kernel)⟩

theorem witness_StepKeepsTheInvariant :
    Inv { fed [0x61] true with cmdq := [0x60000000] } ∧
    step { fed [0x61] true with cmdq := [0x60000000] } =
      .next (stepped { fed [0x61] true with cmdq := [0x60000000] }) :=
  ⟨witness_invariant, eq_next (by decide +kernel)⟩

theorem witness_HostActionsKeepTheInvariant :
    Inv { fed [0x61] true with cmdq := [0x60000000] } ∧
    hostAct (.issueCmd 0) { fed [0x61] true with cmdq := [0x60000000] } =
      .next { fed [0x61] true with cmdq := [0x60000000, 0] } := ⟨witness_invariant, rfl⟩

theorem witness_CommandsWriteOnlyTheirRow :
    exec .ldblk (fed banana true) = .next (after .ldblk (fed banana true)) ∧ Elem.rs ∉ writes .ldblk :=
  ⟨rfl, by decide⟩

/-- The last record number there is, and a command of each other kind. -/
theorem witness_EveryRecordPushedIsCounted :
    (({ State.reset with seq := 0xFFFFFFFF } : State).seqOvf = true →
      ({ State.reset with seq := 0xFFFFFFFF } : State).seq = 0) ∧
    exec .frame { State.reset with seq := 0xFFFFFFFF } =
      .next (after .frame { State.reset with seq := 0xFFFFFFFF }) ∧
    exec .srst { State.reset with seq := 0xFFFFFFFF } =
      .next (after .srst { State.reset with seq := 0xFFFFFFFF }) ∧
    exec .std { State.reset with seq := 0xFFFFFFFF } =
      .next (after .std { State.reset with seq := 0xFFFFFFFF }) := ⟨nofun, rfl, rfl, rfl⟩

theorem witness_HoldsChangeOnlyCurAndPhase :
    (fed [] false).err = false ∧ waits .decomp (fed [] false) = true ∧
    exec .decomp (fed [] false) = .next (after .decomp (fed [] false)) ∧ (fed [] false).eoc = false :=
  ⟨rfl, by decide, eq_next (by decide), rfl⟩

end Sys2Proof.Tests
end

section
/-! A record of the container, written by `FRAME`, is read back by `DEFRAME` (R96, R99, R202,
R203). -/

namespace Sys2Proof.Machine

/-! ## Fields at an offset (R66, R96) -/

section
variable {b pre post : List Byte} {o : Nat}

/-- The word that stands behind `pre`. -/
theorem u32At_append {v : Word} (hb : b = pre ++ (be32 v ++ post)) (ho : o = pre.length) :
    u32At b o = v := by
  have h : slice (pre ++ (be32 v ++ post)) pre.length (pre.length + 4) = be32 v :=
    slice_append pre (be32 v) post
  rw [hb, ho, u32At, h, unbe32_be32]

/-- The length that stands behind `pre`, where it fits its field. -/
theorem u32At_length_append {n : Nat} (hb : b = pre ++ (be32Nat n ++ post)) (ho : o = pre.length)
    (hn : n < 2 ^ 32) : (u32At b o).toNat = n := by
  rw [u32At_append hb ho, BitVec.toNat_ofNat, Nat.mod_eq_of_lt hn]

theorem length_flatMap_be32 (rt : List Word) : (rt.flatMap be32).length = 4 * rt.length := by
  simp [List.length_flatMap, Nat.mul_comm]

/-- The words that stand one after another behind `pre`. -/
theorem map_u32At_append {rt : List Word} (hb : b = pre ++ (rt.flatMap be32 ++ post))
    (ho : o = pre.length) : ((List.range rt.length).map fun i => u32At b (o + 4 * i)) = rt := by
  refine List.ext_getElem (by simp) fun i _ hi => ?_
  have cut : rt.flatMap be32 =
      (rt.take i).flatMap be32 ++ (be32 rt[i] ++ (rt.drop (i + 1)).flatMap be32) := by
    rw [← List.flatMap_cons, ← List.flatMap_append, List.getElem_cons_drop, List.take_append_drop]
  rw [List.getElem_map, List.getElem_range]
  refine u32At_append (pre := pre ++ (rt.take i).flatMap be32)
    (post := (rt.drop (i + 1)).flatMap be32 ++ post) ?_ ?_
  · rw [hb, cut]; simp only [List.append_assoc]
  · rw [List.length_append, length_flatMap_be32, List.length_take]; omega

/-- The bytes that stand behind `pre` and a length field. -/
theorem slice_field {w m : List Byte} (hb : b = pre ++ (w ++ (m ++ post))) (ho : o = pre.length)
    (hw : w.length = 4) : slice b (o + 4) (o + 4 + m.length) = m := by
  subst hb ho
  simpa [hw] using slice_append (pre ++ w) m post

/-! ## The three parts of `ParseRecord` (R99) -/

/-- The payload field: its length, then the payload. -/
theorem parsePayload_append {cfg : Config} {p : List Byte} (seq : Word) (rt : List Word)
    (cs : List Byte) (hb : b = pre ++ (be32Nat p.length ++ (p ++ post))) (ho : o = pre.length)
    (hp : p.length ≤ cfg.pcap) (hcap : cfg.pcap < 2 ^ 32) :
    parsePayload cfg b seq rt cs o = .complete seq rt cs p (o + 4 + p.length) := by
  have hlen : b.length = o + 4 + p.length + post.length := by
    simp only [hb, ho, List.length_append, be32Nat_length]; omega
  rw [parsePayload, u32At_length_append hb ho (by omega), slice_field hb ho (be32Nat_length _),
    if_neg (by omega), if_neg (by omega), if_neg (by omega)]

/-- The table field: its length, then the region; the payload field follows. -/
theorem parseTable_append {cs : List Byte} (cfg : Config) (seq : Word) (n : Nat)
    (hb : b = pre ++ (be32Nat cs.length ++ (cs ++ post))) (ho : o = pre.length)
    (hcs : cs.length ≤ Config.csCap) :
    parseTable cfg b seq n o = parsePayload cfg b seq
      ((List.range n).map fun i => u32At b (8 + 4 * i)) cs (o + 4 + cs.length) := by
  have hcap : Config.csCap = 8960 := rfl
  have hlen : b.length = o + 4 + cs.length + post.length := by
    simp only [hb, ho, List.length_append, be32Nat_length]; omega
  rw [parseTable, u32At_length_append hb ho (by omega), slice_field hb ho (be32Nat_length _),
    if_neg (by omega), if_neg (by omega)]

/-- The number of a record and of its rotation indices; the table field follows behind these. -/
theorem parseRecord_append {cfg : Config} {seq : Word} {n : Nat}
    (hb : b = be32 seq ++ (be32Nat n ++ post)) (hn : n ≤ cfg.rtcap) (hcap : cfg.rtcap < 2 ^ 32) :
    parseRecord cfg b = parseTable cfg b seq n (8 + 4 * n) := by
  have hlen : b.length = 8 + post.length := by
    simp only [hb, List.length_append, be32_length, be32Nat_length]; omega
  have hseq : u32At b 0 = seq := u32At_append (pre := []) hb rfl
  have hcount : (u32At b 4).toNat = n := u32At_length_append (pre := be32 seq) hb rfl (by omega)
  rw [parseRecord, hseq, hcount, if_neg (by omega), if_neg (by omega), if_neg (by omega)]

end

/-! ## A whole record -/

theorem recordBytes_length (seq : Word) (rt : List Word) (cs p : List Byte) :
    (recordBytes seq rt cs p).length = 16 + 4 * rt.length + cs.length + p.length := by
  simp only [recordBytes, List.length_append, be32_length, be32Nat_length, length_flatMap_be32]
  omega

/-- R96, R99: a record that fits the core is read field by field, whatever follows it. -/
theorem parseRecord_recordBytes {cfg : Config} {rt : List Word} {cs p : List Byte} (seq : Word)
    (tail : List Byte) (hcfg : cfg.wf = true) (hrt : rt.length ≤ cfg.rtcap)
    (hcs : cs.length ≤ Config.csCap) (hp : p.length ≤ cfg.pcap) :
    parseRecord cfg (recordBytes seq rt cs p ++ tail) =
      .complete seq rt cs p (16 + 4 * rt.length + cs.length + p.length) := by
  obtain ⟨hrtcap, hpcap⟩ : cfg.rtcap < 2 ^ 32 ∧ cfg.pcap < 2 ^ 32 := by
    simp only [Config.wf, decide_eq_true_eq] at hcfg; omega
  generalize hb : recordBytes seq rt cs p ++ tail = b
  simp only [recordBytes, List.append_assoc] at hb
  have htable := parseTable_append (pre := be32 seq ++ be32Nat rt.length ++ rt.flatMap be32)
    (b := b) (o := 8 + 4 * rt.length) (post := be32Nat p.length ++ (p ++ tail)) cfg seq rt.length
    (by simp only [← hb, List.append_assoc])
    (by simp only [List.length_append, be32_length, be32Nat_length, length_flatMap_be32]) hcs
  have hwords : ((List.range rt.length).map fun i => u32At b (8 + 4 * i)) = rt :=
    map_u32At_append (pre := be32 seq ++ be32Nat rt.length)
      (post := be32Nat cs.length ++ (cs ++ (be32Nat p.length ++ (p ++ tail))))
      (by simp only [← hb, List.append_assoc]) rfl
  have hpayload := parsePayload_append (b := b) (o := 8 + 4 * rt.length + 4 + cs.length)
    (pre := be32 seq ++ be32Nat rt.length ++ rt.flatMap be32 ++ be32Nat cs.length ++ cs)
    (post := tail) seq rt cs (by simp only [← hb, List.append_assoc])
    (by simp only [List.length_append, be32_length, be32Nat_length, length_flatMap_be32]) hp hpcap
  rw [parseRecord_append hb.symm hrt hrtcap, htable, hwords, hpayload]
  congr 1; omega

end Sys2Proof.Machine
end

section
/-! The Rank and the Rotation Transform are undone by their inverses (R136, R154). -/

namespace Sys2Proof.Machine

/-! ## Rank Transform (R150 to R154) -/

/-- The byte at its own index. -/
theorem getD_idxOf {ml : List Byte} {b : Byte} (h : b ∈ ml) : ml.getD (ml.idxOf b) 0 = b := by
  rw [List.getD_eq_getElem _ _ (List.idxOf_lt_length_of_mem h), List.getElem_idxOf]

/-- The index of a byte fits a byte. -/
theorem toNat_idxOf {ml : List Byte} (h : ml.Perm identityList) (b : Byte) :
    (BitVec.ofNat 8 (ml.idxOf b)).toNat = ml.idxOf b := by
  have hlt := List.idxOf_lt_length_of_mem (mem_of_perm_identity h b)
  rw [h.length_eq, identityList_length] at hlt
  rw [BitVec.toNat_ofNat, Nat.mod_eq_of_lt hlt]

/-- R154: the ranks decode to the bytes they were made of, and leave the same list. -/
theorem mtfDecode_mtfEncode {ml : List Byte} (h : ml.Perm identityList) (bs : List Byte) :
    mtfDecode ml (mtfEncode ml bs).1 = (bs, (mtfEncode ml bs).2) := by
  induction bs generalizing ml with
  | nil => rfl
  | cons b bs ih =>
    have ih := ih ((mtfFront_perm ml (ml.idxOf b)).trans h)
    simp only [mtfEncode, mtfDecode, toNat_idxOf h, ih, getD_idxOf (mem_of_perm_identity h b)]

/-! ## One Chunk (R131 to R136)

The rows of the sorted matrix of a Chunk are its rotations. Sorting the rows rotated back by one
byte gives the matrix again, and that is what the stable order of the last column does; so one step
of the walk rotates its row by one byte. -/

theorem rot_eq_rotate {c : List Byte} {k : Nat} (h : k ≤ c.length) : rot c k = c.rotate k :=
  (List.rotate_eq_drop_append_take h).symm

/-- The offset before `k`, cyclically. -/
def offsetBefore (c : List Byte) (k : Nat) : Nat := (k + c.length - 1) % c.length

theorem offsetBefore_lt {c : List Byte} {k : Nat} (h : k < c.length) :
    offsetBefore c k < c.length := Nat.mod_lt _ (by omega)

/-- The rotation at the offset before is the rotation with its last byte moved to the front. -/
theorem rot_eq_tail_append {c : List Byte} {k : Nat} (h : k < c.length) :
    ∃ x, rot c (offsetBefore c k) = c.getD (offsetBefore c k) 0 :: x ∧
      rot c k = x ++ [c.getD (offsetBefore c k) 0] := by
  have hlt := offsetBefore_lt h
  refine ⟨(rot c (offsetBefore c k)).tail, ?_, ?_⟩
  · rw [List.getD_eq_getElem _ _ hlt, rot, List.drop_eq_getElem_cons hlt]; rfl
  · have hk : (c.rotate (offsetBefore c k)).rotate 1 = c.rotate k := by
      rw [List.rotate_rotate, offsetBefore, ← List.rotate_mod, Nat.mod_add_mod,
        show k + c.length - 1 + 1 = k + c.length by omega, Nat.add_mod_right, List.rotate_mod]
    rw [rot_eq_rotate h.le, ← hk, ← rot_eq_rotate hlt.le, List.getD_eq_getElem _ _ hlt, rot,
      List.drop_eq_getElem_cons hlt, List.cons_append, List.rotate_cons_succ, List.rotate_zero,
      List.tail_cons]

/-- Lexicographic order of sequences of equal length does not look behind the first difference. -/
theorem append_lt_append {x y : List Nat} (h : x < y) (hl : x.length = y.length) (s t : List Nat) :
    x ++ s < y ++ t := by
  induction x generalizing y with
  | nil => cases y with
    | nil => exact absurd h (lt_irrefl _)
    | cons => cases hl
  | cons a x ih => cases y with
    | nil => cases hl
    | cons b y =>
      simp only [List.cons_append, List.cons_lt_cons_iff] at h ⊢
      exact h.imp_right fun ⟨hab, hxy⟩ => ⟨hab, ih hxy (by simpa using hl)⟩

/-- Rows that end in the same byte keep their order when that byte moves to their front. -/
theorem cons_le_cons_of_append_le {x y : List Nat} {a : Nat} (hl : x.length = y.length)
    (h : x ++ [a] ≤ y ++ [a]) : a :: x ≤ a :: y := by
  rw [← not_lt] at h ⊢
  intro hlt
  rw [List.cons_lt_cons_iff] at hlt
  rcases hlt with hlt | ⟨-, hlt⟩
  · exact lt_irrefl _ hlt
  · exact h (append_lt_append hlt hl.symm _ _)

theorem rotKey_le_of_rotLe {c : List Byte} {j k : Nat} (h : rotLe c j k) :
    rotKey c j ≤ rotKey c k :=
  h.elim le_of_lt fun h => h.1.le

/-- The last column of the sorted matrix, entry by entry (R131). -/
theorem rotate_getD (c : List Byte) {i : Nat} (hi : i < c.length) :
    (rotate c).2.getD i 0 = c.getD (offsetBefore c ((rotOrder c).getD i 0)) 0 := by
  have hi' : i < (rotOrder c).length := by simpa using hi
  rw [List.getD_eq_getElem _ _ (by simpa using hi), List.getD_eq_getElem _ _ hi']
  simp [rotate, offsetBefore]

theorem rotOrder_getD_lt (c : List Byte) {i : Nat} (hi : i < c.length) :
    (rotOrder c).getD i 0 < c.length := by
  have hi' : i < (rotOrder c).length := by simpa using hi
  rw [List.getD_eq_getElem _ _ hi', ← List.mem_range]
  exact (rotOrder_perm c).subset (List.getElem_mem hi')

/-- The matrix whose row `i` is row `rows[i]` of the sorted matrix rotated back by one byte. -/
def steppedRows (c : List Byte) : List (List Nat) :=
  (nextRow (rotate c).2).map fun i => rotKey c (offsetBefore c ((rotOrder c).getD i 0))

theorem map_offsetBefore_range (c : List Byte) :
    ((List.range c.length).map (offsetBefore c)).Perm (List.range c.length) := by
  unfold offsetBefore
  cases c.length with
  | zero => exact .refl _
  | succ m =>
    have h : (List.range (m + 1)).map (fun k => (k + (m + 1) - 1) % (m + 1)) =
        m :: List.range m := by
      rw [List.range_succ_eq_map, List.map_cons, List.map_map]
      congr 1
      · simp
      · refine (List.map_congr_left fun k hk => ?_).trans (List.map_id _)
        have := List.mem_range.mp hk
        simp only [Function.comp_apply, id_eq]
        rw [show k.succ + (m + 1) - 1 = k + (m + 1) by omega, Nat.add_mod_right,
          Nat.mod_eq_of_lt (by omega)]
    rw [h, List.range_succ]
    exact (List.perm_append_singleton _ _).symm

/-- The stepped rows are all rotations of the Chunk. -/
theorem steppedRows_perm (c : List Byte) :
    (steppedRows c).Perm ((rotOrder c).map (rotKey c)) := by
  have hrows : (nextRow (rotate c).2).Perm (List.range (rotOrder c).length) := by
    simpa using nextRow_perm (rotate c).2
  have hget : (List.range (rotOrder c).length).map ((rotOrder c).getD · 0) = rotOrder c :=
    List.ext_getElem (by simp) fun i _ hi => by
      rw [List.getElem_map, List.getElem_range, List.getD_eq_getElem]
  calc steppedRows c
      _ |>.Perm ((List.range (rotOrder c).length).map
          fun i => rotKey c (offsetBefore c ((rotOrder c).getD i 0))) := hrows.map _
      _ = (rotOrder c).map fun k => rotKey c (offsetBefore c k) := by
          conv_rhs => rw [← hget, List.map_map]
          rfl
      _ |>.Perm ((List.range c.length).map fun k => rotKey c (offsetBefore c k)) :=
          (rotOrder_perm c).map _
      _ = ((List.range c.length).map (offsetBefore c)).map (rotKey c) := by rw [List.map_map]; rfl
      _ |>.Perm ((rotOrder c).map (rotKey c)) :=
          ((map_offsetBefore_range c).trans (rotOrder_perm c).symm).map _

/-- A later row of the sorted matrix is not less than an earlier one. -/
theorem rotKey_getD_mono (c : List Byte) {i j : Nat} (hij : i ≤ j) (hj : j < c.length) :
    rotKey c ((rotOrder c).getD i 0) ≤ rotKey c ((rotOrder c).getD j 0) := by
  have hj : j < (rotOrder c).length := by simpa using hj
  rcases Nat.eq_or_lt_of_le hij with rfl | hij
  · exact le_rfl
  · rw [List.getD_eq_getElem _ _ (by omega), List.getD_eq_getElem _ _ hj]
    exact rotKey_le_of_rotLe
      (List.pairwise_iff_getElem.mp (rotOrder_sorted c) _ _ (by omega) hj hij)

/-- The stepped rows stand in ascending order. -/
theorem steppedRows_sorted (c : List Byte) : (steppedRows c).Pairwise (· ≤ ·) := by
  rw [steppedRows, List.pairwise_map]
  refine (nextRow_sorted _).imp_of_mem fun {i j} hi hj hij => ?_
  have hi : i < c.length := by simpa using (nextRow_perm _).subset hi
  have hj : j < c.length := by simpa using (nextRow_perm _).subset hj
  obtain ⟨x, hx, hx'⟩ := rot_eq_tail_append (rotOrder_getD_lt c hi)
  obtain ⟨y, hy, hy'⟩ := rot_eq_tail_append (rotOrder_getD_lt c hj)
  have hlen : x.length = y.length := by
    have hcx := congrArg List.length hx
    have hcy := congrArg List.length hy
    simp only [rot_length, List.length_cons] at hcx hcy; omega
  rw [← rotate_getD c hi] at hx hx'
  rw [← rotate_getD c hj] at hy hy'
  simp only [rotKey, hx, hy, List.map_cons]
  rcases hij with hlt | ⟨heq, hle⟩
  · exact (List.cons_lt_cons_iff.mpr (.inl hlt)).le
  · have hrows : rotKey c ((rotOrder c).getD i 0) ≤ rotKey c ((rotOrder c).getD j 0) :=
      rotKey_getD_mono c hle hj
    simp only [rotKey, hx', hy', heq, List.map_append, List.map_cons, List.map_nil] at hrows
    rw [heq]
    exact cons_le_cons_of_append_le (by simpa using hlen) hrows

/-- The stepped rows are the sorted rows. -/
theorem steppedRows_eq (c : List Byte) : steppedRows c = (rotOrder c).map (rotKey c) :=
  (steppedRows_perm c).eq_of_pairwise (fun _ _ _ _ => le_antisymm) (steppedRows_sorted c)
    (List.pairwise_map.mpr ((rotOrder_sorted c).imp rotKey_le_of_rotLe))

/-- One step of the walk: the row at `rows[i]` is row `i` with its first byte moved to the end, and
that byte is the one emitted (R134). -/
theorem rot_nextRow {c : List Byte} {i : Nat} (hi : i < c.length) :
    ∃ x, (nextRow (rotate c).2).getD i 0 < c.length ∧
      rot c ((rotOrder c).getD i 0) =
        (rotate c).2.getD ((nextRow (rotate c).2).getD i 0) 0 :: x ∧
      rot c ((rotOrder c).getD ((nextRow (rotate c).2).getD i 0) 0) =
        x ++ [(rotate c).2.getD ((nextRow (rotate c).2).getD i 0) 0] := by
  have hi' : i < (nextRow (rotate c).2).length := by simpa using hi
  have hn : (nextRow (rotate c).2).getD i 0 < c.length := by
    rw [List.getD_eq_getElem _ _ hi']
    simpa using (nextRow_perm _).subset (List.getElem_mem hi')
  have hkey : rotKey c (offsetBefore c ((rotOrder c).getD ((nextRow (rotate c).2).getD i 0) 0)) =
      rotKey c ((rotOrder c).getD i 0) := by
    have h := congrArg (fun l => l.getD i []) (steppedRows_eq c)
    simp only [steppedRows] at h
    rw [List.getD_eq_getElem _ _ (by simpa using hi), List.getD_eq_getElem _ _ (by simpa using hi),
      List.getElem_map, List.getElem_map] at h
    rw [List.getD_eq_getElem _ _ hi', h, List.getD_eq_getElem]
  have hrot := List.map_injective_iff.mpr (fun _ _ h => BitVec.eq_of_toNat_eq h) hkey
  obtain ⟨x, hx, hx'⟩ := rot_eq_tail_append (rotOrder_getD_lt c hn)
  rw [← rotate_getD c hn] at hx hx'
  exact ⟨x, hn, hrot.symm.trans hx, hx'⟩

/-- The walk from row `i` emits that row's rotation, byte by byte (R136). -/
theorem unrotateFrom_rotate {c : List Byte} (m : Nat) {i : Nat} (hi : i < c.length)
    (hm : m ≤ c.length) :
    unrotateFrom (rotate c).2 (nextRow (rotate c).2) m i =
      (rot c ((rotOrder c).getD i 0)).take m := by
  induction m generalizing i with
  | zero => rfl
  | succ m ih =>
    obtain ⟨x, hn, hrow, hnext⟩ := rot_nextRow hi
    have hxl : m ≤ x.length := by
      have := congrArg List.length hrow
      simp only [rot_length, List.length_cons] at this; omega
    rw [unrotateFrom, ih hn (by omega), hnext, hrow, List.take_append_of_le_length hxl,
      List.take_succ_cons]

/-- R136: the inverse recovers the rotation that stands in the row it starts from. -/
theorem unrotate_rotate {c : List Byte} {i k : Nat} (h : (rotOrder c)[i]? = some k) :
    unrotate i (rotate c).2 = rot c k := by
  obtain ⟨hi, rfl⟩ := List.getElem?_eq_some_iff.mp h
  have hi' : i < c.length := by simpa using hi
  rw [unrotate, rotate_length, unrotateFrom_rotate _ hi' le_rfl, List.getD_eq_getElem _ _ hi,
    List.take_of_length_le (by simp)]

/-- The row `rotate` names is the Chunk's own (R131). -/
theorem rotOrder_rotate_fst {c : List Byte} (hc : c ≠ []) :
    (rotOrder c)[(rotate c).1]? = some 0 := by
  have h0 : 0 ∈ rotOrder c :=
    (rotOrder_perm c).symm.subset (List.mem_range.mpr (List.length_pos_of_ne_nil hc))
  have hlt := List.idxOf_lt_length_of_mem h0
  rw [rotate, List.getElem?_eq_getElem hlt, List.getElem_idxOf hlt]

theorem rotate_fst_lt {c : List Byte} (hc : c ≠ []) : (rotate c).1 < c.length := by
  simpa using (List.getElem?_eq_some_iff.mp (rotOrder_rotate_fst hc)).1

/-- R136: the inverse from the row `rotate` names recovers the Chunk. -/
theorem unrotate_rotate_fst (c : List Byte) : unrotate (rotate c).1 (rotate c).2 = c := by
  by_cases hc : c = []
  · subst hc; rfl
  · rw [unrotate_rotate (rotOrder_rotate_fst hc)]; simp [rot]

/-! ## All Chunks of a Block (R130, R133, R135) -/

theorem le_nch_mul {l c : Nat} (hc : 1 ≤ c) : l ≤ nch l c * c := by
  have h1 := Nat.div_add_mod (l + c - 1) c
  have h2 := Nat.mod_lt (l + c - 1) hc
  rw [Nat.mul_comm] at h1
  rw [nch, ceilDiv]; omega

theorem mul_lt_of_lt_nch {l c i : Nat} (h : i < nch l c) : i * c < l := by
  have hle : (i + 1) * c ≤ l + c - 1 :=
    (Nat.mul_le_mul_right c h).trans (Nat.div_mul_le_self _ _)
  have hc : c ≠ 0 := fun h0 => by simp [nch, ceilDiv, h0] at h
  rw [Nat.add_mul, Nat.one_mul] at hle; omega

/-- Pieces of the Chunks' lengths, the first `m` of them. -/
theorem length_flatMap_pieces {l c : Nat} {g : Nat → List Byte}
    (hg : ∀ i, (g i).length = clen l c i) (m : Nat) :
    ((List.range m).flatMap g).length = min (m * c) l := by
  induction m with
  | zero => simp
  | succ m ih =>
    have hm : (m + 1) * c = m * c + c := by rw [Nat.add_mul, Nat.one_mul]
    rw [List.range_succ, List.flatMap_append, List.length_append, ih, List.flatMap_singleton, hg,
      clen, hm]
    omega

/-- Chunk `i` of pieces that have the Chunks' lengths is piece `i`. -/
theorem chunk_flatMap_pieces {l c n i : Nat} {g : Nat → List Byte}
    (hg : ∀ i, (g i).length = clen l c i) (hn : l ≤ n * c) (hi : i < n) (hil : i * c ≤ l) :
    chunk ((List.range n).flatMap g) c i = g i := by
  have hl : ((List.range n).flatMap g).length = l := by
    rw [length_flatMap_pieces hg, Nat.min_eq_right hn]
  have hpre : ((List.range i).flatMap g).length = i * c := by
    rw [length_flatMap_pieces hg, Nat.min_eq_left hil]
  obtain ⟨r, rfl⟩ := Nat.exists_eq_add_of_le (show i + 1 ≤ n by omega)
  rw [chunk, hl, List.range_add, List.range_succ, List.flatMap_append, List.flatMap_append,
    List.flatMap_singleton, List.append_assoc, ← hpre,
    show min ((i + 1) * c) l = ((List.range i).flatMap g).length + (g i).length by
      rw [hpre, hg, clen, Nat.add_mul, Nat.one_mul]; omega]
  exact slice_append _ _ _

/-- The Chunks of a Block together are the Block (R130). -/
theorem flatMap_chunk (d : List Byte) (c m : Nat) :
    (List.range m).flatMap (chunk d c) = d.take (m * c) := by
  induction m with
  | zero => simp
  | succ m ih =>
    rw [List.range_succ, List.flatMap_append, ih, List.flatMap_singleton, chunk_eq, Nat.add_mul,
      Nat.one_mul, List.take_add]

/-- The rotated Chunks of a Block, one after another (R133). -/
theorem rotateChunks_flatMap_snd (d : List Byte) (c : Nat) :
    (rotateChunks d c).flatMap Prod.snd =
      (List.range (nch d.length c)).flatMap fun i => (rotate (chunk d c i)).2 := by
  rw [rotateChunks, List.flatMap_map]

theorem length_rotate_chunk (d : List Byte) (c i : Nat) :
    (rotate (chunk d c i)).2.length = clen d.length c i := by
  rw [rotate_length, chunk_length]

/-- `ROT` keeps the length of the Block. -/
theorem rotateChunks_length {c : Nat} (hc : 1 ≤ c) (d : List Byte) :
    ((rotateChunks d c).flatMap Prod.snd).length = d.length := by
  rw [rotateChunks_flatMap_snd, length_flatMap_pieces (length_rotate_chunk d c),
    Nat.min_eq_right (le_nch_mul hc)]

theorem chunk_ne_nil {d : List Byte} {c i : Nat} (hc : 1 ≤ c) (hi : i < nch d.length c) :
    chunk d c i ≠ [] := by
  have hlt := mul_lt_of_lt_nch hi
  have hm : (i + 1) * c = i * c + c := by rw [Nat.add_mul, Nat.one_mul]
  rw [← List.length_pos_iff, chunk_length, clen, hm]; omega

/-- The row index `RT` holds for Chunk `i` is the one `rotate` names: it fits 32 bits (R33,
R133). -/
theorem rowWord_toNat {d : List Byte} {c i : Nat} (hc : 1 ≤ c) (hc32 : c < 2 ^ 32)
    (hi : i < nch d.length c) :
    (((rotateChunks d c).map rowWord).getD i 0).toNat = (rotate (chunk d c i)).1 := by
  have hlt := rotate_fst_lt (chunk_ne_nil hc hi)
  have hm : (i + 1) * c = i * c + c := by rw [Nat.add_mul, Nat.one_mul]
  rw [chunk_length, clen, hm] at hlt
  rw [List.getD_eq_getElem _ _ (by simpa [rotateChunks] using hi)]
  simp only [rotateChunks, List.getElem_map, List.getElem_range, rowWord, BitVec.toNat_ofNat]
  exact Nat.mod_eq_of_lt (by omega)

/-- R135: the indices `ROT` writes fit the Block. -/
theorem rtFits_rotateChunks {c : Nat} (hc : 1 ≤ c) (hc32 : c < 2 ^ 32) (d : List Byte) :
    rtFits ((rotateChunks d c).map rowWord) d.length c = true := by
  simp only [rtFits, Bool.and_eq_true, decide_eq_true_eq, List.all_eq_true, List.mem_range]
  refine ⟨by simp [rotateChunks], fun i hi => ?_⟩
  rw [rowWord_toNat hc hc32 hi, ← chunk_length]
  exact rotate_fst_lt (chunk_ne_nil hc hi)

/-- R136: the inverse of every Chunk of what `ROT` writes is the Block. -/
theorem unrotateChunks_rotateChunks {c : Nat} (hc : 1 ≤ c) (hc32 : c < 2 ^ 32) (d : List Byte) :
    unrotateChunks ((rotateChunks d c).map rowWord) ((rotateChunks d c).flatMap Prod.snd) c =
      d := by
  have hcover : d.length ≤ nch d.length c * c := le_nch_mul hc
  have hchunks : ∀ i ∈ List.range (nch d.length c),
      unrotate (((rotateChunks d c).map rowWord).getD i 0).toNat
        (chunk ((rotateChunks d c).flatMap Prod.snd) c i) = chunk d c i := by
    intro i hi
    have hi := List.mem_range.mp hi
    rw [rowWord_toNat hc hc32 hi, rotateChunks_flatMap_snd,
      chunk_flatMap_pieces (length_rotate_chunk d c) hcover hi (mul_lt_of_lt_nch hi).le,
      unrotate_rotate_fst]
  rw [unrotateChunks, rotateChunks_length hc, List.flatMap_def, List.map_congr_left hchunks,
    ← List.flatMap_def, flatMap_chunk, List.take_of_length_le hcover]

end Sys2Proof.Machine
end

section
/-! The codes of a Block's tree: `HTREE` merges its leaves into one tree, and the paths of a tree
are codes of which none begins another (R41, R161 to R166). -/

namespace Sys2Proof.Machine

/-! ## The table that a list of assignments leaves (R41) -/

/-- Where every symbol stands once, looking it up finds its entry. -/
theorem lookup_eq_some_iff_mem {es : List (Byte × Bits)} (h : (es.map Prod.fst).Nodup) {b : Byte}
    {c : Bits} : es.lookup b = some c ↔ (b, c) ∈ es := by
  induction es with
  | nil => simp
  | cons e es ih =>
    obtain ⟨eb, ec⟩ := e
    obtain ⟨hnot, hnd⟩ := List.nodup_cons.mp h
    rw [List.lookup_cons, List.mem_cons, Prod.mk.injEq]
    by_cases hb : b = eb
    · subst hb
      have hmem : (b, c) ∉ es := fun hm => hnot (List.mem_map.mpr ⟨_, hm, rfl⟩)
      simp [hmem, eq_comm]
    · rw [← ih hnd, beq_false_of_ne hb]
      simp [hb]

/-- Where every symbol stands once, the table holds exactly the assignments. -/
theorem tableOf_code_eq_some {es : List (Byte × Bits)} (h : (es.map Prod.fst).Nodup) {b : Byte}
    {c : Bits} : (tableOf es).code b = some c ↔ (b, c) ∈ es := by
  rw [tableOf_code, lookup_eq_some_iff_mem (by simpa [List.map_reverse] using h), List.mem_reverse]

theorem prefixFree_iff (es : List (Byte × Bits)) :
    prefixFree es = true ↔ es.Pairwise fun a b => ¬ a.2 <+: b.2 ∧ ¬ b.2 <+: a.2 := by
  rw [prefixFree, decide_eq_true_iff]

/-- Two different assignments of which none begins another. -/
theorem not_isPrefix_of_prefixFree {es : List (Byte × Bits)} (h : prefixFree es = true)
    {x y : Byte × Bits} (hx : x ∈ es) (hy : y ∈ es) (hxy : x ≠ y) : ¬ x.2 <+: y.2 := by
  have symm : Std.Symm fun a b : Byte × Bits => ¬ a.2 <+: b.2 ∧ ¬ b.2 <+: a.2 :=
    ⟨fun _ _ h => h.symm⟩
  exact (((prefixFree_iff es).mp h).forall hx hy hxy).1

/-- Assignments of codes of 1 to 255 bits, of which none begins another, make a Code Table (R41). -/
theorem tableOf_ok {es : List (Byte × Bits)} (hnd : (es.map Prod.fst).Nodup)
    (hfree : prefixFree es = true) (hlen : ∀ e ∈ es, 1 ≤ e.2.length ∧ e.2.length ≤ 255) :
    (tableOf es).Ok where
  length b c h := hlen (b, c) ((tableOf_code_eq_some hnd).mp h)
  prefix_free _ _ _ _ hb h1 h2 :=
    not_isPrefix_of_prefixFree hfree ((tableOf_code_eq_some hnd).mp h1)
      ((tableOf_code_eq_some hnd).mp h2) fun h => hb (Prod.mk.inj h).1

/-! ## Trees and their paths (R165) -/

/-- A binary tree with a symbol at every leaf. -/
inductive CodeTree where
  | leaf (b : Byte)
  | node (left right : CodeTree)

namespace CodeTree

/-- The symbols at the leaves, from left to right. -/
def symbols : CodeTree → List Byte
  | leaf b => [b]
  | node l r => l.symbols ++ r.symbols

/-- Every symbol with the edges that lead to its leaf: left is 0, right is 1. -/
def paths : CodeTree → List (Byte × Bits)
  | leaf b => [(b, [])]
  | node l r =>
    (l.paths.map fun e => (e.1, false :: e.2)) ++ r.paths.map fun e => (e.1, true :: e.2)

theorem map_fst_paths (t : CodeTree) : t.paths.map Prod.fst = t.symbols := by
  induction t with
  | leaf b => rfl
  | node l r hl hr => simp only [paths, symbols, List.map_append, List.map_map, ← hl, ← hr]; rfl

theorem symbols_length_pos (t : CodeTree) : 1 ≤ t.symbols.length := by
  induction t with
  | leaf b => exact le_rfl
  | node l r hl hr => simp only [symbols, List.length_append]; omega

/-- A path is shorter than the tree has leaves. -/
theorem path_length_lt (t : CodeTree) : ∀ e ∈ t.paths, e.2.length < t.symbols.length := by
  induction t with
  | leaf b => simp [paths, symbols]
  | node l r hl hr =>
    have hlpos := l.symbols_length_pos
    have hrpos := r.symbols_length_pos
    simp only [paths, symbols, List.mem_append, List.mem_map, List.length_append]
    rintro _ (⟨e, he, rfl⟩ | ⟨e, he, rfl⟩) <;> simp only [List.length_cons]
    · have := hl e he; omega
    · have := hr e he; omega

/-- A path in a tree of two or more leaves has an edge. -/
theorem path_length_pos {t : CodeTree} (h : 2 ≤ t.symbols.length) :
    ∀ e ∈ t.paths, 1 ≤ e.2.length := by
  cases t with
  | leaf b => simp [symbols] at h
  | node l r =>
    simp only [paths, List.mem_append, List.mem_map]
    rintro _ (⟨e, -, rfl⟩ | ⟨e, -, rfl⟩) <;> simp

/-- No path begins another: two paths part at the node where their leaves do (R166). -/
theorem prefixFree_paths (t : CodeTree) : prefixFree t.paths = true := by
  rw [prefixFree_iff]
  induction t with
  | leaf b => exact List.pairwise_singleton _ _
  | node l r hl hr =>
    rw [paths, List.pairwise_append, List.pairwise_map, List.pairwise_map]
    refine ⟨hl.imp ?_, hr.imp ?_, ?_⟩
    · simp only [List.cons_prefix_cons, true_and, imp_self, implies_true]
    · simp only [List.cons_prefix_cons, true_and, imp_self, implies_true]
    · simp only [List.mem_map]
      rintro _ ⟨x, -, rfl⟩ _ ⟨y, -, rfl⟩
      simp [List.cons_prefix_cons]

end CodeTree

/-! ## Trees in the arena (R40) -/

/-- Arena node `i` is the root of the tree `t`, each node's children below it. -/
inductive ArenaTree (tr : List TreeNode) : Nat → CodeTree → Prop
  | leaf {i : Nat} {b : Byte} {f : Word} (h : tr[i]? = some (.leaf b f)) : ArenaTree tr i (.leaf b)
  | node {i l r : Nat} {f : Word} {left right : CodeTree} (h : tr[i]? = some (.node f l r))
      (hl : l < i) (hr : r < i) (left_ok : ArenaTree tr l left) (right_ok : ArenaTree tr r right) :
      ArenaTree tr i (.node left right)

theorem ArenaTree.lt_length {tr : List TreeNode} {i : Nat} {t : CodeTree} (h : ArenaTree tr i t) :
    i < tr.length := by
  cases h with
  | leaf h => exact (List.getElem?_eq_some_iff.mp h).1
  | node h => exact (List.getElem?_eq_some_iff.mp h).1

/-- A new node at the arena's end changes no tree in it. -/
theorem ArenaTree.append {tr : List TreeNode} {i : Nat} {t : CodeTree} (h : ArenaTree tr i t)
    (new : List TreeNode) : ArenaTree (tr ++ new) i t := by
  induction h with
  | leaf h =>
    exact .leaf ((List.getElem?_append_left (List.getElem?_eq_some_iff.mp h).1).trans h)
  | node h hl hr _ _ ihl ihr =>
    exact .node ((List.getElem?_append_left (List.getElem?_eq_some_iff.mp h).1).trans h) hl hr
      ihl ihr

/-- `walk` from a tree's root assigns the tree's paths, behind the path to the root (R165). -/
theorem ArenaTree.walk_eq {tr : List TreeNode} {i : Nat} {t : CodeTree} (h : ArenaTree tr i t)
    {fuel : Nat} (hf : i < fuel) (path : Bits) :
    walk tr fuel i path = t.paths.map fun e => (e.1, path ++ e.2) := by
  induction h generalizing fuel path with
  | leaf h =>
    obtain ⟨fuel, rfl⟩ := Nat.exists_eq_add_of_lt hf
    simp [walk, h, CodeTree.paths]
  | node h hl hr _ _ ihl ihr =>
    obtain ⟨fuel, rfl⟩ := Nat.exists_eq_add_of_lt hf
    rw [walk]
    simp only [h]
    rw [ihl (by omega), ihr (by omega)]
    simp [CodeTree.paths, Function.comp_def]

/-! ## The merging loop (R162, R163) -/

theorem mem_of_lowest {nodes : List TreeNode} {live : List Nat} {a : Nat}
    (h : lowest nodes live = some a) : a ∈ live := by
  induction live generalizing a with
  | nil => cases h
  | cons i live ih =>
    rw [lowest] at h
    cases hj : lowest nodes live with
    | none =>
      obtain rfl : i = a := by simpa [hj] using h
      exact List.mem_cons_self
    | some j =>
      simp only [hj] at h
      split_ifs at h
      · obtain rfl := Option.some.inj h
        exact List.mem_cons_self
      · exact List.mem_cons_of_mem _ (ih (hj.trans h))

theorem lowest_eq_none {nodes : List TreeNode} {live : List Nat} :
    lowest nodes live = none ↔ live = [] := by
  cases live with
  | nil => exact iff_of_true rfl rfl
  | cons i live =>
    refine iff_of_false ?_ (List.cons_ne_nil _ _)
    rw [lowest]
    cases lowest nodes live with
    | none => nofun
    | some j => simp only; split_ifs <;> nofun

/-- What the merging loop keeps: each live node is the root of a tree, these trees have the symbols
`syms` at their leaves, and the youngest node is live and stands last. -/
structure Forest (nodes : List TreeNode) (live : List Nat) (tree : Nat → CodeTree)
    (syms : List Byte) : Prop where
  trees : ∀ i ∈ live, ArenaTree nodes i (tree i)
  symbols : (live.flatMap fun i => (tree i).symbols).Perm syms
  last : live.getLast? = some (nodes.length - 1)

/-- One merge keeps the forest. -/
theorem Forest.merge {nodes : List TreeNode} {live : List Nat} {tree : Nat → CodeTree}
    {syms : List Byte} (h : Forest nodes live tree syms) {a b : Nat} (ha : a ∈ live)
    (hb : b ∈ live.erase a) (f : Word) :
    Forest (nodes ++ [.node f a b]) ((live.erase a).erase b ++ [nodes.length])
      (Function.update tree nodes.length (.node (tree a) (tree b))) syms where
  trees i hi := by
    have hbl := List.mem_of_mem_erase hb
    rcases List.mem_append.mp hi with hi | hi
    · have hi := h.trees i (List.mem_of_mem_erase (List.mem_of_mem_erase hi))
      rw [Function.update_of_ne hi.lt_length.ne]
      exact hi.append _
    · obtain rfl := List.mem_singleton.mp hi
      rw [Function.update_self]
      exact .node List.getElem?_concat_length (h.trees a ha).lt_length (h.trees b hbl).lt_length
        ((h.trees a ha).append _) ((h.trees b hbl).append _)
  symbols := by
    refine .trans ?_ h.symbols
    have hold : ((live.erase a).erase b).flatMap (fun i => (Function.update tree nodes.length
        (.node (tree a) (tree b)) i).symbols) =
        ((live.erase a).erase b).flatMap fun i => (tree i).symbols :=
      List.flatMap_congr fun i hi => by
        rw [Function.update_of_ne
          (h.trees i (List.mem_of_mem_erase (List.mem_of_mem_erase hi))).lt_length.ne]
    have hperm : live.Perm (a :: b :: (live.erase a).erase b) :=
      (List.perm_cons_erase ha).trans ((List.perm_cons_erase hb).cons a)
    rw [List.flatMap_append, hold, List.flatMap_singleton, Function.update_self, CodeTree.symbols]
    refine .trans ?_ (hperm.symm.flatMap_right _)
    rw [List.flatMap_cons, List.flatMap_cons, ← List.append_assoc (tree a).symbols]
    exact List.perm_append_comm
  last := by simp

/-- A single live node is the root, and the youngest node. -/
theorem Forest.root {nodes : List TreeNode} {live : List Nat} {tree : Nat → CodeTree}
    {syms : List Byte} (h : Forest nodes live tree syms) (h1 : live.length ≤ 1) :
    ∃ t, ArenaTree nodes (nodes.length - 1) t ∧ t.symbols.Perm syms := by
  obtain ⟨htrees, hsyms, hlast⟩ := h
  match live, h1 with
  | [], _ => cases hlast
  | [a], _ =>
    obtain rfl : a = nodes.length - 1 := by simpa using hlast
    exact ⟨_, htrees _ (List.mem_singleton.mpr rfl), by simpa using hsyms⟩

/-- A turn of the loop: it ends with at most one live node, or merges two. -/
theorem mergeNodes_succ_cases (fuel : Nat) (nodes : List TreeNode) (live : List Nat) :
    (live.length ≤ 1 ∧ mergeNodes (fuel + 1) nodes live = nodes) ∨
    ∃ a b, a ∈ live ∧ b ∈ live.erase a ∧ mergeNodes (fuel + 1) nodes live =
      mergeNodes fuel (nodes ++ [.node (freqAt nodes a + freqAt nodes b) a b])
        ((live.erase a).erase b ++ [nodes.length]) := by
  rw [mergeNodes]
  cases ha : lowest nodes live with
  | none => exact .inl ⟨by simp [lowest_eq_none.mp ha], rfl⟩
  | some a =>
    simp only
    cases hb : lowest nodes (live.erase a) with
    | none =>
      have hlen := List.length_erase_of_mem (mem_of_lowest ha)
      rw [lowest_eq_none.mp hb, List.length_nil] at hlen
      exact .inl ⟨by omega, rfl⟩
    | some b => exact .inr ⟨a, b, mem_of_lowest ha, mem_of_lowest hb, rfl⟩

/-- The loop makes one tree, whose root is the youngest node (R163). -/
theorem mergeNodes_root {fuel : Nat} {nodes : List TreeNode} {live : List Nat}
    {tree : Nat → CodeTree} {syms : List Byte} (h : Forest nodes live tree syms)
    (hf : live.length ≤ fuel + 1) :
    ∃ t, ArenaTree (mergeNodes fuel nodes live) ((mergeNodes fuel nodes live).length - 1) t ∧
      t.symbols.Perm syms := by
  induction fuel generalizing nodes live tree with
  | zero => exact h.root hf
  | succ fuel ih =>
    rcases mergeNodes_succ_cases fuel nodes live with ⟨h1, hend⟩ | ⟨a, b, ha, hb, hturn⟩
    · rw [hend]; exact h.root h1
    · rw [hturn]
      refine ih (h.merge ha hb _) ?_
      rw [List.length_append, List.length_singleton, List.length_erase_of_mem hb,
        List.length_erase_of_mem ha]
      omega

theorem length_le_mergeNodes (fuel : Nat) (nodes : List TreeNode) (live : List Nat) :
    nodes.length ≤ (mergeNodes fuel nodes live).length := by
  induction fuel generalizing nodes live with
  | zero => exact le_rfl
  | succ fuel ih =>
    rcases mergeNodes_succ_cases fuel nodes live with ⟨-, hend⟩ | ⟨a, b, -, -, hturn⟩
    · rw [hend]
    · rw [hturn]
      exact (by simp : nodes.length ≤ _).trans (ih _ _)

/-! ## The tree of a Frequency Table (R161, R163) -/

/-- The symbols that occur, in ascending order. -/
def occurring (ft : FreqTable) : List Byte := identityList.filter fun b => ft[b.toFin] ≠ 0

theorem mem_occurring {ft : FreqTable} {b : Byte} : b ∈ occurring ft ↔ ft[b.toFin] ≠ 0 := by
  simp [occurring, mem_of_perm_identity (.refl _)]

theorem identityList_nodup : identityList.Nodup := by
  refine List.Nodup.map_on (fun i hi j hj h => ?_) List.nodup_range
  have h := congrArg BitVec.toNat h
  rwa [BitVec.toNat_ofNat, BitVec.toNat_ofNat, Nat.mod_eq_of_lt (List.mem_range.mp hi),
    Nat.mod_eq_of_lt (List.mem_range.mp hj)] at h

theorem occurring_nodup (ft : FreqTable) : (occurring ft).Nodup := identityList_nodup.filter _

theorem occurring_length_le (ft : FreqTable) : (occurring ft).length ≤ 256 :=
  (List.length_filter_le _ _).trans_eq identityList_length

/-- The elements of a table with their numbers, symbol by symbol. -/
theorem zipIdx_toList {α : Type} (t : Vector α 256) :
    t.toList.zipIdx = identityList.map fun b => (t[b.toFin], b.toNat) := by
  refine List.ext_getElem (by simp) fun i h _ => ?_
  have hi : i < 256 := by simpa using h
  simp [identityList, Nat.mod_eq_of_lt hi]

/-- The leaves are those of the symbols that occur. -/
theorem leavesOf_eq (ft : FreqTable) :
    leavesOf ft = (occurring ft).map fun b => .leaf b ft[b.toFin] := by
  rw [leavesOf, zipIdx_toList, List.filterMap_map, occurring, ← List.filterMap_eq_map,
    List.filterMap_filter]
  refine List.filterMap_congr fun b _ => ?_
  simp only [decide_eq_true_eq, ne_eq, Function.comp_apply, BitVec.ofNat_toNat, BitVec.setWidth_eq]
  by_cases h : ft[b.toFin] = 0
  · rw [if_pos h, if_neg (not_not.mpr h)]
  · rw [if_neg h, if_pos h]

/-- Every leaf is a tree before the first merge. -/
theorem forest_leavesOf {ft : FreqTable} (h : occurring ft ≠ []) :
    Forest (leavesOf ft) (List.range (leavesOf ft).length)
      (fun i => .leaf ((occurring ft).getD i 0)) (occurring ft) where
  trees i hi := by
    have hi : i < (occurring ft).length := by simpa [leavesOf_eq] using hi
    refine .leaf (f := ft[((occurring ft)[i]).toFin]) ?_
    rw [leavesOf_eq, List.getElem?_map, List.getElem?_eq_getElem hi, List.getD_eq_getElem _ _ hi]
    rfl
  symbols := by
    refine .of_eq ?_
    simp only [CodeTree.symbols, leavesOf_eq, List.length_map, ← List.map_eq_flatMap]
    refine List.ext_getElem (by simp) fun i _ hi => ?_
    rw [List.getElem_map, List.getElem_range, List.getD_eq_getElem]
  last := by
    have hpos : 0 < (leavesOf ft).length := by
      simpa [leavesOf_eq] using List.length_pos_of_ne_nil h
    rw [List.getLast?_range, if_neg hpos.ne']

/-- `HTREE` makes one tree of the symbols that occur, with its root at the arena's end. -/
theorem buildTree_root {ft : FreqTable} (h : occurring ft ≠ []) :
    ∃ t, ArenaTree (buildTree ft) ((buildTree ft).length - 1) t ∧ t.symbols.Perm (occurring ft) :=
  mergeNodes_root (forest_leavesOf h) (by simp)

/-- Without a symbol there is no node. -/
theorem buildTree_eq_nil {ft : FreqTable} (h : occurring ft = []) : buildTree ft = [] := by
  simp [buildTree, leavesOf_eq, h, mergeNodes]

/-- A single symbol's tree is its leaf. -/
theorem buildTree_eq_leaf {ft : FreqTable} {b : Byte} (h : occurring ft = [b]) :
    buildTree ft = [.leaf b ft[b.toFin]] := by
  simp [buildTree, leavesOf_eq, h, mergeNodes, lowest]

/-! ## The codes of a Frequency Table (R165, R166) -/

/-- The assignments of `HCODE` to a tree of two or more symbols are its paths. -/
theorem codeAssignments_eq_paths {tr : List TreeNode} {t : CodeTree} (h2 : 2 ≤ tr.length)
    (h : ArenaTree tr (tr.length - 1) t) : codeAssignments tr = t.paths := by
  rw [codeAssignments, if_neg (by omega), h.walk_eq (by omega)]
  · simp
  · rintro b f rfl; simp at h2

/-- What `HCODE` assigns to the tree of a Frequency Table: one code to each symbol that occurs, of
1 to 255 bits, and no code begins another. -/
theorem codeAssignments_buildTree (ft : FreqTable) :
    ((codeAssignments (buildTree ft)).map Prod.fst).Perm (occurring ft) ∧
      prefixFree (codeAssignments (buildTree ft)) = true ∧
      ∀ e ∈ codeAssignments (buildTree ft), 1 ≤ e.2.length ∧ e.2.length ≤ 255 := by
  have hle := occurring_length_le ft
  match hocc : occurring ft with
  | [] => simp [buildTree_eq_nil hocc, codeAssignments, prefixFree]
  | [b] => simp [buildTree_eq_leaf hocc, codeAssignments, prefixFree]
  | b1 :: b2 :: bs =>
    obtain ⟨t, ht, hsyms⟩ := buildTree_root (ft := ft) (by simp [hocc])
    have hlen2 : 2 ≤ (occurring ft).length := by simp [hocc]
    have hlen : 2 ≤ (buildTree ft).length := by
      have := length_le_mergeNodes (leavesOf ft).length (leavesOf ft)
        (List.range (leavesOf ft).length)
      rw [← buildTree] at this
      rw [leavesOf_eq, List.length_map] at this
      omega
    have hcount := hsyms.length_eq
    rw [codeAssignments_eq_paths hlen ht, t.map_fst_paths, ← hocc]
    refine ⟨hsyms, t.prefixFree_paths, fun e he => ⟨CodeTree.path_length_pos (by omega) e he, ?_⟩⟩
    have := t.path_length_lt e he
    omega

theorem codeAssignments_nodup (ft : FreqTable) :
    ((codeAssignments (buildTree ft)).map Prod.fst).Nodup :=
  (codeAssignments_buildTree ft).1.nodup_iff.mpr (occurring_nodup ft)

/-- R41: `HCODE` makes a Code Table of every tree `HTREE` builds. -/
theorem codesFromTree_ok (ft : FreqTable) : (codesFromTree (buildTree ft)).Ok := by
  obtain ⟨-, hfree, hlen⟩ := codeAssignments_buildTree ft
  exact tableOf_ok (codeAssignments_nodup ft) hfree hlen

/-- R165, R166: exactly the symbols that occur have a code. -/
theorem codesFromTree_code_ne_none (ft : FreqTable) (b : Byte) :
    (codesFromTree (buildTree ft)).code b ≠ none ↔ ft[b.toFin] ≠ 0 := by
  rw [← mem_occurring, ← (codeAssignments_buildTree ft).1.mem_iff, List.mem_map,
    Option.ne_none_iff_exists']
  simp only [codesFromTree, tableOf_code_eq_some (codeAssignments_nodup ft)]
  exact ⟨fun ⟨c, h⟩ => ⟨(b, c), h, rfl⟩, fun ⟨e, h, he⟩ => ⟨e.2, he ▸ h⟩⟩

/-- R160: a symbol is counted exactly when it occurs. -/
theorem countFreqs_ne_zero {d : List Byte} (hd : d.length < 2 ^ 32) (b : Byte) :
    (countFreqs d)[b.toFin] ≠ 0 ↔ b ∈ d := by
  have hle : d.count b < 2 ^ 32 := List.count_le_length.trans_lt hd
  rw [countFreqs_get, ← List.count_pos_iff, ne_eq, ← BitVec.toNat_inj, BitVec.toNat_ofNat,
    Nat.mod_eq_of_lt hle]
  exact Nat.pos_iff_ne_zero.symm

end Sys2Proof.Machine
end

section
/-! The bit stream and the table region of the Prefix-Code Engine read back what was written (R167
to R178). -/

namespace Sys2Proof.Machine

/-! ## The payload (R167 to R170) -/

/-- In a Code Table the symbol found for a code is the one that has it (R169). -/
theorem symbolOf_eq_some {ct : CodeTable} (hct : ct.Ok) {b : Byte} {c : Bits} :
    ct.symbolOf c = some b ↔ ct.code b = some c := by
  refine ⟨code_of_symbolOf, fun h => ?_⟩
  cases hs : ct.symbolOf c with
  | none => exact absurd h (symbolOf_eq_none.mp hs b)
  | some b' =>
    by_contra hne
    exact hct.prefix_free b' b c c (fun h => hne (h ▸ rfl)) (code_of_symbolOf hs) h
      (List.prefix_refl c)

/-- A proper beginning of a code is no code. -/
theorem symbolOf_of_proper_beginning {ct : CodeTable} (hct : ct.Ok) {b : Byte} {x y : Bits}
    (h : ct.code b = some (x ++ y)) (hy : y ≠ []) : ct.symbolOf x = none := by
  refine symbolOf_eq_none.mpr fun b' hb' => ?_
  by_cases hbb : b' = b
  · subst hbb
    have hxy := Option.some.inj (hb'.symm.trans h)
    exact hy (by simpa using hxy)
  · exact hct.prefix_free b' b x (x ++ y) hbb hb' h (List.prefix_append x y)

/-- The loop grows a code bit by bit until it stands whole, and then emits its symbol. -/
theorem matchBits_code {ct : CodeTable} (hct : ct.Ok) {b : Byte} {cur c : Bits}
    (h : ct.code b = some (cur ++ c)) (hc : c ≠ []) (dcap : Nat) (bits : Bits) (out : List Byte) :
    matchBits ct dcap (c ++ bits) cur out =
      if dcap < out.length + 1 then .overflow else matchBits ct dcap bits [] (out ++ [b]) := by
  induction c generalizing cur with
  | nil => exact absurd rfl hc
  | cons x c ih =>
    rw [List.cons_append, matchBits]
    rw [List.append_cons] at h
    by_cases hc' : c = []
    · subst hc'
      rw [List.append_nil] at h
      rw [(symbolOf_eq_some hct).mpr h]
      rfl
    · rw [symbolOf_of_proper_beginning hct h hc']
      exact ih h hc'

/-- The codes of `d` are matched to the bytes of `d`, behind those emitted before. -/
theorem matchBits_codeBits {ct : CodeTable} (hct : ct.Ok) {dcap : Nat} {d out : List Byte}
    (hd : allCoded ct d = true) (hlen : out.length + d.length ≤ dcap) :
    matchBits ct dcap (codeBits ct d) [] out = .done (out ++ d) [] := by
  induction d generalizing out with
  | nil => rw [List.append_nil]; rfl
  | cons b d ih =>
    rw [allCoded_iff, List.forall_mem_cons, ← allCoded_iff] at hd
    obtain ⟨c, hc⟩ := Option.ne_none_iff_exists'.mp hd.1
    have hc0 : c ≠ [] := List.length_pos_iff.mp (hct.length b c hc).1
    rw [List.length_cons] at hlen
    rw [codeBits_cons, hc, Option.getD_some, matchBits_code hct hc hc0, if_neg (by omega),
      ih hd.2 (by rw [List.length_append, List.length_singleton]; omega), List.append_assoc]
    rfl

/-! ## The table region (R102, R103, R171 to R173) -/

/-- The code of an entry fills its bytes with zeros (R102). -/
theorem unpackBits_entryCode {c : Bits} :
    unpackBits (packBits (c ++ zeros (8 * ceilDiv c.length 8 - c.length))) =
      c ++ zeros (8 * ceilDiv c.length 8 - c.length) := by
  refine unpackBits_packBits _ ?_
  rw [List.length_append, zeros_length, ceilDiv]
  omega

theorem entryCode_length {c : Bits} :
    (packBits (c ++ zeros (8 * ceilDiv c.length 8 - c.length))).length = ceilDiv c.length 8 := by
  rw [packBits_length, List.length_append, zeros_length, ceilDiv]
  omega

theorem entryBytes_length (e : Byte × Bits) :
    (entryBytes e).length = 3 + ceilDiv e.2.length 8 := by
  rw [entryBytes, List.length_append, entryCode_length]; rfl

/-- An entry at the head of a region is read, if its symbol is new (R172). -/
theorem parseEntries_entryBytes {fuel : Nat} {b : Byte} {c : Bits} {rest : List Byte}
    {seen : List (Byte × Bits)} (hc : 1 ≤ c.length ∧ c.length ≤ 255) (hnew : seen.lookup b = none) :
    parseEntries (fuel + 1) (entryBytes (b, c) ++ rest) seen =
      parseEntries fuel rest (seen ++ [(b, c)]) := by
  have hl : (BitVec.ofNat 8 c.length).toNat = c.length := by
    rw [BitVec.toNat_ofNat, Nat.mod_eq_of_lt (by omega)]
  have hn : (BitVec.ofNat 8 (ceilDiv c.length 8)).toNat = ceilDiv c.length 8 := by
    rw [BitVec.toNat_ofNat, Nat.mod_eq_of_lt (by rw [ceilDiv]; omega)]
  have hl0 : BitVec.ofNat 8 c.length ≠ 0 := fun h => by
    have h0 : c.length = 0 := hl.symm.trans (congrArg BitVec.toNat h)
    omega
  have hcode := entryCode_length (c := c)
  simp only [entryBytes, List.cons_append, List.nil_append, parseEntries, hl, hn]
  rw [if_neg hl0, if_neg (not_not.mpr rfl), if_neg (by rw [List.length_append, hcode]; omega),
    List.take_left' hcode, List.drop_left' hcode, unpackBits_entryCode, List.drop_left,
    List.take_left, if_neg (by simp [zeros]), if_neg (by simp [hnew])]

/-- A region of entries is read entry by entry. -/
theorem parseEntries_flatMap {fuel : Nat} {es seen : List (Byte × Bits)} (hf : es.length ≤ fuel)
    (hlen : ∀ e ∈ es, 1 ≤ e.2.length ∧ e.2.length ≤ 255)
    (hnd : ((seen ++ es).map Prod.fst).Nodup) :
    parseEntries fuel (es.flatMap entryBytes) seen = some (seen ++ es) := by
  induction es generalizing fuel seen with
  | nil => simp [parseEntries]
  | cons e es ih =>
    obtain ⟨fuel, rfl⟩ := Nat.exists_eq_add_of_lt (show 0 < fuel by simp at hf; omega)
    obtain ⟨he, hes⟩ := List.forall_mem_cons.mp hlen
    have hnew : seen.lookup e.1 = none := by
      refine List.lookup_eq_none_iff.mpr fun x hx => ?_
      rw [List.map_append, List.nodup_append] at hnd
      simpa using (hnd.2.2 _ (List.mem_map_of_mem hx) _ List.mem_cons_self).symm
    rw [List.append_cons] at hnd ⊢
    rw [List.flatMap_cons, Nat.zero_add, parseEntries_entryBytes he hnew]
    exact ih (by simpa using hf) hes hnd

theorem CodeTable.ext_code {ct ct' : CodeTable} (h : ∀ b, ct.code b = ct'.code b) : ct = ct' :=
  Vector.ext fun i hi => h (BitVec.ofFin ⟨i, hi⟩)

/-- Every symbol has one entry. -/
theorem entries_nodup (ct : CodeTable) : (ct.entries.map Prod.fst).Nodup := by
  rw [List.Nodup, List.pairwise_map]
  exact (entries_sorted ct).imp fun hlt heq => hlt.ne (congrArg BitVec.toNat heq)

/-- A table has at most 256 entries (R41). -/
theorem entries_length_le (ct : CodeTable) : ct.entries.length ≤ 256 :=
  (List.length_filterMap_le _ _).trans_eq (by simp)

/-- The table of a table's entries is that table. -/
theorem tableOf_entries (ct : CodeTable) : tableOf ct.entries = ct :=
  CodeTable.ext_code fun b => Option.ext fun c => by
    rw [tableOf_code_eq_some (entries_nodup ct), mem_entries]

/-- The entries of a Code Table: codes of 1 to 255 bits, none begins another (R41). -/
theorem entries_code_length {ct : CodeTable} (hct : ct.Ok) :
    ∀ e ∈ ct.entries, 1 ≤ e.2.length ∧ e.2.length ≤ 255 :=
  fun e he => hct.length e.1 e.2 ((mem_entries ct e.1 e.2).mp he)

theorem prefixFree_entries {ct : CodeTable} (hct : ct.Ok) : prefixFree ct.entries = true := by
  rw [prefixFree_iff]
  refine (entries_sorted ct).imp_of_mem fun {x y} hx hy hlt => ?_
  have hx := (mem_entries ct x.1 x.2).mp hx
  have hy := (mem_entries ct y.1 y.2).mp hy
  have hne : x.1 ≠ y.1 := fun h => hlt.ne (congrArg BitVec.toNat h)
  exact ⟨hct.prefix_free _ _ _ _ hne hx hy, hct.prefix_free _ _ _ _ hne.symm hy hx⟩

/-- R34, R171: a table region fits `CS`. -/
theorem serializeTable_length_le {ct : CodeTable} (hct : ct.Ok) :
    (serializeTable ct).length ≤ Config.csCap := by
  have hentry : ∀ n ∈ ct.entries.map fun e => (entryBytes e).length, n ≤ 35 := by
    simp only [List.mem_map]
    rintro _ ⟨e, he, rfl⟩
    have := (entries_code_length hct e he).2
    rw [entryBytes_length, ceilDiv]; omega
  have hsum := List.sum_le_card_nsmul _ 35 hentry
  have hcount := entries_length_le ct
  rw [List.length_map, smul_eq_mul] at hsum
  rw [serializeTable, List.length_flatMap, Config.csCap]
  omega

/-- R178 (a): the region of a Code Table spells that table. -/
theorem deserializeTable_serializeTable {ct : CodeTable} (hct : ct.Ok) :
    deserializeTable (serializeTable ct) = some ct := by
  have hfuel : ct.entries.length ≤ (serializeTable ct).length := by
    rw [serializeTable, List.length_flatMap, ← List.length_map (fun e => (entryBytes e).length)]
    refine List.length_le_sum_of_one_le _ fun n hn => ?_
    obtain ⟨e, -, rfl⟩ := List.mem_map.mp hn
    rw [entryBytes_length]; omega
  have hparse : parseEntries (serializeTable ct).length (serializeTable ct) [] =
      some ([] ++ ct.entries) :=
    parseEntries_flatMap hfuel (entries_code_length hct) (entries_nodup ct)
  rw [deserializeTable, hparse]
  simp only [List.nil_append, prefixFree_entries hct, if_true, tableOf_entries]

end Sys2Proof.Machine
end

section
/-! `CBLK` and `DBLK` from their stages, and the Block that comes back (R7, R231, R232, R238). -/

namespace Sys2Proof.Machine

open Sys2Proof.Claims

/-! ## The stages that always end well -/

theorem stageMtfe_eq (s : State) : stageMtfe s = .ok { s with
    d := (mtfEncode identityList s.d).1
    ml := (mtfEncode identityList s.d).2
    phase := .rank } := rfl

theorem stageMtfd_eq (s : State) : stageMtfd s = .ok { s with
    d := (mtfDecode identityList s.d).1
    ml := (mtfDecode identityList s.d).2
    phase := .unrank } := rfl

theorem stageHcnt_eq (s : State) :
    stageHcnt s = .ok { s with ft := countFreqs s.d, phase := .encode } := rfl

theorem stageHtree_eq (s : State) :
    stageHtree s = .ok { s with tr := buildTree s.ft, phase := .encode } := rfl

theorem stageHcode_eq (s : State) :
    stageHcode s = .ok { s with ct := codesFromTree s.tr, phase := .encode } := rfl

theorem stageCtser_eq (s : State) :
    stageCtser s = .ok { s with cs := serializeTable s.ct, phase := .encode } := rfl

/-! ## The payload of a rank stream -/

/-- R167: with a code for every byte, `HENC` writes the payload or finds it too long for `P`. -/
theorem stageHenc_of_allCoded {s : State} (h : allCoded s.ct s.d = true) :
    ((payloadFor s.ct s.d).length ≤ s.cfg.pcap ∧
      stageHenc s = .ok { s with p := payloadFor s.ct s.d, phase := .encode }) ∨
    (s.cfg.pcap < (payloadFor s.ct s.d).length ∧
      stageHenc s = .raised (s.raise .capacityExceeded 0 (some s.seq) .encode)) := by
  rcases stageHenc_cases s with ⟨hd, he⟩ | ⟨-, hall, -⟩ | ⟨hd, -, hlong, he⟩ | ⟨hd, -, hfit, he⟩
  · rw [payloadFor, if_pos hd]
    exact .inl ⟨Nat.zero_le _, he⟩
  · rw [h] at hall; cases hall
  · rw [payloadFor, if_neg hd]
    exact .inr ⟨hlong, he⟩
  · rw [payloadFor, if_neg hd]
    exact .inl ⟨hfit, he⟩

/-- R169, R178 (c): `HDEC` reads the rank stream back. -/
theorem stageHdec_payloadFor {s : State} {ranks : List Byte} (hct : s.ct.Ok)
    (hall : allCoded s.ct ranks = true) (hlen : ranks.length ≤ s.cfg.dcap)
    (hp : s.p = payloadFor s.ct ranks) :
    stageHdec s = .ok { s with d := ranks, phase := .decode } := by
  by_cases hr : ranks = []
  · rw [payloadFor, if_pos hr] at hp
    simp only [stageHdec, hp, hr]; rfl
  · rw [payloadFor, if_neg hr] at hp
    obtain ⟨pad, packed, hcons, hbits⟩ := payloadBits_payloadOf (codeBits s.ct ranks)
    have hmatch : matchBits s.ct s.cfg.dcap (codeBits s.ct ranks) [] [] = .done ([] ++ ranks) [] :=
      matchBits_codeBits hct hall (by simpa using hlen)
    rw [stageHdec, hp, hcons]
    simp only [hbits, hmatch]
    rfl

/-! ## Compressing one Block (R231) -/

theorem nextBlock_length (s : State) : (nextBlock s).length = min s.blkSize.toNat s.inp.length := by
  rw [nextBlock, List.length_take]; omega

/-- The rank stream is no longer than the Block. -/
theorem blockRanks_length_le (s : State) : (blockRanks s).length ≤ (nextBlock s).length := by
  rw [blockRanks, mtfEncode_length, blockRows, rotateChunks_flatMap_snd,
    length_flatMap_pieces (length_rotate_chunk _ _)]
  exact Nat.min_le_right _ _

/-- R166: the Block's table is a Code Table. -/
theorem blockCodes_ok (s : State) : (blockCodes s).Ok := codesFromTree_ok _

/-- R166: the Block's table codes every byte of its rank stream. -/
theorem allCoded_blockCodes (s : State) : allCoded (blockCodes s) (blockRanks s) = true := by
  have hlen : (blockRanks s).length < 2 ^ 32 := by
    have h1 := blockRanks_length_le s
    have h2 := nextBlock_length s
    have h3 := s.blkSize.isLt
    omega
  rw [allCoded_iff]
  exact fun b hb => (codesFromTree_code_ne_none _ b).mpr ((countFreqs_ne_zero hlen b).mpr hb)

/-- The record of the next Block. -/
def blockRecord (s : State) : List Byte :=
  recordBytes s.seq ((blockRows s).map rowWord) (serializeTable (blockCodes s))
    (payloadFor (blockCodes s) (blockRanks s))

/-- The state after `LDBLK` has taken the next Block. -/
def loaded (s : State) : State :=
  { s with
    d := nextBlock s
    inp := s.inp.drop (nextBlock s).length
    inCnt := s.inCnt + BitVec.ofNat 32 (nextBlock s).length
    phase := .split }

/-- The state after the stages up to `HCODE`: the next Block is a rank stream and has its table. -/
def coded (s : State) : State :=
  { loaded s with
    rt := (blockRows s).map rowWord
    d := blockRanks s
    ml := (mtfEncode identityList ((blockRows s).flatMap Prod.snd)).2
    ft := countFreqs (blockRanks s)
    tr := buildTree (countFreqs (blockRanks s))
    ct := blockCodes s
    phase := .encode }

/-- The state after all nine stages of `CBLK`: the record is pushed and counted. -/
def compressed (s : State) : State :=
  { coded s with
    p := payloadFor (blockCodes s) (blockRanks s)
    cs := serializeTable (blockCodes s)
    out := s.out ++ blockRecord s
    outCnt := s.outCnt + BitVec.ofNat 32 (blockRecord s).length
    seq := if s.seq = 0xFFFFFFFF#32 then 0 else s.seq + 1
    seqOvf := decide (s.seq = 0xFFFFFFFF#32)
    phase := .frame }

theorem stageLdblk_loaded {s : State} (h : blockReady s = true) :
    stageLdblk s = .ok (loaded s) := by
  rcases stageLdblk_cases s with ⟨-, he⟩ | ⟨hnot, -⟩
  · rw [he, loaded, nextBlock_length]; rfl
  · rw [h] at hnot; cases hnot

/-- The stages from `ROT` to `HCODE`: there are too many Chunks for `RT`, or the Block is coded. -/
theorem stagesCblk_coded_cases {s : State} (h : blockReady s = true) :
    (s.cfg.rtcap < nch (nextBlock s).length s.chkSize.toNat ∧
      ∃ t, stagesCblk s = .raised t ∧ t.err = true) ∨
    (nch (nextBlock s).length s.chkSize.toNat ≤ s.cfg.rtcap ∧
      stagesCblk s = ((stageHenc (coded s)).andThen stageCtser).andThen stageFrame) := by
  rcases stageRot_cases (loaded s) with ⟨hfit, hrot⟩ | ⟨hmany, hrot⟩
  · exact .inr ⟨hfit, by rw [stagesCblk, stageLdblk_loaded h, andThen_ok, hrot]; rfl⟩
  · exact .inl ⟨hmany, _, by rw [stagesCblk, stageLdblk_loaded h, andThen_ok, hrot]; rfl, rfl⟩

/-- The stages from `HENC` on: the payload is too long for `P`, the record numbers are used up, or
the record is pushed. -/
theorem stages_after_coded_cases (s : State) :
    (∃ t, ((stageHenc (coded s)).andThen stageCtser).andThen stageFrame = .raised t ∧
      t.err = true) ∨
    ((payloadFor (blockCodes s) (blockRanks s)).length ≤ s.cfg.pcap ∧ s.seqOvf = false ∧
      ((stageHenc (coded s)).andThen stageCtser).andThen stageFrame = .ok (compressed s)) := by
  rcases stageHenc_of_allCoded (s := coded s) (allCoded_blockCodes s) with
    ⟨hfit, hhenc⟩ | ⟨-, hhenc⟩
  · rw [hhenc, andThen_ok, stageCtser_eq, andThen_ok]
    rcases stageFrame_cases { coded s with
        p := payloadFor (blockCodes s) (blockRanks s)
        cs := serializeTable (blockCodes s)
        phase := .encode } with ⟨hnum, hframe⟩ | ⟨-, hframe⟩
    · exact .inr ⟨hfit, hnum, hframe⟩
    · exact .inl ⟨_, hframe, rfl⟩
  · exact .inl ⟨_, by rw [hhenc]; rfl, rfl⟩

/-- R231: the stages of `CBLK` wait for a Block, end in an error, or compress the next Block. -/
theorem stagesCblk_cases (s : State) :
    stagesCblk s = .held .split ∨ (∃ t, stagesCblk s = .raised t ∧ t.err = true) ∨
    (nch (nextBlock s).length s.chkSize.toNat ≤ s.cfg.rtcap ∧
      (payloadFor (blockCodes s) (blockRanks s)).length ≤ s.cfg.pcap ∧ s.seqOvf = false ∧
      stagesCblk s = .ok (compressed s)) := by
  cases hready : blockReady s with
  | false => exact .inl (by simp [stagesCblk, stageLdblk, hready])
  | true =>
    rcases stagesCblk_coded_cases hready with ⟨-, herr⟩ | ⟨hfit, heq⟩
    · exact .inr (.inl herr)
    · rw [heq]
      exact .inr ((stages_after_coded_cases s).imp_right fun hok => ⟨hfit, hok⟩)

/-- A `CBLK` that ends without error and is not held has pushed the record of the next Block. -/
theorem exec_cblk_eq_compressed {s t : State} (h : exec .cblk s = .next t) (herr : t.err = false)
    (hcur : t.cur = none) :
    nch (nextBlock s).length s.chkSize.toNat ≤ s.cfg.rtcap ∧
      (payloadFor (blockCodes s) (blockRanks s)).length ≤ s.cfg.pcap ∧
      t = (compressed s).endCommand := by
  replace h : finish .cblk s (stagesCblk s) = .next t := h
  rcases stagesCblk_cases s with hst | ⟨t', hst, herr'⟩ | ⟨hrt, hp, -, hst⟩ <;>
    rw [hst] at h <;> cases h
  · cases hcur
  · rw [herr'] at herr; cases herr
  · exact ⟨hrt, hp, rfl⟩

/-! ## Decompressing one record (R232) -/

/-- R203: `DEFRAME` takes a record that fits the core from the head of `IN`. -/
theorem deframeOutcome_recordBytes {s : State} {seq : Word} {rt : List Word} {cs p tail : List Byte}
    (hcfg : s.cfg.wf = true) (hrt : rt.length ≤ s.cfg.rtcap) (hcs : cs.length ≤ Config.csCap)
    (hp : p.length ≤ s.cfg.pcap) (hin : s.inp = recordBytes seq rt cs p ++ tail) :
    deframeOutcome s = .record seq rt cs p (16 + 4 * rt.length + cs.length + p.length) := by
  rw [deframeOutcome, hin, parseRecord_recordBytes seq tail hcfg hrt hcs hp]

theorem stageDeframe_recordBytes {s : State} {seq : Word} {rt : List Word} {cs p tail : List Byte}
    (hcfg : s.cfg.wf = true) (hrt : rt.length ≤ s.cfg.rtcap) (hcs : cs.length ≤ Config.csCap)
    (hp : p.length ≤ s.cfg.pcap) (hin : s.inp = recordBytes seq rt cs p ++ tail) :
    stageDeframe s = .ok { s with
      rseq := seq, rt := rt, cs := cs, p := p, inp := tail
      inCnt := s.inCnt + BitVec.ofNat 32 (16 + 4 * rt.length + cs.length + p.length)
      phase := .deframe } := by
  have htail : s.inp.drop (16 + 4 * rt.length + cs.length + p.length) = tail := by
    rw [hin, ← recordBytes_length seq, List.drop_left]
  rw [stageDeframe, deframeOutcome_recordBytes hcfg hrt hcs hp hin]
  simp only [State.inPop, State.enter, htail]

/-- R172, R178 (a): `CTDES` reads the table back. -/
theorem stageCtdes_serializeTable {s : State} {ct : CodeTable} (hct : ct.Ok)
    (hcs : s.cs = serializeTable ct) :
    stageCtdes s = .ok { s with ct := ct, phase := .decode } := by
  rw [stageCtdes, hcs, deserializeTable_serializeTable hct]; rfl

theorem unrotateChunks_length {c : Nat} (hc : 1 ≤ c) (rt : List Word) (d : List Byte) :
    (unrotateChunks rt d c).length = d.length := by
  rw [unrotateChunks, length_flatMap_pieces (l := d.length) (c := c)
    fun i => by rw [unrotate_length, chunk_length]]
  exact Nat.min_eq_right (le_nch_mul hc)

/-- R135: `UNROT` where the rotation table fits. -/
theorem stageUnrot_of_rtFits {s : State} (h : rtFits s.rt s.d.length s.chkSize.toNat = true) :
    stageUnrot s =
      .ok { s with d := unrotateChunks s.rt s.d s.chkSize.toNat, phase := .unrotate } := by
  rw [stageUnrot, if_pos h]; rfl

/-- R205: `COLLECT` of a new number into a store with room. -/
theorem stageCollect_of_room {s : State} (hnew : s.rs.lookup s.rseq = none)
    (hblocks : s.rs.length + 1 ≤ s.cfg.rsBlocks)
    (hbytes : s.rs.bytes + s.d.length ≤ s.cfg.rsBytes) :
    stageCollect s = .ok { s with rs := Store.insert s.rseq s.d s.rs, phase := .concat } := by
  rcases stageCollect_cases s with ⟨-, -, he⟩ | ⟨hhas, -⟩ | ⟨-, hfull, -⟩
  · exact he
  · exact absurd hnew ((Store.has_iff _ _).mp hhas)
  · simp only [storeFull, decide_eq_true_eq] at hfull; omega

theorem andThen_of_ok {r : StageEnd} {f : State → StageEnd} {s t : State} (hr : r = .ok s)
    (hf : f s = .ok t) : r.andThen f = .ok t := andThen_eq_ok.mpr ⟨s, hr, hf⟩

/-- R232: the record of a sound table, payload and rotation table is decoded and its Block
stored. -/
theorem exec_dblk_record {s : State} {seq : Word} {rt : List Word} {ct : CodeTable}
    {ranks tail : List Byte} (hcfg : s.cfg.wf = true) (hchk : 1 ≤ s.chkSize.toNat) (hct : ct.Ok)
    (hall : allCoded ct ranks = true) (hranks : ranks.length ≤ s.cfg.dcap)
    (hrt : rt.length ≤ s.cfg.rtcap) (hp : (payloadFor ct ranks).length ≤ s.cfg.pcap)
    (hin : s.inp = recordBytes seq rt (serializeTable ct) (payloadFor ct ranks) ++ tail)
    (hfits : rtFits rt ranks.length s.chkSize.toNat = true) (hnew : s.rs.lookup seq = none)
    (hblocks : s.rs.length + 1 ≤ s.cfg.rsBlocks)
    (hbytes : s.rs.bytes + ranks.length ≤ s.cfg.rsBytes) :
    exec .dblk s = .next { s with
      rseq := seq, rt := rt, cs := serializeTable ct, p := payloadFor ct ranks
      inp := tail
      inCnt := s.inCnt + BitVec.ofNat 32
        (16 + 4 * rt.length + (serializeTable ct).length + (payloadFor ct ranks).length)
      ct := ct
      d := unrotateChunks rt (mtfDecode identityList ranks).1 s.chkSize.toNat
      ml := (mtfDecode identityList ranks).2
      rs := Store.insert seq (unrotateChunks rt (mtfDecode identityList ranks).1 s.chkSize.toNat)
        s.rs
      cur := none, phase := .idle } := by
  have hcs := serializeTable_length_le hct
  have hmtf := mtfDecode_length identityList ranks
  have hrotated : rtFits rt (mtfDecode identityList ranks).1.length s.chkSize.toNat = true := by
    rw [hmtf]; exact hfits
  have hroom : s.rs.bytes +
      (unrotateChunks rt (mtfDecode identityList ranks).1 s.chkSize.toNat).length ≤
        s.cfg.rsBytes := by
    rw [unrotateChunks_length hchk, hmtf]; exact hbytes
  have hdeframe := stageDeframe_recordBytes hcfg hrt hcs hp hin
  have hctdes := andThen_of_ok hdeframe (stageCtdes_serializeTable hct rfl)
  have hhdec := andThen_of_ok hctdes (stageHdec_payloadFor hct hall hranks rfl)
  have hmtfd := andThen_of_ok hhdec (stageMtfd_eq _)
  have hunrot := andThen_of_ok hmtfd (stageUnrot_of_rtFits hrotated)
  have hcollect := andThen_of_ok hunrot (stageCollect_of_room hnew hblocks hroom)
  have hrun : exec .dblk s = finish .dblk s (stagesDblk s) := rfl
  rw [hrun, stagesDblk, deframeOutcome_recordBytes hcfg hrt hcs hp hin, if_neg nofun, hcollect]
  rfl

/-! ## The Block comes back (R7, R238) -/

/-- The rank stream of the next Block is decoded, and its Chunks rotated back, to the Block. -/
theorem unrotateChunks_mtfDecode_blockRanks {s : State} (hchk : 1 ≤ s.chkSize.toNat) :
    unrotateChunks ((blockRows s).map rowWord) (mtfDecode identityList (blockRanks s)).1
      s.chkSize.toNat = nextBlock s := by
  rw [blockRanks, mtfDecode_mtfEncode (.refl _)]
  exact unrotateChunks_rotateChunks hchk s.chkSize.isLt (nextBlock s)

theorem blockRanks_length {s : State} (hchk : 1 ≤ s.chkSize.toNat) :
    (blockRanks s).length = (nextBlock s).length := by
  rw [blockRanks, mtfEncode_length]
  exact rotateChunks_length hchk _

/-- Settles O51: a `CBLK` that ends well has pushed the record of the next Block, that record meets
the premises of `exec_dblk_record`, and the inverse transforms lead from its rank stream back to the
Block. -/
theorem blockRoundTrips : Obligations.BlockRoundTrips := by
  unfold Obligations.BlockRoundTrips
  intro s t u record tail hsizes _ hexec herr hcur hout hcfg hchk hin hnew hblocks hbytes
  obtain ⟨hrt, hp, rfl⟩ := exec_cblk_eq_compressed hexec herr hcur
  have hrecord : u.inp = blockRecord s ++ tail := by
    rw [hin, List.append_cancel_left (hout : s.out ++ blockRecord s = s.out ++ record)]
  have hchk1 := hsizes.chunk_size.1
  have hranks := blockRanks_length hchk1
  have hdcap : (nextBlock s).length ≤ s.cfg.dcap := by
    rw [nextBlock_length]
    exact (Nat.min_le_left _ _).trans hsizes.block_size.2.1
  have hrows : ((blockRows s).map rowWord).length ≤ s.cfg.rtcap := by
    simpa [blockRows, rotateChunks] using hrt
  have hfits : rtFits ((blockRows s).map rowWord) (nextBlock s).length s.chkSize.toNat = true :=
    rtFits_rotateChunks hchk1 s.chkSize.isLt _
  have hdblk := exec_dblk_record (s := u) (hcfg ▸ hsizes.config) (hchk ▸ hchk1) (blockCodes_ok s)
    (allCoded_blockCodes s) (by rw [hranks, hcfg]; exact hdcap) (hcfg ▸ hrows) (hcfg ▸ hp) hrecord
    (by rw [hranks, hchk]; exact hfits) hnew hblocks (by rw [hranks]; exact hbytes)
  rw [hchk, unrotateChunks_mtfDecode_blockRanks hchk1] at hdblk
  exact ⟨_, hdblk, rfl, rfl, rfl, rfl, rfl⟩

end Sys2Proof.Machine
end

section
/-! What the host sees: reset, the register port and `STATUS` (R25, R36, R47), and the command a step
runs (R21, R71). -/

namespace Sys2Proof.Machine

open Sys2Proof.Claims

/-! ## Reset (R47) -/

theorem identityList_isIdentity : IsIdentity identityList := by
  refine ⟨identityList_length, fun i hi => ?_⟩
  rw [identityList, List.getElem?_map, List.getElem?_range hi]
  rfl

/-- Settles O1: the reset state is written out in `resetWith`; `ML` is the identity. -/
theorem resetGivesTheTabledValues : Obligations.ResetGivesTheTabledValues := by
  unfold Obligations.ResetGivesTheTabledValues
  intro cfg
  refine ⟨rfl, rfl, rfl, rfl, rfl, rfl, rfl, rfl, rfl, rfl, rfl, rfl, rfl, rfl, rfl, rfl, rfl, rfl,
    rfl, rfl, identityList_isIdentity, fun b => ?_, rfl, fun b => ?_, rfl, rfl, rfl, rfl, rfl⟩
  · simp [State.resetWith]
  · simp [State.resetWith, CodeTable.code]

/-! ## The register port (R36) -/

/-- `CTN` is the number of symbols that have a code (R37, R41). -/
theorem size_eq_countP (ct : CodeTable) :
    ct.size = (List.finRange 256).countP fun b => (ct[b]).isSome := by
  have hfin : identityList.map BitVec.toFin = List.finRange 256 :=
    List.ext_getElem (by simp) fun i h _ => by
      have hi : i < 256 := by simpa using h
      simp [identityList, Fin.ext_iff, Nat.mod_eq_of_lt hi]
  rw [CodeTable.size, CodeTable.entries, zipIdx_toList, List.filterMap_map,
    List.length_filterMap_eq_countP, ← hfin, List.countP_map]
  simp [Function.comp_def]

/-- Settles O2: address by address, `CTN` by `size_eq_countP`; the reset column is 16 values. -/
theorem registerPortShowsTheMap : Obligations.RegisterPortShowsTheMap := by
  unfold Obligations.RegisterPortShowsTheMap
  refine ⟨fun s => ⟨rfl, rfl, rfl, rfl, rfl, rfl, rfl, rfl, rfl, rfl, rfl, ?_, rfl, rfl, rfl, rfl,
    fun _ => rfl⟩, ?_⟩
  · rw [← size_eq_countP]
    rfl
  · decide

/-! ## `STATUS` (R25) -/

/-- The five flags of `STATUS`. -/
theorem status_flags (s : State) :
    s.status.getLsbD 0 = s.busy ∧ s.status.getLsbD 1 = s.err ∧ s.status.getLsbD 2 = s.eoi ∧
      s.status.getLsbD 3 = s.eoc ∧ s.status.getLsbD 4 = s.seqOvf := by
  simp only [State.status, BitVec.getLsbD_append, BitVec.getLsbD_ofBool]
  simp

/-- The bits of `STATUS` above the flags: three zeros, the phase's code, zeros. -/
theorem status_getLsbD_add_five (s : State) (n : Nat) :
    s.status.getLsbD (n + 5) = (decide (3 ≤ n) && s.phase.code.getLsbD (n - 3)) := by
  have hflags : n + 5 - 1 - 1 - 1 - 1 - 1 = n := by omega
  simp only [State.status, BitVec.getLsbD_append, BitVec.getLsbD_zero, hflags]
  rw [if_neg (by omega), if_neg (by omega), if_neg (by omega), if_neg (by omega), if_neg (by omega)]
  by_cases h3 : n < 3
  · simp [h3]
  · have hge : 3 ≤ n := by omega
    by_cases h4 : n - 3 < 4
    · simp [h3, hge, h4]
    · simp [h3, h4, BitVec.getLsbD_of_ge _ _ (show 4 ≤ n - 3 by omega)]

theorem status_field_getLsbD (s : State) (n m i : Nat) :
    (s.status.extractLsb' (n + 5) m).getLsbD i =
      (decide (i < m) && (decide (3 ≤ n + i) && s.phase.code.getLsbD (n + i - 3))) := by
  rw [BitVec.getLsbD_extractLsb', Nat.add_right_comm, status_getLsbD_add_five]

/-- Settles O3: the flags bit by bit, the fields by the bits above the flags. -/
theorem statusBitsAreViews : Obligations.StatusBitsAreViews := by
  unfold Obligations.StatusBitsAreViews
  refine ⟨⟨rfl, rfl, rfl, rfl, rfl, rfl, rfl, rfl, rfl, rfl, rfl⟩, fun s => ?_⟩
  obtain ⟨hbusy, herr, heoi, heoc, hovf⟩ := status_flags s
  refine ⟨hbusy, herr, heoi, heoc, hovf,
    BitVec.eq_of_getLsbD_eq fun i hi => (status_field_getLsbD s 0 3 i).trans ?_,
    BitVec.eq_of_getLsbD_eq fun i hi => (status_field_getLsbD s 3 4 i).trans ?_,
    BitVec.eq_of_getLsbD_eq fun i hi => (status_field_getLsbD s 7 20 i).trans ?_⟩
  · have hlow : ¬ 3 ≤ 0 + i := by omega
    rw [decide_eq_false hlow]
    simp
  · simp [hi]
  · have hhigh : 4 ≤ 7 + i - 3 := by omega
    simp [BitVec.getLsbD_of_ge _ _ hhigh]

/-! ## The step (R21, R71) -/

/-- Settles O8: with no error and nothing in execution a step takes the head of `CMDQ`. -/
theorem stepRunsTheDecodedCommand : Obligations.StepRunsTheDecodedCommand := by
  unfold Obligations.StepRunsTheDecodedCommand
  intro s w rest i hcur herr hq hdec
  have hrun : ¬ (s.err && decide (i ≠ .srst)) = true := by simp [herr]
  rw [step, State.advance]
  simp only [hcur, hq, State.takeWord, hdec, if_neg hrun]
  rfl

end Sys2Proof.Machine
end

section
/-! The ends of stages and commands: what a command's stages can do, and what they leave unchanged
(R45, R231 to R236, R266). -/

namespace Sys2Proof.Machine

open Sys2Proof.Claims

/-! ## Every command is its stages and an end -/

/-- The stages of a command. `SRST` and the commands that write a size count as one stage. -/
def stagesOf : Instr → State → StageEnd
  | .nop, s => .ok s
  | .setbs imm, s =>
    if (Instr.setbs imm).wf s.cfg then .ok { s with blkSize := immOperand imm }
    else .raised s.raiseIllegal
  | .setcs imm, s =>
    if (Instr.setcs imm).wf s.cfg then .ok { s with chkSize := immOperand imm }
    else .raised s.raiseIllegal
  | .srst, s => .ok s.softReset
  | .ldblk, s => stageLdblk s
  | .std, s => stageStd s
  | .rot, s => stageRot s
  | .unrot, s => stageUnrot s
  | .mtfe, s => stageMtfe s
  | .mtfd, s => stageMtfd s
  | .hcnt, s => stageHcnt s
  | .htree, s => stageHtree s
  | .hcode, s => stageHcode s
  | .henc, s => stageHenc s
  | .hdec, s => stageHdec s
  | .ctser, s => stageCtser s
  | .ctdes, s => stageCtdes s
  | .frame, s => stageFrame s
  | .deframe, s => stageDeframe s
  | .collect, s => stageCollect s
  | .concat, s => stageConcat s
  | .cblk, s => stagesCblk s
  | .dblk, s => stagesDblk s
  | .comp, s => if blockReady s = true ∧ s.inAvail = 0 then .ok s else stagesCblk s
  | .decomp, s => if atContainerEnd s then stageConcat s else stagesDblk s

/-- How the command `i`, begun in state `s`, whose stages ended as `r`, leaves the core: ended or
between two passes, in the error state, or waiting. -/
inductive Ends (i : Instr) (s : State) : StageEnd → State → Prop
  | done (u : State) : Ends i s (.ok u) u.endCommand
  | pass (u : State) {p : Phase} (hp : waitPhase i = some p) : Ends i s (.ok u) (u.holdAt i p)
  | raised (t : State) : Ends i s (.raised t) t
  | held (p : Phase) : Ends i s (.held p) (s.holdAt i p)

theorem ends_of_finish {i : Instr} {s t : State} {r : StageEnd} (h : finish i s r = .next t) :
    Ends i s r t := by
  rcases finish_cases i s r with ⟨u, rfl, he⟩ | ⟨u, rfl, he⟩ | ⟨p, rfl, he⟩ <;>
    rw [he] at h <;> cases h
  · exact .done u
  · exact .raised t
  · exact .held p

theorem ends_of_finishPass {i : Instr} {p : Phase} {s t : State} {r : StageEnd}
    (hp : waitPhase i = some p) (h : finishPass i p s r = .next t) : Ends i s r t := by
  rcases finishPass_cases i p s r with ⟨u, rfl, he⟩ | ⟨u, rfl, he⟩ | ⟨q, rfl, he⟩ <;>
    rw [he] at h <;> cases h
  · exact .pass u hp
  · exact .raised t
  · exact .held q

theorem stagesCblk_of_not_ready {s : State} (h : blockReady s = false) :
    stagesCblk s = .held .split := by
  simp [stagesCblk, stageLdblk, h]

/-- R231 to R236: every command that answers a next state has ended as its stages did. -/
theorem exec_ends {i : Instr} {s t : State} (h : exec i s = .next t) :
    Ends i s (stagesOf i s) t := by
  cases i with
  | nop => exact ends_of_finish (r := .ok s) h
  | srst => exact ends_of_finish (r := .ok s.softReset) h
  | setbs imm =>
    simp only [exec, execSetbs] at h
    rw [stagesOf]
    split_ifs at h ⊢ <;> cases h
    · exact .done _
    · exact .raised _
  | setcs imm =>
    simp only [exec, execSetcs] at h
    rw [stagesOf]
    split_ifs at h ⊢ <;> cases h
    · exact .done _
    · exact .raised _
  | comp =>
    simp only [exec, execComp] at h
    rw [stagesOf]
    by_cases hr : blockReady s = true
    · rw [if_pos hr] at h
      by_cases h0 : s.inAvail = 0
      · rw [if_pos h0] at h
        rw [if_pos ⟨hr, h0⟩]
        exact ends_of_finish (r := .ok s) h
      · rw [if_neg h0] at h
        rw [if_neg fun hc => h0 hc.2]
        exact ends_of_finishPass rfl h
    · rw [if_neg hr] at h
      rw [if_neg fun hc => hr hc.1, stagesCblk_of_not_ready (by simpa using hr)]
      exact ends_of_finish (r := .held .split) h
  | decomp =>
    simp only [exec, execDecomp] at h
    rw [stagesOf]
    split_ifs at h ⊢
    · exact ends_of_finish h
    · exact ends_of_finishPass rfl h
  | ldblk | std | rot | unrot | mtfe | mtfd | hcnt | htree | hcode | henc | hdec | ctser | ctdes
  | frame | deframe | collect | concat | cblk | dblk => exact ends_of_finish h

/-! ## What a step can do -/

/-- How a step leads from `s` to `t`. -/
inductive Stepped (s : State) : State → Prop
  /-- R277: an idle core waits. -/
  | idle (hcur : s.cur = none) : Stepped s s
  /-- R298, R236: the command in execution goes on. -/
  | goesOn {i : Instr} {t : State} (hcur : s.cur = some i) (herr : s.err = true → i = .srst)
      (h : exec i s = .next t) : Stepped s t
  /-- R21, R71: the head of `CMDQ` is taken and executed. -/
  | takes {i : Instr} {t : State} (rest : List Word) (hcur : s.cur = none)
      (herr : s.err = true → i = .srst) (h : exec i (s.fetch rest i) = .next t) : Stepped s t
  /-- R268: in the error state a command is discarded. -/
  | discards (q : List Word) (herr : s.err = true) : Stepped s { s with cmdq := q, cur := none }
  /-- R94, R279: an illegal word. -/
  | illegal (q : List Word) (hcur : s.cur = none) (herr : s.err = false) :
      Stepped s ({ s with cmdq := q }.raiseIllegal)

/-- The commands the error state lets through (R268). -/
theorem eq_srst_of_not_discarded {s : State} {i : Instr}
    (h : ¬ (s.err && decide (i ≠ .srst)) = true) (herr : s.err = true) : i = .srst := by
  simpa [herr] using h

theorem setCmdq_eq_discard {s : State} (hcur : s.cur = none) (q : List Word) :
    { s with cmdq := q } = { s with cmdq := q, cur := none } := by
  rw [← hcur]

theorem takeWord_stepped {s t : State} {w : Word} {rest : List Word} (hcur : s.cur = none)
    (h : s.takeWord w rest = .next t) : Stepped s t := by
  rw [State.takeWord] at h
  cases hd : decode s.cfg w with
  | command i =>
    simp only [hd] at h
    split_ifs at h with hdis
    · cases h
      rw [setCmdq_eq_discard hcur]
      exact .discards rest ((Bool.and_eq_true_iff.mp hdis).1)
    · exact .takes rest hcur (eq_srst_of_not_discarded hdis) h
  | illegal why =>
    simp only [hd] at h
    split_ifs at h with herr <;> cases h
    · rw [setCmdq_eq_discard hcur]
      exact .discards rest herr
    · exact .illegal rest hcur (by simpa using herr)

theorem step_stepped {s t : State} (h : step s = .next t) : Stepped s t := by
  rw [step, State.advance] at h
  cases hcur : s.cur with
  | some i =>
    simp only [hcur, State.continueCommand] at h
    split_ifs at h with hdis
    · cases h
      exact .discards s.cmdq ((Bool.and_eq_true_iff.mp hdis).1)
    · exact .goesOn hcur (eq_srst_of_not_discarded hdis) h
  | none =>
    simp only [hcur] at h
    cases hq : s.cmdq with
    | nil =>
      simp only [hq] at h
      cases h
      exact .idle hcur
    | cons w rest =>
      simp only [hq] at h
      exact takeWord_stepped hcur h

/-! ## What a command leaves unchanged (R45) -/

/-- `t` differs from `s` at most in the elements `W`, in `CUR` and in `PHASE`. Where `t` is
an update of `s` that is written out and `W` a command's row, `same` is found element by element. -/
structure Frame (W : List Elem) (s t : State) : Prop where
  same : ∀ e, e ∉ W → Elem.Same s t e := by intro e _; cases e <;> simp_all [writes, Elem.Same]
  cfg : t.cfg = s.cfg := by rfl
  cmdq : t.cmdq = s.cmdq := by rfl
  outRead : t.outRead = s.outRead := by rfl
  err : t.err = s.err := by rfl
  errCause : t.errCause = s.errCause := by rfl
  errSeq : t.errSeq = s.errSeq := by rfl

theorem same_refl (s : State) (e : Elem) : Elem.Same s s e := by
  cases e <;> rfl

theorem same_trans {s t u : State} {e : Elem} (h : Elem.Same s t e) (h' : Elem.Same t u e) :
    Elem.Same s u e := by
  cases e <;> exact Eq.trans h' h

theorem Frame.trans {V W : List Elem} {s t u : State} (h : Frame V s t) (h' : Frame W t u)
    (hVW : W ⊆ V) : Frame V s u where
  same e he := same_trans (h.same e he) (h'.same e fun hW => he (hVW hW))
  cfg := h'.cfg.trans h.cfg
  cmdq := h'.cmdq.trans h.cmdq
  outRead := h'.outRead.trans h.outRead
  err := h'.err.trans h.err
  errCause := h'.errCause.trans h.errCause
  errSeq := h'.errSeq.trans h.errSeq

theorem Frame.refl (W : List Elem) (s : State) : Frame W s s where
  same e _ := same_refl s e

theorem Frame.endCommand (W : List Elem) (s : State) : Frame W s s.endCommand where
  same e _ := by cases e <;> rfl

theorem Frame.holdAt (W : List Elem) (s : State) (i : Instr) (p : Phase) :
    Frame W s (s.holdAt i p) where
  same e _ := by cases e <;> rfl

/-- R266: after writes to `W` an error of R263's table was raised. -/
def RaisedFrom (W : List Elem) (s t : State) : Prop :=
  ∃ u e sub seq p, Frame W s u ∧ (e, sub) ∈ errorTable ∧ t = u.raise e sub seq p

/-- What the stages of command `i`, begun in state `s`, may end with. -/
def StageEnd.Within (i : Instr) (s : State) : StageEnd → Prop
  | .ok t => Frame (writes i) s t
  | .raised t => RaisedFrom (writes i) s t
  | .held p => waitPhase i = some p

/-- A stage that waits for nothing follows one that may wait. -/
theorem StageEnd.Within.andThen {i : Instr} (j : Instr) {s : State} {r : StageEnd}
    {f : State → StageEnd} (hr : r.Within i s) (hf : ∀ u, (f u).Within j u)
    (hrow : writes j ⊆ writes i := by decide) (hwait : waitPhase j = none := by rfl) :
    (r.andThen f).Within i s := by
  cases r with
  | ok u =>
    have hu := hf u
    rw [andThen_ok]
    cases hfu : f u with
    | ok t => rw [hfu] at hu; exact Frame.trans hr hu hrow
    | raised t =>
      rw [hfu] at hu
      obtain ⟨v, e, sub, seq, p, hv, htable, rfl⟩ := hu
      exact ⟨v, e, sub, seq, p, Frame.trans hr hv hrow, htable, rfl⟩
    | held p => rw [hfu] at hu; exact absurd (hwait.symm.trans hu) nofun
  | raised t => exact hr
  | held p => exact hr

/-- What a stage of command `j` may end with, a command that begins with that stage may. -/
theorem StageEnd.Within.widen {i j : Instr} {s : State} {r : StageEnd} (hr : r.Within j s)
    (hrow : writes j ⊆ writes i := by decide) (hwait : waitPhase j = waitPhase i := by rfl) :
    r.Within i s := by
  cases r with
  | ok t => exact (Frame.refl _ s).trans hr hrow
  | raised t =>
    obtain ⟨v, e, sub, seq, p, hv, htable, rfl⟩ := hr
    exact ⟨v, e, sub, seq, p, (Frame.refl _ s).trans hv hrow, htable, rfl⟩
  | held p => exact hwait.symm.trans hr

theorem raise_within {i : Instr} {s : State} {e : ErrorKind} {sub : BitVec 4} {seq : Option Word}
    {p : Phase} (h : (e, sub) ∈ errorTable) :
    (StageEnd.raised (s.raise e sub seq p)).Within i s :=
  ⟨s, e, sub, seq, p, .refl _ s, h, rfl⟩

/-! ## The stages write their rows -/

theorem stageLdblk_within (s : State) : (stageLdblk s).Within .ldblk s := by
  rcases stageLdblk_cases s with ⟨-, he⟩ | ⟨-, he⟩ <;> rw [he]
  · exact {}
  · rfl

theorem stageStd_within (s : State) : (stageStd s).Within .std s := by
  rw [stageStd_eq]
  exact {}

theorem stageRot_within (s : State) : (stageRot s).Within .rot s := by
  rcases stageRot_cases s with ⟨-, he⟩ | ⟨-, he⟩ <;> rw [he]
  · exact {}
  · exact raise_within (by decide)

theorem stageUnrot_within (s : State) : (stageUnrot s).Within .unrot s := by
  rcases stageUnrot_cases s with ⟨-, he⟩ | ⟨-, he⟩ <;> rw [he]
  · exact {}
  · exact raise_within (by decide)

theorem stageMtfe_within (s : State) : (stageMtfe s).Within .mtfe s := by
  rw [stageMtfe_eq]
  exact {}

theorem stageMtfd_within (s : State) : (stageMtfd s).Within .mtfd s := by
  rw [stageMtfd_eq]
  exact {}

theorem stageHcnt_within (s : State) : (stageHcnt s).Within .hcnt s := by
  rw [stageHcnt_eq]
  exact {}

theorem stageHtree_within (s : State) : (stageHtree s).Within .htree s := by
  rw [stageHtree_eq]
  exact {}

theorem stageHcode_within (s : State) : (stageHcode s).Within .hcode s := by
  rw [stageHcode_eq]
  exact {}

theorem stageHenc_within (s : State) : (stageHenc s).Within .henc s := by
  rcases stageHenc_cases s with ⟨-, he⟩ | ⟨-, -, he⟩ | ⟨-, -, -, he⟩ | ⟨-, -, -, he⟩ <;> rw [he]
  · exact {}
  · exact raise_within (by decide)
  · exact raise_within (by decide)
  · exact {}

theorem stageHdec_within (s : State) : (stageHdec s).Within .hdec s := by
  rcases stageHdec_cases s with ⟨out, he, -⟩ | ⟨he, -⟩ | ⟨he, -⟩ <;> rw [he]
  · exact {}
  · exact raise_within (by decide)
  · exact raise_within (by decide)

theorem stageCtser_within (s : State) : (stageCtser s).Within .ctser s := by
  rw [stageCtser_eq]
  exact {}

theorem stageCtdes_within (s : State) : (stageCtdes s).Within .ctdes s := by
  rcases stageCtdes_cases s with ⟨t, -, he⟩ | ⟨-, he⟩ <;> rw [he]
  · exact {}
  · exact raise_within (by decide)

theorem stageFrame_within (s : State) : (stageFrame s).Within .frame s := by
  rcases stageFrame_cases s with ⟨-, he⟩ | ⟨-, he⟩ <;> rw [he]
  · exact {}
  · exact raise_within (by decide)

theorem stageDeframe_within (s : State) : (stageDeframe s).Within .deframe s := by
  rcases stageDeframe_cases s with
    ⟨seq, rt, cs, p, len, -, he⟩ | ⟨seq, -, he⟩ | ⟨seq, -, he⟩ | ⟨-, he⟩ | ⟨-, he⟩ <;> rw [he]
  · exact {}
  · exact raise_within (by decide)
  · exact raise_within (by decide)
  · exact {}
  · rfl

theorem stageCollect_within (s : State) : (stageCollect s).Within .collect s := by
  rcases stageCollect_cases s with ⟨-, -, he⟩ | ⟨-, he⟩ | ⟨-, -, he⟩ <;> rw [he]
  · exact {}
  · exact raise_within (by decide)
  · exact raise_within (by decide)

/-- `CONCAT`, also as the last pass of `DECOMP`. -/
theorem stageConcat_within {i : Instr} (s : State) (hrow : writes .concat ⊆ writes i) :
    (stageConcat s).Within i s := by
  have h : Frame (writes .concat) s { s with
      rs := []
      out := s.out ++ s.rs.concat
      outCnt := s.outCnt + BitVec.ofNat 32 s.rs.concat.length
      phase := .concat } := {}
  rw [stageConcat_eq]
  exact (Frame.refl _ s).trans h hrow

theorem stagesCblk_within (s : State) : (stagesCblk s).Within .cblk s :=
  (stageLdblk_within s).widen
    |>.andThen .rot stageRot_within
    |>.andThen .mtfe stageMtfe_within
    |>.andThen .hcnt stageHcnt_within
    |>.andThen .htree stageHtree_within
    |>.andThen .hcode stageHcode_within
    |>.andThen .henc stageHenc_within
    |>.andThen .ctser stageCtser_within
    |>.andThen .frame stageFrame_within

theorem stagesDblk_within (s : State) : (stagesDblk s).Within .dblk s := by
  rw [stagesDblk]
  split_ifs
  · exact (stageDeframe_within s).widen
  · exact (stageDeframe_within s).widen
      |>.andThen .ctdes stageCtdes_within
      |>.andThen .hdec stageHdec_within
      |>.andThen .mtfd stageMtfd_within
      |>.andThen .unrot stageUnrot_within
      |>.andThen .collect stageCollect_within

/-- R45, R263, R298: the stages of a command write its row, raise an error of the table, or wait in
its phase. -/
theorem stagesOf_within {i : Instr} (hi : i ≠ .srst) (s : State) : (stagesOf i s).Within i s := by
  cases i with
  | nop => exact .refl _ s
  | setbs imm =>
    rw [stagesOf]
    split_ifs
    · exact {}
    · exact raise_within (by decide)
  | setcs imm =>
    rw [stagesOf]
    split_ifs
    · exact {}
    · exact raise_within (by decide)
  | srst => exact absurd rfl hi
  | ldblk => exact stageLdblk_within s
  | std => exact stageStd_within s
  | rot => exact stageRot_within s
  | unrot => exact stageUnrot_within s
  | mtfe => exact stageMtfe_within s
  | mtfd => exact stageMtfd_within s
  | hcnt => exact stageHcnt_within s
  | htree => exact stageHtree_within s
  | hcode => exact stageHcode_within s
  | henc => exact stageHenc_within s
  | hdec => exact stageHdec_within s
  | ctser => exact stageCtser_within s
  | ctdes => exact stageCtdes_within s
  | frame => exact stageFrame_within s
  | deframe => exact stageDeframe_within s
  | collect => exact stageCollect_within s
  | concat => exact stageConcat_within s (by decide)
  | cblk => exact stagesCblk_within s
  | dblk => exact stagesDblk_within s
  | comp =>
    rw [stagesOf]
    split_ifs
    · exact .refl _ s
    · exact (stagesCblk_within s).widen
  | decomp =>
    rw [stagesOf]
    split_ifs
    · exact stageConcat_within s (by decide)
    · exact (stagesDblk_within s).widen

/-- What a command other than `SRST` leaves: an error of the table after writes to its row; or no
new error, and then it has ended or stays in the phase in which it waits or passes. -/
theorem exec_cases {i : Instr} (hi : i ≠ .srst) {s t : State} (h : exec i s = .next t) :
    RaisedFrom (writes i) s t ∨ (Frame (writes i) s t ∧
      (t.cur = none ∧ t.phase = .idle ∨ t.cur = some i ∧ waitPhase i = some t.phase)) := by
  have hends := exec_ends h
  have hw := stagesOf_within hi s
  generalize stagesOf i s = r at hends hw
  cases hends with
  | done u => exact .inr ⟨Frame.trans hw (.endCommand _ u) (List.Subset.refl _), .inl ⟨rfl, rfl⟩⟩
  | pass u hp => exact .inr ⟨Frame.trans hw (.holdAt _ u i _) (List.Subset.refl _), .inr ⟨rfl, hp⟩⟩
  | raised => exact .inl hw
  | held p => exact .inr ⟨.holdAt _ s i p, .inr ⟨rfl, hw⟩⟩

theorem exec_srst {s t : State} (h : exec .srst s = .next t) : t = s.softReset := by
  cases h
  rfl

/-! ## What the stages keep, every command and every step keep -/

/-- The stages end in states that meet `I`. -/
def StageEnd.All (I : State → Prop) : StageEnd → Prop
  | .ok t | .raised t => I t
  | .held _ => True

/-- From a state that meets `I` the stages `f` end in such states. -/
def Keeps (I : State → Prop) (f : State → StageEnd) : Prop := ∀ s, I s → (f s).All I

/-- `I` says nothing of the sequencer's queue and registers and of the error registers. -/
def IgnoresSequencer (I : State → Prop) : Prop :=
  ∀ s q c p e w v, I s →
    I { s with cmdq := q, cur := c, phase := p, err := e, errCause := w, errSeq := v }

section
variable {I : State → Prop}

theorem IgnoresSequencer.fetch (hI : IgnoresSequencer I) {s : State} (hs : I s) (rest : List Word)
    (i : Instr) : I (s.fetch rest i) := hI s _ _ _ _ _ _ hs

theorem IgnoresSequencer.endCommand (hI : IgnoresSequencer I) {s : State} (hs : I s) :
    I s.endCommand := hI s _ _ _ _ _ _ hs

theorem IgnoresSequencer.holdAt (hI : IgnoresSequencer I) {s : State} (hs : I s) (i : Instr)
    (p : Phase) : I (s.holdAt i p) := hI s _ _ _ _ _ _ hs

theorem IgnoresSequencer.raise (hI : IgnoresSequencer I) {s : State} (hs : I s) (e : ErrorKind)
    (sub : BitVec 4) (seq : Option Word) (p : Phase) : I (s.raise e sub seq p) :=
  hI s _ _ _ _ _ _ hs

theorem IgnoresSequencer.ends (hI : IgnoresSequencer I) {i : Instr} {s t : State} {r : StageEnd}
    (hs : I s) (hr : r.All I) (h : Ends i s r t) : I t := by
  cases h with
  | done u => exact hI.endCommand hr
  | pass u => exact hI.holdAt hr i _
  | raised => exact hr
  | held p => exact hI.holdAt hs i p

theorem StageEnd.All.andThen {J : State → Prop} {r : StageEnd} {f : State → StageEnd}
    (hr : r.All I) (hf : ∀ u, I u → (f u).All J) (hIJ : ∀ u, I u → J u) :
    (r.andThen f).All J := by
  cases r with
  | ok u => exact hf u hr
  | raised u => exact hIJ u hr
  | held p => trivial

theorem Keeps.andThen {f g : State → StageEnd} (hf : Keeps I f) (hg : Keeps I g) :
    Keeps I fun s => (f s).andThen g :=
  fun s hs => (hf s hs).andThen hg fun _ => id

/-- What the commands of one stage keep, those of several stages keep. -/
theorem keeps_stagesOf (h : ∀ j, isMacro j = false → Keeps I (stagesOf j)) (i : Instr) :
    Keeps I (stagesOf i) := by
  have hcblk : Keeps I stagesCblk :=
    h .ldblk rfl
      |>.andThen (h .rot rfl)
      |>.andThen (h .mtfe rfl)
      |>.andThen (h .hcnt rfl)
      |>.andThen (h .htree rfl)
      |>.andThen (h .hcode rfl)
      |>.andThen (h .henc rfl)
      |>.andThen (h .ctser rfl)
      |>.andThen (h .frame rfl)
  have hrecord := h .deframe rfl
    |>.andThen (h .ctdes rfl)
      |>.andThen (h .hdec rfl)
      |>.andThen (h .mtfd rfl)
      |>.andThen (h .unrot rfl)
      |>.andThen (h .collect rfl)
  have hdblk : Keeps I stagesDblk := by
    intro s hs
    rw [stagesDblk]
    split_ifs
    · exact h .deframe rfl s hs
    · exact hrecord s hs
  cases i with
  | cblk => exact hcblk
  | dblk => exact hdblk
  | comp =>
    intro s hs
    rw [stagesOf]
    split_ifs
    · exact hs
    · exact hcblk s hs
  | decomp =>
    intro s hs
    rw [stagesOf]
    split_ifs
    · exact h .concat rfl s hs
    · exact hdblk s hs
  | _ => exact h _ rfl

theorem exec_keeps (hI : IgnoresSequencer I) (h : ∀ j, isMacro j = false → Keeps I (stagesOf j))
    {i : Instr} {s t : State} (hs : I s) (hexec : exec i s = .next t) : I t :=
  hI.ends hs (keeps_stagesOf h i s hs) (exec_ends hexec)

/-- A property that the stages keep and that says nothing of the sequencer is kept by every step. -/
theorem step_keeps (hI : IgnoresSequencer I) (h : ∀ j, isMacro j = false → Keeps I (stagesOf j))
    {s t : State} (hs : I s) (hstep : step s = .next t) : I t := by
  cases step_stepped hstep with
  | idle => exact hs
  | goesOn _ _ hexec => exact exec_keeps hI h hs hexec
  | takes rest _ _ hexec => exact exec_keeps hI h (hI.fetch hs rest _) hexec
  | discards q => exact hI s _ _ _ _ _ _ hs
  | illegal q => exact hI s _ _ _ _ _ _ hs

/-- A command keeps what depends on none of the elements of its row. -/
theorem keeps_of_row (hI : IgnoresSequencer I) (L : List Elem)
    (hL : ∀ s t, I s → (∀ e ∈ L, Elem.Same s t e) → I t) {j : Instr} (hj : j ≠ .srst)
    (hrow : ∀ e ∈ L, e ∉ writes j) : Keeps I (stagesOf j) := by
  intro s hs
  have hframe : ∀ u, Frame (writes j) s u → I u :=
    fun u hu => hL s u hs fun e he => hu.same e (hrow e he)
  have hw := stagesOf_within hj s
  cases hr : stagesOf j s with
  | ok t => rw [hr] at hw; exact hframe t hw
  | raised t =>
    rw [hr] at hw
    obtain ⟨u, e, sub, seq, p, hu, -, rfl⟩ := hw
    exact hI.raise (hframe u hu) e sub seq p
  | held p => trivial

end

/-- Settles O58: a command other than `SRST` has written its row, with or without an error raised
afterwards; `SRST` keeps `OUT` and its count. -/
theorem commandsWriteOnlyTheirRow : Obligations.CommandsWriteOnlyTheirRow := by
  unfold Obligations.CommandsWriteOnlyTheirRow
  intro i s t h
  by_cases hi : i = .srst
  · subst hi
    obtain rfl := exec_srst h
    refine ⟨fun e he => ?_, rfl, rfl, rfl, fun hne => absurd rfl hne⟩
    cases e <;> simp_all [writes, Elem.Same]
  · rcases exec_cases hi h with ⟨u, e, sub, seq, p, hu, -, rfl⟩ | ⟨ht, -⟩
    · exact ⟨fun el hel => same_trans (hu.same el hel) (by cases el <;> rfl), hu.cfg, hu.cmdq,
        hu.outRead, fun _ => .inr rfl⟩
    · exact ⟨ht.same, ht.cfg, ht.cmdq, ht.outRead, fun _ => .inl ⟨ht.err, ht.errCause, ht.errSeq⟩⟩

end Sys2Proof.Machine
end

section
/-! The sequencer, the flags and the error registers (R23 to R27, R263, R266), and the count of
records (R30, R202). -/

namespace Sys2Proof.Machine

open Sys2Proof.Claims

/-! ## The flags of the streams -/

/-- The part of `SequencerOk` that the stages keep by themselves: the end of the container is the end
of the input, and a wrapped `SEQ` is 0 (R24, R30, R61). -/
structure FlagsOk (s : State) : Prop where
  container_end : s.eoc = true → s.eoi = true ∧ s.inp = []
  wrapped : s.seqOvf = true → s.seq = 0

theorem flagsOk_ignoresSequencer : IgnoresSequencer FlagsOk :=
  fun _ _ _ _ _ _ _ hs => ⟨hs.container_end, hs.wrapped⟩

/-- The elements `FlagsOk` speaks of. -/
def flagElems : List Elem := [.eoc, .eoi, .inp, .seqOvf, .seq]

theorem FlagsOk.of_same {s t : State} (hs : FlagsOk s) (h : ∀ e ∈ flagElems, Elem.Same s t e) :
    FlagsOk t := by
  have heoc : t.eoc = s.eoc := h .eoc (by decide)
  have heoi : t.eoi = s.eoi := h .eoi (by decide)
  have hinp : t.inp = s.inp := h .inp (by decide)
  have hovf : t.seqOvf = s.seqOvf := h .seqOvf (by decide)
  have hseq : t.seq = s.seq := h .seq (by decide)
  exact ⟨by rw [heoc, heoi, hinp]; exact hs.container_end, by rw [hovf, hseq]; exact hs.wrapped⟩

/-- Taking bytes from an input that has ended with the container leaves it empty. -/
theorem FlagsOk.drop {s : State} (hs : FlagsOk s) (n : Nat) :
    s.eoc = true → s.eoi = true ∧ s.inp.drop n = [] := fun heoc => by
  obtain ⟨heoi, hinp⟩ := hs.container_end heoc
  exact ⟨heoi, by rw [hinp, List.drop_nil]⟩

theorem stageLdblk_flagsOk : Keeps FlagsOk stageLdblk := by
  intro s hs
  rcases stageLdblk_cases s with ⟨-, he⟩ | ⟨-, he⟩ <;> rw [he]
  · exact ⟨hs.drop _, hs.wrapped⟩
  · trivial

/-- R204: the end of the container is found where the input has ended and is used up. -/
theorem deframeOutcome_endOfContainer {s : State} (h : deframeOutcome s = .endOfContainer) :
    s.eoi = true ∧ s.inp = [] := by
  rw [deframeOutcome] at h
  cases hp : parseRecord s.cfg s.inp with
  | complete | oversize => simp [hp] at h
  | incomplete seq =>
    simp only [hp] at h
    split_ifs at h with heoi hinp
    exact ⟨heoi, hinp⟩

theorem stageDeframe_flagsOk : Keeps FlagsOk stageDeframe := by
  intro s hs
  rcases stageDeframe_cases s with
    ⟨seq, rt, cs, p, len, -, he⟩ | ⟨seq, -, he⟩ | ⟨seq, -, he⟩ | ⟨hend, he⟩ | ⟨-, he⟩ <;> rw [he]
  · exact ⟨hs.drop _, hs.wrapped⟩
  · exact flagsOk_ignoresSequencer.raise hs _ _ _ _
  · exact flagsOk_ignoresSequencer.raise hs _ _ _ _
  · exact ⟨fun _ => deframeOutcome_endOfContainer hend, hs.wrapped⟩
  · trivial

theorem stageFrame_flagsOk : Keeps FlagsOk stageFrame := by
  intro s hs
  rcases stageFrame_cases s with ⟨-, he⟩ | ⟨-, he⟩ <;> rw [he]
  · exact ⟨hs.container_end, fun hovf => if_pos (of_decide_eq_true hovf)⟩
  · exact flagsOk_ignoresSequencer.raise hs _ _ _ _

theorem stagesOf_flagsOk (j : Instr) (hj : isMacro j = false) : Keeps FlagsOk (stagesOf j) := by
  cases j with
  | ldblk => exact stageLdblk_flagsOk
  | deframe => exact stageDeframe_flagsOk
  | frame => exact stageFrame_flagsOk
  | srst => exact fun s _ => ⟨nofun, nofun⟩
  | cblk | dblk | comp | decomp => cases hj
  | _ =>
    exact keeps_of_row flagsOk_ignoresSequencer flagElems (fun _ _ => .of_same) nofun
      (by rw [writes]; decide)

/-! ## The sequencer -/

theorem SequencerOk.flagsOk {s : State} (hs : SequencerOk s) : FlagsOk s :=
  ⟨hs.container_end, hs.wrapped⟩

theorem raise_sequencerOk {s : State} {e : ErrorKind} {sub : BitVec 4} {seq : Option Word}
    {p : Phase} (htable : (e, sub) ∈ errorTable) (hf : FlagsOk (s.raise e sub seq p)) :
    SequencerOk (s.raise e sub seq p) where
  idle_phase _ herr := by cases herr
  error_ends_command _ := rfl
  waiting i hi := by cases hi
  no_error herr := by cases herr
  error _ := ⟨e, sub, seq, htable, rfl, rfl⟩
  container_end := hf.container_end
  wrapped := hf.wrapped

theorem softReset_sequencerOk (s : State) : SequencerOk s.softReset where
  idle_phase _ _ := rfl
  error_ends_command _ := rfl
  waiting i hi := by cases hi
  no_error _ := ⟨rfl, rfl⟩
  error herr := by cases herr
  container_end heoc := by cases heoc
  wrapped hovf := by cases hovf

/-- A command begun without an error, or `SRST`, leaves the sequencer consistent. -/
theorem exec_sequencerOk {i : Instr} {s t : State} (hf : FlagsOk s)
    (herr : s.err = true → i = .srst) (hrec : s.err = false → s.errCause = 0 ∧ s.errSeq = 0)
    (h : exec i s = .next t) : SequencerOk t := by
  by_cases hi : i = .srst
  · subst hi
    obtain rfl := exec_srst h
    exact softReset_sequencerOk s
  · have hft : FlagsOk t := exec_keeps flagsOk_ignoresSequencer stagesOf_flagsOk hf h
    have hok : s.err = false := by simpa using mt herr hi
    obtain ⟨hcause, hseq⟩ := hrec hok
    rcases exec_cases hi h with ⟨u, e, sub, seq, p, -, htable, rfl⟩ | ⟨ht, hend⟩
    · exact raise_sequencerOk htable hft
    · have hnoerr : t.err = false := ht.err.trans hok
      exact {
        idle_phase := fun hcur _ => by
          rcases hend with ⟨-, hp⟩ | ⟨hc, -⟩
          · exact hp
          · cases hc.symm.trans hcur
        error_ends_command := fun hterr => by cases hnoerr.symm.trans hterr
        waiting := fun j hj => by
          rcases hend with ⟨hc, -⟩ | ⟨hc, hp⟩
          · cases hc.symm.trans hj
          · obtain rfl := Option.some.inj (hc.symm.trans hj)
            exact hp
        no_error := fun _ => ⟨ht.errCause.trans hcause, ht.errSeq.trans hseq⟩
        error := fun hterr => by cases hnoerr.symm.trans hterr
        container_end := hft.container_end
        wrapped := hft.wrapped }

/-- Settles O55: a step waits, discards a command of the error state, raises `IllegalCommand`, or
executes a command, which ends, waits, passes, or raises an error of the table. -/
theorem sequencerStaysConsistent : Obligations.SequencerStaysConsistent := by
  unfold Obligations.SequencerStaysConsistent
  intro s t hs hstep
  cases step_stepped hstep with
  | idle => exact hs
  | goesOn _ herr h => exact exec_sequencerOk hs.flagsOk herr hs.no_error h
  | takes rest _ herr h =>
    exact exec_sequencerOk (flagsOk_ignoresSequencer.fetch hs.flagsOk rest _) herr hs.no_error h
  | discards q herr =>
    exact {
      idle_phase := fun _ hok => by cases herr.symm.trans hok
      error_ends_command := fun _ => rfl
      waiting := fun i hi => by cases hi
      no_error := hs.no_error
      error := hs.error
      container_end := hs.container_end
      wrapped := hs.wrapped }
  | illegal q =>
    exact raise_sequencerOk (by decide) (flagsOk_ignoresSequencer s _ _ _ _ _ _ hs.flagsOk)

/-! ## The count of records -/

/-- `u` has the `OUT` and the record count of `s`. -/
structure SameCount (s u : State) : Prop where
  out : u.out = s.out
  seq : u.seq = s.seq
  seqOvf : u.seqOvf = s.seqOvf

/-- What happens to `OUT` and the count of records when the state becomes `t`: nothing, or a record
with the next number is pushed and counted (R30, R202). -/
def Counted (s t : State) : Prop :=
  (recordsWritten t = recordsWritten s ∧ t.out = s.out) ∨
    (recordsWritten t = recordsWritten s + 1 ∧ ∃ rest, t.out = s.out ++ be32 s.seq ++ rest)

theorem recordsWritten_congr {s t : State} (hseq : t.seq = s.seq) (hovf : t.seqOvf = s.seqOvf) :
    recordsWritten t = recordsWritten s := by
  rw [recordsWritten, recordsWritten, hseq, hovf]

theorem SameCount.counted {s u : State} (h : SameCount s u) : Counted s u :=
  .inl ⟨recordsWritten_congr h.seq h.seqOvf, h.out⟩

theorem sameCount_ignoresSequencer (s : State) : IgnoresSequencer (SameCount s) :=
  fun _ _ _ _ _ _ _ h => ⟨h.out, h.seq, h.seqOvf⟩

theorem counted_ignoresSequencer (s : State) : IgnoresSequencer (Counted s) :=
  fun _ _ _ _ _ _ _ h => h

theorem SameCount.of_same {s u v : State} (h : SameCount s u)
    (hsame : ∀ e ∈ [Elem.out, .seq, .seqOvf], Elem.Same u v e) : SameCount s v where
  out := (show v.out = u.out from hsame .out (by decide)).trans h.out
  seq := (show v.seq = u.seq from hsame .seq (by decide)).trans h.seq
  seqOvf := (show v.seqOvf = u.seqOvf from hsame .seqOvf (by decide)).trans h.seqOvf

/-- A command that pushes and counts nothing by its row. -/
theorem keeps_sameCount (s : State) {j : Instr} (hj : j ≠ .srst := by nofun)
    (hrow : ∀ e ∈ [Elem.out, .seq, .seqOvf], e ∉ writes j := by decide) :
    Keeps (SameCount s) (stagesOf j) :=
  keeps_of_row (sameCount_ignoresSequencer s) _ (fun _ _ => .of_same) hj hrow

/-- R30, R202: `FRAME` pushes and counts a record; the number after the last is the 33-bit count's
carry. -/
theorem stageFrame_counted {s u : State} (h : SameCount s u) : (stageFrame u).All (Counted s) := by
  obtain ⟨hout, hseq, hovf⟩ := h
  rcases stageFrame_cases u with ⟨hnum, he⟩ | ⟨-, he⟩ <;> rw [he]
  · refine .inr ⟨?_, u.record.drop 4, ?_⟩
    · by_cases hmax : s.seq = 0xFFFFFFFF#32
      · simp [recordsWritten, ← hovf, hnum, hseq, hmax]
      · have hlt := s.seq.isLt
        have hne : s.seq.toNat ≠ 0xFFFFFFFF := fun h => hmax (BitVec.eq_of_toNat_eq h)
        simp [recordsWritten, ← hovf, hnum, hseq, hmax]
        omega
    · rw [← hout, ← hseq, List.append_assoc]
      rfl
  · exact SameCount.counted ⟨hout, hseq, hovf⟩

theorem stagesCblk_counted (s : State) : (stagesCblk s).All (Counted s) := by
  have hbefore := keeps_sameCount s (j := .ldblk)
    |>.andThen (keeps_sameCount s (j := .rot))
    |>.andThen (keeps_sameCount s (j := .mtfe))
    |>.andThen (keeps_sameCount s (j := .hcnt))
    |>.andThen (keeps_sameCount s (j := .htree))
    |>.andThen (keeps_sameCount s (j := .hcode))
    |>.andThen (keeps_sameCount s (j := .henc))
    |>.andThen (keeps_sameCount s (j := .ctser))
  exact (hbefore s ⟨rfl, rfl, rfl⟩).andThen (fun _ => stageFrame_counted) fun _ => SameCount.counted

theorem exec_counted {i : Instr} {s t : State} (hi : i = .frame ∨ i = .cblk ∨ i = .comp)
    (h : exec i s = .next t) : Counted s t := by
  have hsame : Counted s s := .inl ⟨rfl, rfl⟩
  refine (counted_ignoresSequencer s).ends hsame ?_ (exec_ends h)
  rcases hi with rfl | rfl | rfl
  · exact stageFrame_counted ⟨rfl, rfl, rfl⟩
  · exact stagesCblk_counted s
  · rw [stagesOf]
    split_ifs
    · exact hsame
    · exact stagesCblk_counted s

/-- R45: who writes the number of records. -/
theorem seq_not_mem_writes {i : Instr} (hframe : i ≠ .frame) (hcblk : i ≠ .cblk) (hcomp : i ≠ .comp)
    (hsrst : i ≠ .srst) : ∀ e ∈ [Elem.seq, .seqOvf], e ∉ writes i := by
  cases i with
  | frame => exact absurd rfl hframe
  | cblk => exact absurd rfl hcblk
  | comp => exact absurd rfl hcomp
  | srst => exact absurd rfl hsrst
  | _ => rw [writes]; decide

/-- Settles O59: only `FRAME`, alone or as the last stage of `CBLK`, writes `SEQ` and pushes; the
other commands have neither in their rows. -/
theorem everyRecordPushedIsCounted : Obligations.EveryRecordPushedIsCounted := by
  unfold Obligations.EveryRecordPushedIsCounted
  intro i s t _ h
  refine ⟨fun hi => exec_counted hi h, ?_, fun hframe hcblk hcomp hsrst => ?_⟩
  · rintro rfl
    obtain rfl := exec_srst h
    exact ⟨rfl, rfl⟩
  · obtain ⟨hsame, -⟩ := commandsWriteOnlyTheirRow i s t h
    have hrow := seq_not_mem_writes hframe hcblk hcomp hsrst
    exact recordsWritten_congr (hsame .seq (hrow .seq (by decide)))
      (hsame .seqOvf (hrow .seqOvf (by decide)))

end Sys2Proof.Machine
end

section
/-! The sizes, the buffers and the tables keep their invariant (R28 to R44). -/

namespace Sys2Proof.Machine

open Sys2Proof.Claims

/-! ## What the operations produce fits -/

/-- R99: a record that is read fits the core. -/
theorem parsePayload_complete {cfg : Config} {b : List Byte} {seq seq' : Word} {rt rt' : List Word}
    {cs cs' p : List Byte} {o len : Nat}
    (h : parsePayload cfg b seq rt cs o = .complete seq' rt' cs' p len) :
    rt' = rt ∧ cs' = cs ∧ p.length ≤ cfg.pcap := by
  rw [parsePayload] at h
  split_ifs at h
  cases h
  refine ⟨rfl, rfl, ?_⟩
  rw [slice_length]
  omega

theorem parseTable_complete {cfg : Config} {b : List Byte} {seq seq' : Word} {rt : List Word}
    {cs p : List Byte} {n o len : Nat}
    (h : parseTable cfg b seq n o = .complete seq' rt cs p len) :
    rt.length = n ∧ cs.length ≤ Config.csCap ∧ p.length ≤ cfg.pcap := by
  rw [parseTable] at h
  split_ifs at h
  obtain ⟨rfl, rfl, hp⟩ := parsePayload_complete h
  refine ⟨by simp, ?_, hp⟩
  rw [slice_length]
  omega

theorem parseRecord_complete {cfg : Config} {b : List Byte} {seq : Word} {rt : List Word}
    {cs p : List Byte} {len : Nat} (h : parseRecord cfg b = .complete seq rt cs p len) :
    rt.length ≤ cfg.rtcap ∧ cs.length ≤ Config.csCap ∧ p.length ≤ cfg.pcap := by
  rw [parseRecord] at h
  split_ifs at h
  obtain ⟨hrt, hcs, hp⟩ := parseTable_complete h
  exact ⟨by omega, hcs, hp⟩

theorem deframeOutcome_record {s : State} {seq : Word} {rt : List Word} {cs p : List Byte}
    {len : Nat} (h : deframeOutcome s = .record seq rt cs p len) :
    rt.length ≤ s.cfg.rtcap ∧ cs.length ≤ Config.csCap ∧ p.length ≤ s.cfg.pcap := by
  rw [deframeOutcome] at h
  cases hp : parseRecord s.cfg s.inp with
  | complete =>
    simp only [hp, DeframeOutcome.record.injEq] at h
    obtain ⟨rfl, rfl, rfl, rfl, rfl⟩ := h
    exact parseRecord_complete hp
  | oversize => simp [hp] at h
  | incomplete =>
    simp only [hp] at h
    split_ifs at h

/-- R169: the matching loop emits at most what `D` holds. -/
theorem matchBits_length_le {ct : CodeTable} {dcap : Nat} {bits cur rest : Bits}
    {out out' : List Byte} (h : matchBits ct dcap bits cur out = .done out' rest)
    (hout : out.length ≤ dcap) : out'.length ≤ dcap := by
  induction bits generalizing cur out with
  | nil =>
    cases h
    exact hout
  | cons b bits ih =>
    rw [matchBits] at h
    cases hs : ct.symbolOf (cur ++ [b]) with
    | none =>
      simp only [hs] at h
      exact ih h hout
    | some x =>
      simp only [hs] at h
      split_ifs at h with hfull
      exact ih h (by rw [List.length_append, List.length_singleton]; omega)

/-! ## The tables -/

/-- R160: the counts of a Block are together at most its length. -/
theorem total_countFreqs_le (d : List Byte) : FreqTable.total (countFreqs d) ≤ d.length := by
  have htotal : FreqTable.total (countFreqs d) =
      (identityList.map fun b => (BitVec.ofNat 32 (d.count b)).toNat).sum := by
    simp [FreqTable.total, countFreqs, tabulate, identityList, Function.comp_def]
  have hmem : ∀ b ∈ (d : Multiset Byte), b ∈ identityList.toFinset :=
    fun b _ => List.mem_toFinset.mpr (mem_of_perm_identity (.refl _) b)
  calc FreqTable.total (countFreqs d)
      _ ≤ (identityList.map fun b => d.count b).sum := by
          rw [htotal]
          refine List.sum_le_sum fun b _ => ?_
          rw [BitVec.toNat_ofNat]
          exact Nat.mod_le _ _
      _ = ∑ b ∈ identityList.toFinset, d.count b :=
          (List.sum_toFinset _ identityList_nodup).symm
      _ = d.length := by simpa using Multiset.sum_count_eq_card hmem

/-- The region's entries have each symbol once, and codes of 1 to 255 bits (R172). -/
structure EntriesOk (es : List (Byte × Bits)) : Prop where
  symbols : (es.map Prod.fst).Nodup
  code_length : ∀ e ∈ es, 1 ≤ e.2.length ∧ e.2.length ≤ 255

theorem EntriesOk.concat {es : List (Byte × Bits)} (h : EntriesOk es) {b : Byte} {c : Bits}
    (hb : es.lookup b = none) (hc : 1 ≤ c.length ∧ c.length ≤ 255) :
    EntriesOk (es ++ [(b, c)]) where
  symbols := by
    rw [List.map_append, List.map_singleton]
    refine h.symbols.append (List.nodup_singleton _) fun x hx hxb => ?_
    obtain rfl := List.mem_singleton.mp hxb
    obtain ⟨e, he, rfl⟩ := List.mem_map.mp hx
    simpa using List.lookup_eq_none_iff.mp hb e he
  code_length e he := by
    rcases List.mem_append.mp he with he | he
    · exact h.code_length e he
    · obtain rfl := List.mem_singleton.mp he
      exact hc

/-- R172: an entry that is read has a code of the length it states. -/
theorem entryCode_take_length {l nb : Byte} {rest : List Byte} (hl : ¬ l = 0)
    (hnb : ¬ nb.toNat ≠ ceilDiv l.toNat 8) (hrest : ¬ rest.length < nb.toNat) :
    1 ≤ ((unpackBits (rest.take nb.toNat)).take l.toNat).length ∧
      ((unpackBits (rest.take nb.toNat)).take l.toNat).length ≤ 255 := by
  have hpos : l.toNat ≠ 0 := fun h => hl (BitVec.eq_of_toNat_eq h)
  have hlt := l.isLt
  rw [ceilDiv] at hnb
  rw [List.length_take, unpackBits_length, List.length_take]
  omega

theorem parseEntries_ok {fuel : Nat} {bs : List Byte} {seen es : List (Byte × Bits)}
    (h : parseEntries fuel bs seen = some es) (hseen : EntriesOk seen) : EntriesOk es := by
  induction fuel, bs, seen using parseEntries.induct with
  | case1 fuel seen =>
    simp only [parseEntries, Option.some.injEq] at h
    exact h ▸ hseen
  | case7 fuel b l nb rest seen hl hnb hrest hpad hnew ih =>
    rw [parseEntries, if_neg hl, if_neg hnb, if_neg hrest, if_neg hpad, if_neg hnew] at h
    exact ih h (hseen.concat (Option.not_isSome_iff_eq_none.mp hnew)
      (entryCode_take_length hl hnb hrest))
  | _ => simp_all [parseEntries]

/-- R172, R173: a region that spells a table spells a Code Table. -/
theorem deserializeTable_ok {cs : List Byte} {ct : CodeTable} (h : deserializeTable cs = some ct) :
    ct.Ok := by
  rw [deserializeTable] at h
  cases hp : parseEntries cs.length cs [] with
  | none => simp [hp] at h
  | some es =>
    simp only [hp] at h
    split_ifs at h with hfree
    cases h
    obtain ⟨hsymbols, hlen⟩ := parseEntries_ok hp ⟨List.nodup_nil, by simp⟩
    exact tableOf_ok hsymbols hfree hlen

/-! ## Sizes and tables through the stages -/

/-- The part of the invariant that says nothing of the sequencer. -/
structure BuffersOk (s : State) : Prop where
  sizes : SizesOk s
  tables : TablesOk s

theorem buffersOk_ignoresSequencer : IgnoresSequencer BuffersOk :=
  fun _ _ _ _ _ _ _ hs => ⟨{ hs.sizes with }, { hs.tables with }⟩

theorem raise_buffersOk {s : State} (hs : BuffersOk s) (e : ErrorKind) (sub : BitVec 4)
    (seq : Option Word) (p : Phase) : (StageEnd.raised (s.raise e sub seq p)).All BuffersOk :=
  buffersOk_ignoresSequencer.raise hs e sub seq p

/-- R251, R252: a size that the decoder lets through. -/
theorem immOperand_toNat (imm : BitVec 24) : (immOperand imm).toNat = imm.toNat := by
  have := imm.isLt
  rw [immOperand, BitVec.toNat_setWidth, Nat.mod_eq_of_lt (by omega)]

theorem setbs_buffersOk (imm : BitVec 24) : Keeps BuffersOk (stagesOf (.setbs imm)) := by
  intro s hs
  rw [stagesOf]
  split_ifs with hwf
  · simp only [Instr.wf, decide_eq_true_eq] at hwf
    have hsize : 1 ≤ (immOperand imm).toNat ∧ (immOperand imm).toNat ≤ s.cfg.dcap ∧
        (immOperand imm).toNat < 2 ^ 24 := by
      rw [immOperand_toNat]
      exact ⟨hwf.1, hwf.2, imm.isLt⟩
    exact ⟨{ hs.sizes with block_size := hsize }, { hs.tables with }⟩
  · exact raise_buffersOk hs _ _ _ _

theorem setcs_buffersOk (imm : BitVec 24) : Keeps BuffersOk (stagesOf (.setcs imm)) := by
  intro s hs
  rw [stagesOf]
  split_ifs with hwf
  · simp only [Instr.wf, decide_eq_true_eq] at hwf
    have hsize : 1 ≤ (immOperand imm).toNat ∧ (immOperand imm).toNat < 2 ^ 24 := by
      rw [immOperand_toNat]
      exact ⟨hwf, imm.isLt⟩
    exact ⟨{ hs.sizes with chunk_size := hsize }, { hs.tables with }⟩
  · exact raise_buffersOk hs _ _ _ _

/-- The number of bytes pushed is counted modulo 2^32 (R37, R44). -/
theorem SizesOk.push {s : State} (hs : SizesOk s) (bs : List Byte) :
    s.outRead ≤ (s.out ++ bs).length ∧
      s.outCnt + BitVec.ofNat 32 bs.length = BitVec.ofNat 32 (s.out ++ bs).length := by
  have hread := hs.read_prefix
  rw [List.length_append, hs.pushed, ← BitVec.ofNat_add]
  exact ⟨by omega, rfl⟩

theorem stageStd_buffersOk : Keeps BuffersOk stageStd := by
  intro s hs
  obtain ⟨hread, hcount⟩ := hs.sizes.push s.d
  exact ⟨{ hs.sizes with read_prefix := hread, pushed := hcount }, { hs.tables with }⟩

theorem stageLdblk_buffersOk : Keeps BuffersOk stageLdblk := by
  intro s hs
  rcases stageLdblk_cases s with ⟨-, he⟩ | ⟨-, he⟩ <;> rw [he]
  · obtain ⟨-, hdcap, -⟩ := hs.sizes.block_size
    have hdata : (s.inp.take (min s.blkSize.toNat s.inp.length)).length ≤ s.cfg.dcap := by
      rw [List.length_take]
      omega
    exact ⟨{ hs.sizes with data := hdata }, { hs.tables with }⟩
  · trivial

theorem stageRot_buffersOk : Keeps BuffersOk stageRot := by
  intro s hs
  rcases stageRot_cases s with ⟨hfit, he⟩ | ⟨-, he⟩ <;> rw [he]
  · exact ⟨{ hs.sizes with
        data := (rotateChunks_length hs.sizes.chunk_size.1 _).trans_le hs.sizes.data
        rotation_table := by simpa [rotateChunks] using hfit }, { hs.tables with }⟩
  · exact raise_buffersOk hs _ _ _ _

theorem stageUnrot_buffersOk : Keeps BuffersOk stageUnrot := by
  intro s hs
  rcases stageUnrot_cases s with ⟨-, he⟩ | ⟨-, he⟩ <;> rw [he]
  · exact ⟨{ hs.sizes with
        data := (unrotateChunks_length hs.sizes.chunk_size.1 _ _).trans_le hs.sizes.data },
      { hs.tables with }⟩
  · exact raise_buffersOk hs _ _ _ _

theorem stageMtfe_buffersOk : Keeps BuffersOk stageMtfe := by
  intro s hs
  exact ⟨{ hs.sizes with data := (mtfEncode_length _ _).trans_le hs.sizes.data },
    { hs.tables with rank_list := mtfEncode_perm _ _ }⟩

theorem stageMtfd_buffersOk : Keeps BuffersOk stageMtfd := by
  intro s hs
  exact ⟨{ hs.sizes with data := (mtfDecode_length _ _).trans_le hs.sizes.data },
    { hs.tables with rank_list := mtfDecode_perm _ _ }⟩

theorem stageHcnt_buffersOk : Keeps BuffersOk stageHcnt := by
  intro s hs
  exact ⟨{ hs.sizes with },
    { hs.tables with freqs := (total_countFreqs_le s.d).trans hs.sizes.data }⟩

theorem stageHtree_buffersOk : Keeps BuffersOk stageHtree := by
  intro s hs
  exact ⟨{ hs.sizes with }, { hs.tables with tree := ⟨s.ft, hs.tables.freqs, rfl⟩ }⟩

theorem stageHcode_buffersOk : Keeps BuffersOk stageHcode := by
  intro s hs
  obtain ⟨ft, -, htr⟩ := hs.tables.tree
  exact ⟨{ hs.sizes with }, { hs.tables with codes := by rw [htr]; exact codesFromTree_ok ft }⟩

theorem stageHenc_buffersOk : Keeps BuffersOk stageHenc := by
  intro s hs
  rcases stageHenc_cases s with ⟨-, he⟩ | ⟨-, -, he⟩ | ⟨-, -, -, he⟩ | ⟨-, -, hfit, he⟩ <;> rw [he]
  · exact ⟨{ hs.sizes with payload := Nat.zero_le _ }, { hs.tables with }⟩
  · exact raise_buffersOk hs _ _ _ _
  · exact raise_buffersOk hs _ _ _ _
  · exact ⟨{ hs.sizes with payload := hfit }, { hs.tables with }⟩

theorem stageHdec_buffersOk : Keeps BuffersOk stageHdec := by
  intro s hs
  rcases stageHdec_cases s with ⟨out, he, hout⟩ | ⟨he, -⟩ | ⟨he, -⟩ <;> rw [he]
  · have hfit : out.length ≤ s.cfg.dcap := by
      rcases hout with ⟨-, rfl⟩ | ⟨pad, packed, bits, -, -, hm⟩
      · exact Nat.zero_le _
      · exact matchBits_length_le hm (Nat.zero_le _)
    exact ⟨{ hs.sizes with data := hfit }, { hs.tables with }⟩
  · exact raise_buffersOk hs _ _ _ _
  · exact raise_buffersOk hs _ _ _ _

theorem stageCtser_buffersOk : Keeps BuffersOk stageCtser := by
  intro s hs
  exact ⟨{ hs.sizes with serialized := serializeTable_length_le hs.tables.codes },
    { hs.tables with }⟩

theorem stageCtdes_buffersOk : Keeps BuffersOk stageCtdes := by
  intro s hs
  rcases stageCtdes_cases s with ⟨ct, hct, he⟩ | ⟨-, he⟩ <;> rw [he]
  · exact ⟨{ hs.sizes with }, { hs.tables with codes := deserializeTable_ok hct }⟩
  · exact raise_buffersOk hs _ _ _ _

theorem stageFrame_buffersOk : Keeps BuffersOk stageFrame := by
  intro s hs
  rcases stageFrame_cases s with ⟨-, he⟩ | ⟨-, he⟩ <;> rw [he]
  · obtain ⟨hread, hcount⟩ := hs.sizes.push s.record
    exact ⟨{ hs.sizes with read_prefix := hread, pushed := hcount }, { hs.tables with }⟩
  · exact raise_buffersOk hs _ _ _ _

theorem stageDeframe_buffersOk : Keeps BuffersOk stageDeframe := by
  intro s hs
  rcases stageDeframe_cases s with
    ⟨seq, rt, cs, p, len, hrec, he⟩ | ⟨seq, -, he⟩ | ⟨seq, -, he⟩ | ⟨-, he⟩ | ⟨-, he⟩ <;> rw [he]
  · obtain ⟨hrt, hcs, hp⟩ := deframeOutcome_record hrec
    exact ⟨{ hs.sizes with rotation_table := hrt, serialized := hcs, payload := hp },
      { hs.tables with }⟩
  · exact raise_buffersOk hs _ _ _ _
  · exact raise_buffersOk hs _ _ _ _
  · exact ⟨{ hs.sizes with }, { hs.tables with }⟩
  · trivial

theorem stageCollect_buffersOk : Keeps BuffersOk stageCollect := by
  intro s hs
  rcases stageCollect_cases s with ⟨hnew, hroom, he⟩ | ⟨-, he⟩ | ⟨-, -, he⟩ <;> rw [he]
  · obtain ⟨hblocks, hbytes⟩ := Store.insert_size s.rs s.rseq s.d hnew
    simp only [storeFull, decide_eq_false_iff_not, not_or, not_lt] at hroom
    exact ⟨{ hs.sizes with
        store_blocks := hblocks.trans_le hroom.1
        store_bytes := hbytes.trans_le hroom.2 },
      { hs.tables with store := Store.insert_wf s.rseq s.d s.rs hs.tables.store }⟩
  · exact raise_buffersOk hs _ _ _ _
  · exact raise_buffersOk hs _ _ _ _

theorem stageConcat_buffersOk : Keeps BuffersOk stageConcat := by
  intro s hs
  obtain ⟨hread, hcount⟩ := hs.sizes.push s.rs.concat
  exact ⟨{ hs.sizes with
      store_blocks := Nat.zero_le _, store_bytes := Nat.zero_le _
      read_prefix := hread, pushed := hcount }, { hs.tables with store := Store.wf_nil }⟩

/-! ## Reset -/

/-- R5, R28: a size that resets to a parameter below 2^24 shows that parameter. -/
theorem toNat_ofNat_size {n : Nat} (h : n < 2 ^ 24) : (BitVec.ofNat 32 n).toNat = n := by
  rw [BitVec.toNat_ofNat, Nat.mod_eq_of_lt (by omega)]

theorem resetWith_sizesOk {cfg : Config} (h : cfg.wf = true) : SizesOk (State.resetWith cfg) := by
  have hwf := h
  simp only [Config.wf, decide_eq_true_eq] at hwf
  obtain ⟨hb1, hbd, hb24, hc1, hc24, -⟩ := hwf
  have hb : (State.resetWith cfg).blkSize.toNat = cfg.blockSizeReset := toNat_ofNat_size hb24
  have hc : (State.resetWith cfg).chkSize.toNat = cfg.chunkSizeReset := toNat_ofNat_size hc24
  exact {
    config := h
    block_size := by rw [hb]; exact ⟨hb1, hbd, hb24⟩
    chunk_size := by rw [hc]; exact ⟨hc1, hc24⟩
    data := Nat.zero_le _
    rotation_table := Nat.zero_le _
    serialized := Nat.zero_le _
    payload := Nat.zero_le _
    store_blocks := Nat.zero_le _
    store_bytes := Nat.zero_le _
    read_prefix := Nat.zero_le _
    pushed := rfl }

/-- A Frequency Table of zeros, whose tree is empty (R39, R40). -/
theorem total_replicate_zero : FreqTable.total (Vector.replicate 256 0) = 0 := by
  rw [FreqTable.total, Vector.toList_replicate, List.map_replicate, List.sum_replicate]
  rfl

theorem buildTree_replicate_zero : buildTree (Vector.replicate 256 0) = [] :=
  buildTree_eq_nil (by simp [occurring])

theorem code_replicate_none (b : Byte) : CodeTable.code (Vector.replicate 256 none) b = none := by
  simp [CodeTable.code]

theorem emptyCodeTable_ok : CodeTable.Ok (Vector.replicate 256 none) where
  length b c h := by rw [code_replicate_none] at h; cases h
  prefix_free b1 _ _ _ _ h := by rw [code_replicate_none] at h; cases h

theorem resetWith_tablesOk (cfg : Config) : TablesOk (State.resetWith cfg) where
  rank_list := .refl _
  freqs := total_replicate_zero.trans_le (Nat.zero_le _)
  tree := ⟨Vector.replicate 256 0, total_replicate_zero.trans_le (Nat.zero_le _),
    buildTree_replicate_zero.symm⟩
  codes := emptyCodeTable_ok
  store := Store.wf_nil

/-- R253: `SRST` keeps the parameters, `OUT` and its counts. -/
theorem softReset_buffersOk : Keeps BuffersOk (stagesOf .srst) := by
  intro s hs
  exact ⟨{ resetWith_sizesOk hs.sizes.config with
      read_prefix := hs.sizes.read_prefix, pushed := hs.sizes.pushed },
    { resetWith_tablesOk s.cfg with }⟩

/-! ## Every step -/

theorem stagesOf_buffersOk (j : Instr) (hj : isMacro j = false) :
    Keeps BuffersOk (stagesOf j) := by
  cases j with
  | nop => exact fun s hs => hs
  | setbs imm => exact setbs_buffersOk imm
  | setcs imm => exact setcs_buffersOk imm
  | srst => exact softReset_buffersOk
  | ldblk => exact stageLdblk_buffersOk
  | std => exact stageStd_buffersOk
  | rot => exact stageRot_buffersOk
  | unrot => exact stageUnrot_buffersOk
  | mtfe => exact stageMtfe_buffersOk
  | mtfd => exact stageMtfd_buffersOk
  | hcnt => exact stageHcnt_buffersOk
  | htree => exact stageHtree_buffersOk
  | hcode => exact stageHcode_buffersOk
  | henc => exact stageHenc_buffersOk
  | hdec => exact stageHdec_buffersOk
  | ctser => exact stageCtser_buffersOk
  | ctdes => exact stageCtdes_buffersOk
  | frame => exact stageFrame_buffersOk
  | deframe => exact stageDeframe_buffersOk
  | collect => exact stageCollect_buffersOk
  | concat => exact stageConcat_buffersOk
  | cblk | dblk | comp | decomp => cases hj

/-- Settles O56: the sequencer by O55, the sizes and the tables stage by stage. -/
theorem stepKeepsTheInvariant : Obligations.StepKeepsTheInvariant := by
  unfold Obligations.StepKeepsTheInvariant
  intro s t hs hstep
  have hbuf : BuffersOk t := step_keeps buffersOk_ignoresSequencer stagesOf_buffersOk
    ⟨hs.sizes, hs.tables⟩ hstep
  exact ⟨sequencerStaysConsistent s t hs.sequencer hstep, hbuf.sizes, hbuf.tables⟩

theorem resetWith_sequencerOk (cfg : Config) : SequencerOk (State.resetWith cfg) :=
  softReset_sequencerOk (State.resetWith cfg)

/-- Settles O4, part by part of the invariant. -/
theorem resetMeetsTheInvariant : Obligations.ResetMeetsTheInvariant := by
  unfold Obligations.ResetMeetsTheInvariant
  exact fun cfg h => ⟨resetWith_sequencerOk cfg, resetWith_sizesOk h, resetWith_tablesOk cfg⟩

end Sys2Proof.Machine
end

section
/-! The host's actions have their effects and keep the invariant (R79, R290, R297). -/

namespace Sys2Proof.Machine

/-! ## What the actions do (R79) -/

/-- R79: with a byte in `OUT` the host pops it; it is the first of those that wait. -/
theorem hostAct_popOut {s : State} {b : Byte} (h : s.outHead = some b) :
    hostAct .popOut s = .next { s with outRead := s.outRead + 1 } ∧
      s.outPending = b :: { s with outRead := s.outRead + 1 }.outPending := by
  obtain ⟨hlt, hb⟩ := List.getElem?_eq_some_iff.mp h
  exact ⟨by rw [hostAct, if_pos hlt], (List.drop_eq_getElem_cons hlt).trans (by rw [hb]; rfl)⟩

/-- R79: with every byte popped there is no `PopOut`. -/
theorem hostAct_popOut_refused {s : State} (h : s.outPending = []) :
    hostAct .popOut s = .refused .popOfEmptyOut := by
  rw [hostAct, if_neg (Nat.not_lt.mpr (List.drop_eq_nil_iff.mp h))]

/-- Settles O54: action by action, from the definition of `hostAct`; `PopOut` by the lemmas above. -/
theorem hostActionsHaveTheirEffects : Obligations.HostActionsHaveTheirEffects := by
  unfold Obligations.HostActionsHaveTheirEffects
  intro s
  refine ⟨fun _ => rfl, fun b h => ?_, fun b h => ?_, rfl, fun b h => ?_,
    hostAct_popOut_refused, fun _ => rfl, rfl⟩
  · simp [hostAct, h]
  · simp [hostAct, h]
  · obtain ⟨hact, hpending⟩ := hostAct_popOut h
    exact ⟨_, hact, hpending, rfl⟩

/-! ## The invariant -/

/-- R61, R297: once the container has ended, the input has ended, and no byte can be pushed. -/
theorem SequencerOk.pushIn {s : State} (hs : SequencerOk s) (heoi : s.eoi = false) (b : Byte) :
    SequencerOk { s with inp := s.inp ++ [b] } :=
  { hs with
    container_end := fun heoc => by
      obtain ⟨hended, -⟩ := hs.container_end heoc
      cases heoi.symm.trans hended }

/-- Settles O57: an action writes `CMDQ`, `IN`, `EOI` or the count of popped bytes, of which the
invariant says what the action's own condition gives; `Reset` leads to the reset state of the same
parameters. -/
theorem hostActionsKeepTheInvariant : Obligations.HostActionsKeepTheInvariant := by
  unfold Obligations.HostActionsKeepTheInvariant
  intro a s t hs hact
  obtain ⟨hseq, hsizes, htables⟩ := hs
  cases a with
  | issueCmd w =>
    cases hact
    exact ⟨{ hseq with }, { hsizes with }, { htables with }⟩
  | pushIn b =>
    rw [hostAct] at hact
    split_ifs at hact with heoi
    cases hact
    exact ⟨hseq.pushIn (by simpa using heoi) b, { hsizes with }, { htables with }⟩
  | setEoi =>
    cases hact
    have hend : s.eoc = true → true = true ∧ s.inp = [] :=
      fun heoc => ⟨rfl, (hseq.container_end heoc).2⟩
    exact ⟨{ hseq with container_end := hend }, { hsizes with }, { htables with }⟩
  | popOut =>
    rw [hostAct] at hact
    split_ifs at hact with hlt
    cases hact
    exact ⟨{ hseq with }, { hsizes with read_prefix := hlt }, { htables with }⟩
  | readReg r =>
    cases hact
    exact ⟨hseq, hsizes, htables⟩
  | reset =>
    cases hact
    exact resetMeetsTheInvariant s.cfg hsizes.config

end Sys2Proof.Machine
end

section
/-! A byte that arrives later is not seen by a command that can begin (R72): the stages behind the
two that read `IN` do not see it, and those two have all they need. -/

namespace Sys2Proof.Machine

open Sys2Proof.Claims

/-! ## Reading a record from a longer input (R99) -/

section
variable {cfg : Config} {b : List Byte}

theorem slice_append_of_le {α : Type} {s : List α} {m n : Nat} (h : n ≤ s.length) (t : List α) :
    slice (s ++ t) m n = slice s m n := by
  rw [slice, slice, List.take_append_of_le_length h]

theorem u32At_append_of_le {o : Nat} (h : o + 4 ≤ b.length) (t : List Byte) :
    u32At (b ++ t) o = u32At b o := by
  rw [u32At, u32At, slice_append_of_le h]

/-- A verdict on the payload field needs that field. -/
theorem le_length_of_parsePayload {seq : Word} {rt : List Word} {cs : List Byte} {o : Nat}
    (h : ∀ q, parsePayload cfg b seq rt cs o ≠ .incomplete q) : o + 4 ≤ b.length := by
  by_contra hlt
  exact h (some seq) (by rw [parsePayload, if_pos (by omega)])

theorem parsePayload_append_of_decided {seq : Word} {rt : List Word} {cs : List Byte} {o : Nat}
    (h : ∀ q, parsePayload cfg b seq rt cs o ≠ .incomplete q) (t : List Byte) :
    parsePayload cfg (b ++ t) seq rt cs o = parsePayload cfg b seq rt cs o := by
  have h4 := le_length_of_parsePayload h
  rw [parsePayload, if_neg (by omega)] at h
  rw [parsePayload, parsePayload, u32At_append_of_le h4, List.length_append,
    if_neg (show ¬ b.length + t.length < o + 4 by omega),
    if_neg (show ¬ b.length < o + 4 by omega)]
  by_cases hcap : cfg.pcap < (u32At b o).toNat
  · rw [if_pos hcap, if_pos hcap]
  · rw [if_neg hcap] at h ⊢
    have hlen : ¬ b.length < o + 4 + (u32At b o).toNat := fun hlt => h _ (if_pos hlt)
    rw [if_neg (by omega), if_neg hcap, if_neg hlen, slice_append_of_le (by omega)]

theorem parseTable_append_of_decided {seq : Word} {n o : Nat} (hn : 8 + 4 * n ≤ o)
    (h : ∀ q, parseTable cfg b seq n o ≠ .incomplete q) (t : List Byte) :
    parseTable cfg (b ++ t) seq n o = parseTable cfg b seq n o := by
  have h4 : ¬ b.length < o + 4 := fun hlt => h (some seq) (by rw [parseTable, if_pos hlt])
  rw [parseTable, if_neg h4] at h
  rw [parseTable, parseTable, u32At_append_of_le (by omega), List.length_append,
    if_neg (by omega), if_neg h4]
  by_cases hcap : Config.csCap < (u32At b o).toNat
  · rw [if_pos hcap, if_pos hcap]
  · rw [if_neg hcap] at h ⊢
    have hlen := le_length_of_parsePayload h
    have hrows : ((List.range n).map fun i => u32At (b ++ t) (8 + 4 * i)) =
        (List.range n).map fun i => u32At b (8 + 4 * i) :=
      List.map_congr_left fun i hi =>
        u32At_append_of_le (by have := List.mem_range.mp hi; omega) t
    rw [if_neg hcap, hrows, slice_append_of_le (by omega), parsePayload_append_of_decided h]

/-- R72, R99: a verdict other than `incomplete` stands, whatever arrives behind. -/
theorem parseRecord_append_of_decided (h : ∀ q, parseRecord cfg b ≠ .incomplete q)
    (t : List Byte) : parseRecord cfg (b ++ t) = parseRecord cfg b := by
  have h4 : ¬ b.length < 4 := fun hlt => h none (by rw [parseRecord, if_pos hlt])
  rw [parseRecord, if_neg h4] at h
  have h8 : ¬ b.length < 8 := fun hlt => h _ (if_pos hlt)
  rw [if_neg h8] at h
  rw [parseRecord, parseRecord, u32At_append_of_le (by omega), u32At_append_of_le (by omega),
    List.length_append, if_neg (by omega), if_neg (by omega), if_neg h4, if_neg h8]
  by_cases hcap : cfg.rtcap < (u32At b 4).toNat
  · rw [if_pos hcap, if_pos hcap]
  · rw [if_neg hcap] at h ⊢
    rw [if_neg hcap, parseTable_append_of_decided le_rfl h]

/-- A record that is read lies within the input. -/
theorem parsePayload_len_le {seq seq' : Word} {rt rt' : List Word} {cs cs' p : List Byte}
    {o len : Nat} (h : parsePayload cfg b seq rt cs o = .complete seq' rt' cs' p len) :
    len ≤ b.length := by
  rw [parsePayload] at h
  split_ifs at h
  cases h
  omega

theorem parseRecord_len_le {seq : Word} {rt : List Word} {cs p : List Byte} {len : Nat}
    (h : parseRecord cfg b = .complete seq rt cs p len) : len ≤ b.length := by
  rw [parseRecord] at h
  split_ifs at h
  rw [parseTable] at h
  split_ifs at h
  exact parsePayload_len_le h

end

/-! ## The state with more input -/

/-- `s` after the bytes `bs` have arrived at the end of `IN`. -/
def State.arrive (bs : List Byte) (s : State) : State := { s with inp := s.inp ++ bs }

/-- The end of a stage, after which the bytes `bs` have arrived. -/
def StageEnd.arrive (bs : List Byte) : StageEnd → StageEnd
  | .ok s => .ok (s.arrive bs)
  | .raised s => .raised (s.arrive bs)
  | .held p => .held p

/-- The stages `f`, begun in `s`, end the same whether the bytes `bs` arrive before or after. -/
def IgnoresArrival (bs : List Byte) (f : State → StageEnd) (s : State) : Prop :=
  f (s.arrive bs) = (f s).arrive bs

section
variable {bs : List Byte} {s t : State} {f g : State → StageEnd}

theorem IgnoresArrival.andThen (hf : IgnoresArrival bs f s) (hg : ∀ u, IgnoresArrival bs g u) :
    IgnoresArrival bs (fun u => (f u).andThen g) s := by
  unfold IgnoresArrival at hf ⊢
  simp only [hf]
  cases f s with
  | ok u => exact hg u
  | raised u => rfl
  | held p => rfl

theorem IgnoresArrival.finish (hf : IgnoresArrival bs f s) (i : Instr)
    (h : finish i s (f s) = .next t) :
    finish i (s.arrive bs) (f (s.arrive bs)) = .next (t.arrive bs) := by
  rw [hf]
  cases hr : f s <;> rw [hr] at h <;> cases h <;> rfl

theorem IgnoresArrival.finishPass (hf : IgnoresArrival bs f s) (i : Instr) {p : Phase}
    (h : finishPass i p s (f s) = .next t) :
    finishPass i p (s.arrive bs) (f (s.arrive bs)) = .next (t.arrive bs) := by
  rw [hf]
  cases hr : f s <;> rw [hr] at h <;> cases h <;> rfl

end

/-! ## The stages that do not read `IN` -/

section
variable (bs : List Byte) (s : State)

theorem stageStd_ignoresArrival : IgnoresArrival bs stageStd s := rfl

theorem stageMtfe_ignoresArrival : IgnoresArrival bs stageMtfe s := rfl

theorem stageMtfd_ignoresArrival : IgnoresArrival bs stageMtfd s := rfl

theorem stageHcnt_ignoresArrival : IgnoresArrival bs stageHcnt s := rfl

theorem stageHtree_ignoresArrival : IgnoresArrival bs stageHtree s := rfl

theorem stageHcode_ignoresArrival : IgnoresArrival bs stageHcode s := rfl

theorem stageCtser_ignoresArrival : IgnoresArrival bs stageCtser s := rfl

theorem stageConcat_ignoresArrival : IgnoresArrival bs stageConcat s := rfl

theorem stageRot_ignoresArrival : IgnoresArrival bs stageRot s := by
  simp only [IgnoresArrival, stageRot, apply_ite (StageEnd.arrive bs)]
  rfl

theorem stageUnrot_ignoresArrival : IgnoresArrival bs stageUnrot s := by
  simp only [IgnoresArrival, stageUnrot, apply_ite (StageEnd.arrive bs)]
  rfl

theorem stageHenc_ignoresArrival : IgnoresArrival bs stageHenc s := by
  simp only [IgnoresArrival, stageHenc, apply_ite (StageEnd.arrive bs)]
  rfl

theorem stageHdec_ignoresArrival : IgnoresArrival bs stageHdec s := by
  simp only [IgnoresArrival, stageHdec, State.arrive]
  split
  · rfl
  · split
    · rfl
    · split <;> rfl

theorem stageCtdes_ignoresArrival : IgnoresArrival bs stageCtdes s := by
  simp only [IgnoresArrival, stageCtdes, State.arrive]
  split <;> rfl

theorem stageFrame_ignoresArrival : IgnoresArrival bs stageFrame s := by
  simp only [IgnoresArrival, stageFrame, countRecord_eq, apply_ite (StageEnd.arrive bs)]
  rfl

theorem stageCollect_ignoresArrival : IgnoresArrival bs stageCollect s := by
  simp only [IgnoresArrival, stageCollect, apply_ite (StageEnd.arrive bs)]
  rfl

theorem setbs_ignoresArrival (imm : BitVec 24) : IgnoresArrival bs (stagesOf (.setbs imm)) s := by
  simp only [IgnoresArrival, stagesOf, apply_ite (StageEnd.arrive bs)]
  rfl

theorem setcs_ignoresArrival (imm : BitVec 24) : IgnoresArrival bs (stagesOf (.setcs imm)) s := by
  simp only [IgnoresArrival, stagesOf, apply_ite (StageEnd.arrive bs)]
  rfl

end

/-! ## The stages that read `IN`, once they can begin -/

section
variable (bs : List Byte) {s : State}

theorem blockReady_arrive (h : s.blkSize.toNat ≤ s.inp.length) :
    blockReady (s.arrive bs) = true :=
  (blockReady_iff _).mpr (.inl (by simp only [State.arrive, List.length_append]; omega))

/-- R200: with a whole Block in `IN`, `LDBLK` takes just that. -/
theorem stageLdblk_ignoresArrival (h : s.blkSize.toNat ≤ s.inp.length) :
    IgnoresArrival bs stageLdblk s := by
  have hlen : blockLength (s.arrive bs) = blockLength s := by
    simp only [blockLength, State.inAvail, State.arrive, List.length_append]
    omega
  have hle : blockLength s ≤ s.inp.length := Nat.min_le_right _ _
  rw [IgnoresArrival, stageLdblk, stageLdblk, if_pos (blockReady_arrive bs h),
    if_pos ((blockReady_iff s).mpr (.inl h)), hlen]
  simp only [StageEnd.arrive, State.arrive, State.inPeek, State.inPop, State.enter,
    List.take_append_of_le_length hle, List.drop_append_of_le_length hle]

/-- R203: what `DEFRAME` finds before the end of the input, it finds whatever arrives behind. -/
theorem deframeOutcome_arrive (heoi : s.eoi = false) (h : deframeOutcome s ≠ .wait) :
    deframeOutcome (s.arrive bs) = deframeOutcome s := by
  have hdecided : ∀ q, parseRecord s.cfg s.inp ≠ .incomplete q :=
    fun q hq => h (by simp [deframeOutcome, hq, heoi])
  have hparse : parseRecord (s.arrive bs).cfg (s.arrive bs).inp = parseRecord s.cfg s.inp :=
    parseRecord_append_of_decided hdecided bs
  rw [deframeOutcome, deframeOutcome, hparse]
  cases hp : parseRecord s.cfg s.inp with
  | complete | oversize => rfl
  | incomplete q => exact absurd hp (hdecided q)

theorem deframeOutcome_record_len_le {seq : Word} {rt : List Word} {cs p : List Byte} {len : Nat}
    (h : deframeOutcome s = .record seq rt cs p len) : len ≤ s.inp.length := by
  rw [deframeOutcome] at h
  cases hp : parseRecord s.cfg s.inp with
  | complete =>
    simp only [hp, DeframeOutcome.record.injEq] at h
    obtain ⟨rfl, rfl, rfl, rfl, rfl⟩ := h
    exact parseRecord_len_le hp
  | oversize => simp [hp] at h
  | incomplete =>
    simp only [hp] at h
    split_ifs at h

theorem stageDeframe_ignoresArrival (heoi : s.eoi = false) (h : deframeOutcome s ≠ .wait) :
    IgnoresArrival bs stageDeframe s := by
  have hsame := deframeOutcome_arrive bs heoi h
  rw [IgnoresArrival, stageDeframe, stageDeframe, hsame]
  cases ho : deframeOutcome s with
  | record seq rt cs p len =>
    simp only [StageEnd.arrive, State.arrive, State.inPop, State.enter,
      List.drop_append_of_le_length (deframeOutcome_record_len_le ho)]
  | oversize | truncated | endOfContainer | wait => rfl

/-! ## The stages of `CBLK` and `DBLK` -/

theorem stagesCblk_ignoresArrival (h : s.blkSize.toNat ≤ s.inp.length) :
    IgnoresArrival bs stagesCblk s :=
  stageLdblk_ignoresArrival bs h
    |>.andThen (stageRot_ignoresArrival bs)
    |>.andThen (stageMtfe_ignoresArrival bs)
    |>.andThen (stageHcnt_ignoresArrival bs)
    |>.andThen (stageHtree_ignoresArrival bs)
    |>.andThen (stageHcode_ignoresArrival bs)
    |>.andThen (stageHenc_ignoresArrival bs)
    |>.andThen (stageCtser_ignoresArrival bs)
    |>.andThen (stageFrame_ignoresArrival bs)

theorem stagesDblk_ignoresArrival (heoi : s.eoi = false) (h : deframeOutcome s ≠ .wait) :
    IgnoresArrival bs stagesDblk s := by
  have hdeframe := stageDeframe_ignoresArrival bs heoi h
  have hrecord := hdeframe
    |>.andThen (stageCtdes_ignoresArrival bs)
    |>.andThen (stageHdec_ignoresArrival bs)
    |>.andThen (stageMtfd_ignoresArrival bs)
    |>.andThen (stageUnrot_ignoresArrival bs)
    |>.andThen (stageCollect_ignoresArrival bs)
  rw [IgnoresArrival, stagesDblk, stagesDblk, deframeOutcome_arrive bs heoi h]
  split_ifs
  · exact hdeframe
  · exact hrecord

end

/-! ## Every command -/

/-- A command that takes Blocks and does not wait for the input's end has a whole Block (R298). -/
theorem block_le_of_not_waits {i : Instr} (hi : i = .ldblk ∨ i = .cblk ∨ i = .comp) {s : State}
    (heoi : s.eoi = false) (hw : waits i s = false) : s.blkSize.toNat ≤ s.inp.length := by
  rcases hi with rfl | rfl | rfl <;> simpa [waits, heoi] using hw

theorem exec_setbs (imm : BitVec 24) (s : State) :
    exec (.setbs imm) s = finish (.setbs imm) s (stagesOf (.setbs imm) s) := by
  simp only [exec, execSetbs, stagesOf, apply_ite (finish _ s), finish_ok, finish_raised]

theorem exec_setcs (imm : BitVec 24) (s : State) :
    exec (.setcs imm) s = finish (.setcs imm) s (stagesOf (.setcs imm) s) := by
  simp only [exec, execSetcs, stagesOf, apply_ite (finish _ s), finish_ok, finish_raised]

/-- R72: a command that can begin, `SRST` excepted, does the same whether bytes arrive before it or
after it. -/
theorem exec_arrive {i : Instr} {s t : State} (hi : i ≠ .srst) (heoi : s.eoi = false)
    (hblk : 1 ≤ s.blkSize.toNat) (hw : waits i s = false) (bs : List Byte)
    (h : exec i s = .next t) : exec i (s.arrive bs) = .next (t.arrive bs) := by
  cases i with
  | srst => exact absurd rfl hi
  | nop => cases h; rfl
  | setbs imm =>
    rw [exec_setbs] at h ⊢
    exact (setbs_ignoresArrival bs s imm).finish (.setbs imm) h
  | setcs imm =>
    rw [exec_setcs] at h ⊢
    exact (setcs_ignoresArrival bs s imm).finish (.setcs imm) h
  | ldblk =>
    exact (stageLdblk_ignoresArrival bs (block_le_of_not_waits (by simp) heoi hw)).finish .ldblk h
  | std => exact (stageStd_ignoresArrival bs s).finish .std h
  | rot => exact (stageRot_ignoresArrival bs s).finish .rot h
  | unrot => exact (stageUnrot_ignoresArrival bs s).finish .unrot h
  | mtfe => exact (stageMtfe_ignoresArrival bs s).finish .mtfe h
  | mtfd => exact (stageMtfd_ignoresArrival bs s).finish .mtfd h
  | hcnt => exact (stageHcnt_ignoresArrival bs s).finish .hcnt h
  | htree => exact (stageHtree_ignoresArrival bs s).finish .htree h
  | hcode => exact (stageHcode_ignoresArrival bs s).finish .hcode h
  | henc => exact (stageHenc_ignoresArrival bs s).finish .henc h
  | hdec => exact (stageHdec_ignoresArrival bs s).finish .hdec h
  | ctser => exact (stageCtser_ignoresArrival bs s).finish .ctser h
  | ctdes => exact (stageCtdes_ignoresArrival bs s).finish .ctdes h
  | frame => exact (stageFrame_ignoresArrival bs s).finish .frame h
  | deframe => exact (stageDeframe_ignoresArrival bs heoi (of_decide_eq_false hw)).finish .deframe h
  | collect => exact (stageCollect_ignoresArrival bs s).finish .collect h
  | concat => exact (stageConcat_ignoresArrival bs s).finish .concat h
  | cblk =>
    exact (stagesCblk_ignoresArrival bs (block_le_of_not_waits (by simp) heoi hw)).finish .cblk h
  | dblk => exact (stagesDblk_ignoresArrival bs heoi (of_decide_eq_false hw)).finish .dblk h
  | comp =>
    have hle := block_le_of_not_waits (by simp) heoi hw
    have hin : s.inAvail ≠ 0 := by rw [State.inAvail]; omega
    have hin' : (s.arrive bs).inAvail ≠ 0 := by
      simp only [State.inAvail, State.arrive, List.length_append] at hin ⊢
      omega
    simp only [exec, execComp] at h ⊢
    rw [if_pos ((blockReady_iff s).mpr (.inl hle)), if_neg hin] at h
    rw [if_pos (blockReady_arrive bs hle), if_neg hin']
    exact (stagesCblk_ignoresArrival bs hle).finishPass .comp h
  | decomp =>
    have hend : atContainerEnd (s.arrive bs) = atContainerEnd s := rfl
    simp only [exec, execDecomp, hend] at h ⊢
    cases hce : atContainerEnd s with
    | true =>
      rw [hce] at h
      exact (stageConcat_ignoresArrival bs s).finish .decomp h
    | false =>
      have hout : deframeOutcome s ≠ .wait := by
        simp only [atContainerEnd] at hce
        simpa [waits, hce] using hw
      rw [hce] at h
      exact (stagesDblk_ignoresArrival bs heoi hout).finishPass .decomp h

/-- Settles O53: one byte that arrives is a case of `exec_arrive`. -/
theorem laterInputDoesNotChangeACommand : Obligations.LaterInputDoesNotChangeACommand := by
  unfold Obligations.LaterInputDoesNotChangeACommand
  exact fun i s t b hi heoi hblk hw h => exec_arrive hi heoi hblk hw [b] h

end Sys2Proof.Machine
end

section
/-! Nothing of an earlier Block reaches the next (R74, R237): what `CBLK` pushes and raises, and what
`DBLK` stores, is a function of the elements they read first. -/

namespace Sys2Proof.Machine

open Sys2Proof.Claims

/-! ## What `CBLK` pushes or raises (R231) -/

/-- The error that ends a `CBLK` which has its Block: sub-cause and recorded number of a
`CapacityExceeded`, by the first of `ROT`, `HENC` and `FRAME` that raises it. -/
def blockError (s : State) : Option (BitVec 4 × Option Word) :=
  if s.cfg.rtcap < nch (nextBlock s).length s.chkSize.toNat then some (0, some s.seq)
  else if s.cfg.pcap < (payloadFor (blockCodes s) (blockRanks s)).length then some (0, some s.seq)
  else if s.seqOvf then some (1, none)
  else none

/-- The stages of `CBLK` on a Block: they push its record, or they raise its error with nothing
pushed or counted. -/
theorem stagesCblk_of_ready {s : State} (h : blockReady s = true) :
    (blockError s = none ∧ stagesCblk s = .ok (compressed s)) ∨
    ∃ sub seq u p, blockError s = some (sub, seq) ∧ SameCount s u ∧
      stagesCblk s = .raised (u.raise .capacityExceeded sub seq p) := by
  rcases stagesCblk_coded_cases h with ⟨hmany, -⟩ | ⟨hrt, hcoded⟩
  · have hrot : stageRot (loaded s) =
        .raised ((loaded s).raise .capacityExceeded 0 (some s.seq) .rotate) := if_pos hmany
    refine .inr ⟨0, some s.seq, loaded s, .rotate, if_pos hmany, ⟨rfl, rfl, rfl⟩, ?_⟩
    rw [stagesCblk, stageLdblk_loaded h, andThen_ok, hrot]; rfl
  · rw [blockError, if_neg (Nat.not_lt.mpr hrt), hcoded]
    rcases stageHenc_of_allCoded (s := coded s) (allCoded_blockCodes s) with
      ⟨hp, hhenc⟩ | ⟨hlong, hhenc⟩
    · have hp : ¬ s.cfg.pcap < (payloadFor (blockCodes s) (blockRanks s)).length :=
        Nat.not_lt.mpr hp
      rw [if_neg hp, hhenc, andThen_ok, stageCtser_eq, andThen_ok]
      rcases stageFrame_cases { coded s with
          p := payloadFor (blockCodes s) (blockRanks s)
          cs := serializeTable (blockCodes s)
          phase := .encode } with ⟨hnum, hframe⟩ | ⟨hnum, hframe⟩
      · refine .inl ⟨if_neg (Bool.eq_false_iff.mp hnum), hframe.trans ?_⟩
        rw [compressed, blockRecord, State.record]; rfl
      · refine .inr ⟨_, _, _, _, if_pos hnum, ?_, hframe⟩
        exact ⟨rfl, rfl, rfl⟩
    · rw [hhenc]
      exact .inr ⟨_, _, coded s, _, if_pos hlong, ⟨rfl, rfl, rfl⟩, rfl⟩

/-- How a `CBLK` leaves the core, by what it finds: waiting, with the record of its Block pushed, or
in the error state. -/
inductive CblkLeaves (s : State) : State → Prop
  | waits (hready : blockReady s = false) : CblkLeaves s (s.holdAt .cblk .split)
  | pushes (hready : blockReady s = true) (hnone : blockError s = none) :
      CblkLeaves s (compressed s).endCommand
  | raises {sub : BitVec 4} {q : Option Word} {u : State} {p : Phase}
      (hready : blockReady s = true) (hsome : blockError s = some (sub, q)) (hu : SameCount s u) :
      CblkLeaves s (u.raise .capacityExceeded sub q p)

theorem exec_cblk_leaves {s t : State} (h : exec .cblk s = .next t) : CblkLeaves s t := by
  replace h : finish .cblk s (stagesCblk s) = .next t := h
  cases hready : blockReady s with
  | false =>
    rw [stagesCblk_of_not_ready hready] at h
    cases h
    exact .waits hready
  | true =>
    rcases stagesCblk_of_ready hready with ⟨hnone, hst⟩ | ⟨sub, q, u, p, hsome, hu, hst⟩ <;>
      rw [hst] at h <;> cases h
    · exact .pushes hready hnone
    · exact .raises hready hsome hu

/-- The two cores agree on all that `CBLK` reads before it writes it (R231, R237). -/
structure SameBlock (s1 s2 : State) : Prop where
  cfg : s1.cfg = s2.cfg
  inp : s1.inp = s2.inp
  eoi : s1.eoi = s2.eoi
  chkSize : s1.chkSize = s2.chkSize
  blkSize : s1.blkSize = s2.blkSize
  seq : s1.seq = s2.seq
  seqOvf : s1.seqOvf = s2.seqOvf

section
variable {s1 s2 : State} (h : SameBlock s1 s2)
include h

theorem SameBlock.blockReady_eq : blockReady s1 = blockReady s2 := by
  rw [Bool.eq_iff_iff, blockReady_iff, blockReady_iff, h.blkSize, h.inp, h.eoi]

theorem SameBlock.nextBlock_eq : nextBlock s1 = nextBlock s2 := by
  simp only [nextBlock, h.inp, h.blkSize]

theorem SameBlock.blockRows_eq : blockRows s1 = blockRows s2 := by
  simp only [blockRows, h.nextBlock_eq, h.chkSize]

theorem SameBlock.blockRanks_eq : blockRanks s1 = blockRanks s2 := by
  simp only [blockRanks, h.blockRows_eq]

theorem SameBlock.blockCodes_eq : blockCodes s1 = blockCodes s2 := by
  simp only [blockCodes, h.blockRanks_eq]

theorem SameBlock.blockError_eq : blockError s1 = blockError s2 := by
  simp only [blockError, h.cfg, h.nextBlock_eq, h.chkSize, h.blockCodes_eq, h.blockRanks_eq, h.seq,
    h.seqOvf]

theorem SameBlock.blockRecord_eq : blockRecord s1 = blockRecord s2 := by
  simp only [blockRecord, h.seq, h.blockRows_eq, h.blockCodes_eq, h.blockRanks_eq]

end

/-- R237: two cores that agree on what `CBLK` reads push the same bytes, count alike and fail
alike. -/
theorem cblk_agrees {s1 s2 t1 t2 : State} (h : SameBlock s1 s2) (herr1 : s1.err = false)
    (herr2 : s2.err = false) (h1 : CblkLeaves s1 t1) (h2 : CblkLeaves s2 t2) :
    ∃ bytes, t1.out = s1.out ++ bytes ∧ t2.out = s2.out ++ bytes ∧
      t1.seq = t2.seq ∧ t1.seqOvf = t2.seqOvf ∧ t1.err = t2.err ∧
      (t1.err = true → t1.errCause = t2.errCause ∧ t1.errSeq = t2.errSeq) := by
  have hready := h.blockReady_eq
  have herror := h.blockError_eq
  cases h1 with
  | waits hr1 =>
    cases h2 with
    | waits =>
      exact ⟨[], (List.append_nil _).symm, (List.append_nil _).symm, h.seq, h.seqOvf,
        herr1.trans herr2.symm, fun he => by cases herr1.symm.trans he⟩
    | pushes hr2 | raises hr2 => cases hr1.symm.trans (hready.trans hr2)
  | pushes hr1 hnone1 =>
    cases h2 with
    | waits hr2 => cases hr1.symm.trans (hready.trans hr2)
    | raises _ hsome2 => cases hnone1.symm.trans (herror.trans hsome2)
    | pushes =>
      refine ⟨blockRecord s1, rfl, ?_, ?_, ?_, herr1.trans herr2.symm,
        fun he => by cases herr1.symm.trans he⟩
      · rw [h.blockRecord_eq]; rfl
      · simp only [State.endCommand_seq, compressed, h.seq]
      · simp only [State.endCommand_seqOvf, compressed, h.seq]
  | raises hr1 hsome1 hu1 =>
    cases h2 with
    | waits hr2 => cases hr1.symm.trans (hready.trans hr2)
    | pushes _ hnone2 => cases hsome1.symm.trans (herror.trans hnone2)
    | raises _ hsome2 hu2 =>
      cases hsome1.symm.trans (herror.trans hsome2)
      refine ⟨[], ?_, ?_, ?_, ?_, rfl, fun _ => ⟨rfl, rfl⟩⟩
      · rw [State.raise_out, hu1.out, List.append_nil]
      · rw [State.raise_out, hu2.out, List.append_nil]
      · rw [State.raise_seq, State.raise_seq, hu1.seq, hu2.seq, h.seq]
      · rw [State.raise_seqOvf, State.raise_seqOvf, hu1.seqOvf, hu2.seqOvf, h.seqOvf]

/-! ## Stages that may raise, one after another -/

/-- The stages do not wait, and unless they raise an error they end in a state that meets `P`. -/
def StageEnd.Yields (P : State → Prop) : StageEnd → Prop
  | .ok t => P t
  | .raised t => t.err = true
  | .held _ => False

theorem StageEnd.Yields.andThen {P Q : State → Prop} {r : StageEnd} {f : State → StageEnd}
    (hr : r.Yields P) (hf : ∀ u, P u → (f u).Yields Q) : (r.andThen f).Yields Q := by
  cases r with
  | ok u => exact hf u hr
  | raised u => exact hr
  | held p => exact hr

theorem StageEnd.Yields.imp {P Q : State → Prop} {r : StageEnd} (hr : r.Yields P)
    (h : ∀ u, P u → Q u) : r.Yields Q := by
  cases r with
  | ok u => exact h u hr
  | raised u => exact hr
  | held p => exact hr

theorem andThen_assoc (r : StageEnd) (f g : State → StageEnd) :
    (r.andThen f).andThen g = r.andThen fun u => (f u).andThen g := by
  cases r <;> rfl

theorem stageCtdes_yields (s : State) : (stageCtdes s).Yields fun u =>
    ∃ ct, deserializeTable s.cs = some ct ∧ u = { s with ct := ct, phase := .decode } := by
  rcases stageCtdes_cases s with ⟨ct, hct, he⟩ | ⟨-, he⟩ <;> rw [he]
  · exact ⟨ct, hct, rfl⟩
  · rfl

/-- The rank stream of a payload, where it decodes to one (R169). -/
def payloadRanks (ct : CodeTable) (dcap : Nat) : List Byte → Option (List Byte)
  | [] => some []
  | pad :: packed =>
    match payloadBits pad packed with
    | none => none
    | some bits =>
      match matchBits ct dcap bits [] [] with
      | .done out [] => some out
      | _ => none

theorem stageHdec_yields (s : State) : (stageHdec s).Yields fun u =>
    ∃ ranks, payloadRanks s.ct s.cfg.dcap s.p = some ranks ∧
      u = { s with d := ranks, phase := .decode } := by
  rcases stageHdec_cases s with ⟨out, he, hout⟩ | ⟨he, -⟩ | ⟨he, -⟩ <;> rw [he]
  · refine ⟨out, ?_, rfl⟩
    rcases hout with ⟨hp, rfl⟩ | ⟨pad, packed, bits, hp, hbits, hm⟩
    · rw [hp, payloadRanks]
    · simp only [hp, payloadRanks, hbits, hm]
  · rfl
  · rfl

theorem stageMtfd_yields (s : State) : (stageMtfd s).Yields fun u =>
    u = { s with
      d := (mtfDecode identityList s.d).1
      ml := (mtfDecode identityList s.d).2
      phase := .unrank } := rfl

theorem stageUnrot_yields (s : State) : (stageUnrot s).Yields fun u =>
    u = { s with d := unrotateChunks s.rt s.d s.chkSize.toNat, phase := .unrotate } := by
  rcases stageUnrot_cases s with ⟨-, he⟩ | ⟨-, he⟩ <;> rw [he] <;> rfl

theorem stageCollect_yields (s : State) : (stageCollect s).Yields fun u =>
    u = { s with rs := Store.insert s.rseq s.d s.rs, phase := .concat } := by
  rcases stageCollect_cases s with ⟨-, -, he⟩ | ⟨-, he⟩ | ⟨-, -, he⟩ <;> rw [he] <;> rfl

/-! ## What `DBLK` stores (R232) -/

/-- The Block of a record with these fields, on a core with these parameters and this chunk size,
where its table and its payload are sound (R232). -/
def recordBlock (cfg : Config) (chk : Word) (rt : List Word) (cs p : List Byte) :
    Option (List Byte) :=
  (deserializeTable cs).bind fun ct => (payloadRanks ct cfg.dcap p).map fun ranks =>
    unrotateChunks rt (mtfDecode identityList ranks).1 chk.toNat

/-- `t` holds the Block of the record with these fields, and has added it to the store of `s`. -/
structure StoredRecord (s : State) (seq : Word) (rt : List Word) (cs p : List Byte) (t : State) :
    Prop where
  rseq : t.rseq = seq
  block : recordBlock s.cfg s.chkSize rt cs p = some t.d
  rs : t.rs = Store.insert seq t.d s.rs

section
variable {s t : State} {seq : Word} {rt : List Word} {cs p : List Byte} {len : Nat}

/-- R232: on a record the stages of `DBLK` store its Block or end in an error. -/
theorem stagesDblk_yields (h : deframeOutcome s = .record seq rt cs p len) :
    (stagesDblk s).Yields (StoredRecord s seq rt cs p) := by
  rw [stagesDblk, h, if_neg nofun, stageDeframe, h]
  simp only [andThen_assoc, andThen_ok]
  refine (stageCtdes_yields _).andThen ?_
  rintro _ ⟨ct, hct, rfl⟩
  refine (stageHdec_yields _).andThen ?_
  rintro _ ⟨ranks, hranks, rfl⟩
  refine (stageMtfd_yields _).andThen ?_
  rintro _ rfl
  refine (stageUnrot_yields _).andThen ?_
  rintro _ rfl
  refine (stageCollect_yields _).imp ?_
  rintro _ rfl
  dsimp only [State.inPop, State.enter] at hct hranks ⊢
  refine ⟨rfl, ?_, rfl⟩
  rw [recordBlock, hct, Option.bind_some, hranks, Option.map_some]

/-- A `DBLK` of a record that ends without error has stored the record's Block. -/
theorem exec_dblk_stored (hrec : deframeOutcome s = .record seq rt cs p len)
    (h : exec .dblk s = .next t) (herr : t.err = false) : StoredRecord s seq rt cs p t := by
  have hyields := stagesDblk_yields hrec
  replace h : finish .dblk s (stagesDblk s) = .next t := h
  cases hst : stagesDblk s with
  | ok u =>
    rw [hst] at h hyields
    cases h
    exact ⟨hyields.rseq, hyields.block, hyields.rs⟩
  | raised u =>
    rw [hst] at h hyields
    cases h
    cases herr.symm.trans hyields
  | held q =>
    rw [hst] at hyields
    cases hyields

end

/-- A `DBLK` with bytes in `IN` that ends without error found a record (R203, R204). -/
theorem deframeOutcome_of_exec_dblk {s t : State} (hin : s.inp ≠ []) (h : exec .dblk s = .next t)
    (hcur : t.cur = none) (herr : t.err = false) :
    ∃ seq rt cs p len, deframeOutcome s = .record seq rt cs p len := by
  replace h : finish .dblk s (stagesDblk s) = .next t := h
  rcases stageDeframe_cases s with ⟨seq, rt, cs, p, len, ho, -⟩ | ⟨q, ho, he⟩ | ⟨q, ho, he⟩ |
    ⟨ho, -⟩ | ⟨ho, he⟩
  · exact ⟨seq, rt, cs, p, len, ho⟩
  · rw [stagesDblk, ho, if_neg nofun, he] at h
    cases h
    cases herr
  · rw [stagesDblk, ho, if_neg nofun, he] at h
    cases h
    cases herr
  · exact absurd (deframeOutcome_endOfContainer ho).2 hin
  · rw [stagesDblk, ho, if_neg nofun, he] at h
    cases h
    cases hcur

theorem deframeOutcome_congr {s1 s2 : State} (hcfg : s1.cfg = s2.cfg) (hinp : s1.inp = s2.inp)
    (heoi : s1.eoi = s2.eoi) : deframeOutcome s1 = deframeOutcome s2 := by
  simp only [deframeOutcome, hcfg, hinp, heoi]

/-- Settles O52: `CBLK` by `cblk_agrees`; `DBLK` finds the same record on both cores, and the Block
it stores is `recordBlock` of that record. -/
theorem nothingCrossesBlocks : Obligations.NothingCrossesBlocks := by
  unfold Obligations.NothingCrossesBlocks
  intro s1 s2 t1 t2 hcfg hinp heoi hchk herr1 herr2
  refine ⟨fun hblk hseq hovf h1 h2 => ?_, fun hin h1 h2 hcur ht1 ht2 => ?_⟩
  · exact cblk_agrees ⟨hcfg, hinp, heoi, hchk, hblk, hseq, hovf⟩ herr1 herr2 (exec_cblk_leaves h1)
      (exec_cblk_leaves h2)
  · obtain ⟨seq, rt, cs, p, len, hrec⟩ := deframeOutcome_of_exec_dblk hin h1 hcur ht1
    obtain ⟨hrseq1, hblock1, hrs1⟩ := exec_dblk_stored hrec h1 ht1
    obtain ⟨hrseq2, hblock2, hrs2⟩ :=
      exec_dblk_stored ((deframeOutcome_congr hcfg hinp heoi).symm.trans hrec) h2 ht2
    have hd : t1.d = t2.d := by
      rw [hcfg, hchk, hblock2] at hblock1
      exact (Option.some.inj hblock1).symm
    exact ⟨hrseq1.trans hrseq2.symm, hd, by rw [hrs1, hrseq1], by rw [hrs2, hrseq1, hd]⟩

end Sys2Proof.Machine
end

section
/-! Command words: the decoder and the encoder agree, and a word the decoder refuses raises
`IllegalCommand` (R90 to R94). -/

namespace Sys2Proof.Machine

open Sys2Proof.Claims Sys2Proof.Laws.TableRow

/-! ## The fields of a word (R90) -/

theorem opField_append_immField (w : Word) : opField w ++ immField w = w := by
  apply BitVec.eq_of_getLsbD_eq
  intro i hi
  simp only [opField, immField, BitVec.getLsbD_append, BitVec.getLsbD_extractLsb']
  split_ifs with h
  · simp [h]
  · rw [show 24 + (i - 24) = i by omega]
    simp [show i - 24 < 8 by omega]

/-- The word of a command is the one with the command's two fields. -/
theorem encode_eq_iff {i : Instr} {w : Word} :
    encode i = w ↔ i.opcode = opField w ∧ i.immediate = immField w := by
  constructor
  · rintro rfl
    exact ⟨(opField_append _ _).symm, (immField_append _ _).symm⟩
  · rintro ⟨hop, himm⟩
    rw [encode, hop, himm, opField_append_immField]

theorem opField_toNat (w : Word) : (opField w).toNat = opOf w := by
  rw [opField, BitVec.extractLsb'_toNat, Nat.shiftRight_eq_div_pow, opOf]
  omega

theorem immField_toNat (w : Word) : (immField w).toNat = immOf w := by
  rw [immField, BitVec.extractLsb'_toNat, Nat.shiftRight_zero, immOf]

/-! ## The opcode map (R93) -/

theorem opcode_eq_one_iff {i : Instr} : i.opcode = 0x01 ↔ ∃ imm, i = .setbs imm := by
  cases i <;> simp [Instr.opcode]

theorem opcode_eq_two_iff {i : Instr} : i.opcode = 0x02 ↔ ∃ imm, i = .setcs imm := by
  cases i <;> simp [Instr.opcode]

/-- The rows of format Z are all commands but `SETBS` and `SETCS`, each under its opcode. -/
theorem mem_zRows_iff {op : BitVec 8} {i : Instr} :
    (op, i) ∈ zRows ↔ i.opcode = op ∧ op ≠ 0x01 ∧ op ≠ 0x02 := by
  constructor
  · exact (by decide : ∀ row ∈ zRows, row.2.opcode = row.1 ∧ row.1 ≠ 0x01 ∧ row.1 ≠ 0x02) (op, i)
  · rintro ⟨rfl, h1, h2⟩
    cases i with
    | setbs | setcs => contradiction
    | _ => decide

theorem immediate_of_mem_zRows : ∀ row ∈ zRows, row.2.immediate = 0 := by decide

/-- A command of format Z is legal on every core (R94). -/
theorem wf_of_mem_zRows {op : BitVec 8} {i : Instr} (h : (op, i) ∈ zRows) (cfg : Config) :
    i.wf cfg = true := by
  obtain ⟨rfl, h1, h2⟩ := mem_zRows_iff.mp h
  cases i with
  | setbs | setcs => contradiction
  | _ => rfl

/-- No opcode has two rows. -/
theorem lookup_zRows_eq_some_iff {op : BitVec 8} {i : Instr} :
    zRows.lookup op = some i ↔ (op, i) ∈ zRows := by
  constructor
  · intro h
    obtain ⟨pre, post, hrows, -⟩ := List.lookup_eq_some_iff.mp h
    rw [hrows]
    simp
  · exact (by decide : ∀ row ∈ zRows, zRows.lookup row.1 = some row.2) (op, i)

theorem lookup_zRows_eq_none_iff {op : BitVec 8} :
    zRows.lookup op = none ↔ op.toNat ∉ zOpcodes := by
  revert op; decide

/-! ## What the parts of the decoder accept (R94) -/

theorem ne_zero_iff_one_le_toNat {imm : BitVec 24} : imm ≠ 0 ↔ 1 ≤ imm.toNat := by bv_omega

/-- R94 (c). -/
theorem setbs_wf_iff {cfg : Config} {imm : BitVec 24} :
    (Instr.setbs imm).wf cfg = true ↔ imm ≠ 0 ∧ imm.toNat ≤ cfg.dcap := by
  rw [ne_zero_iff_one_le_toNat, Instr.wf, decide_eq_true_eq]

/-- R94 (d). -/
theorem setcs_wf_iff {cfg : Config} {imm : BitVec 24} :
    (Instr.setcs imm).wf cfg = true ↔ imm ≠ 0 := by
  rw [ne_zero_iff_one_le_toNat, Instr.wf, decide_eq_true_eq]

theorem decodeSetbs_eq_command_iff {cfg : Config} {imm : BitVec 24} {i : Instr} :
    decodeSetbs cfg imm = .command i ↔
      i.wf cfg = true ∧ i.opcode = 0x01 ∧ i.immediate = imm := by
  constructor
  · intro h
    rw [decodeSetbs] at h
    split_ifs at h with h0 hcap
    cases h
    exact ⟨setbs_wf_iff.mpr ⟨h0, not_lt.mp hcap⟩, rfl, rfl⟩
  · rintro ⟨hwf, hop, rfl⟩
    obtain ⟨imm, rfl⟩ := opcode_eq_one_iff.mp hop
    obtain ⟨h0, hcap⟩ := setbs_wf_iff.mp hwf
    rw [Instr.immediate, decodeSetbs, if_neg h0, if_neg (not_lt.mpr hcap)]

theorem decodeSetcs_eq_command_iff {imm : BitVec 24} {i : Instr} (cfg : Config) :
    decodeSetcs imm = .command i ↔ i.wf cfg = true ∧ i.opcode = 0x02 ∧ i.immediate = imm := by
  constructor
  · intro h
    rw [decodeSetcs] at h
    split_ifs at h with h0
    cases h
    exact ⟨setcs_wf_iff.mpr h0, rfl, rfl⟩
  · rintro ⟨hwf, hop, rfl⟩
    obtain ⟨imm, rfl⟩ := opcode_eq_two_iff.mp hop
    rw [Instr.immediate, decodeSetcs, if_neg (setcs_wf_iff.mp hwf)]

theorem decodeZ_eq_command_iff {op : BitVec 8} {imm : BitVec 24} {i : Instr} (cfg : Config)
    (h1 : op ≠ 0x01) (h2 : op ≠ 0x02) :
    decodeZ op imm = .command i ↔ i.wf cfg = true ∧ i.opcode = op ∧ i.immediate = imm := by
  constructor
  · intro h
    rw [decodeZ] at h
    cases hrow : zRows.lookup op with
    | none => simp [hrow] at h
    | some j =>
      simp only [hrow] at h
      split_ifs at h with himm
      cases h
      have hmem := lookup_zRows_eq_some_iff.mp hrow
      exact ⟨wf_of_mem_zRows hmem cfg, (mem_zRows_iff.mp hmem).1,
        (immediate_of_mem_zRows _ hmem).trans himm.symm⟩
  · rintro ⟨-, hop, rfl⟩
    have hmem : (op, i) ∈ zRows := mem_zRows_iff.mpr ⟨hop, h1, h2⟩
    rw [decodeZ, lookup_zRows_eq_some_iff.mpr hmem]
    exact if_pos (immediate_of_mem_zRows _ hmem)

/-- Settles O6: a command's word has the command's two fields, and each part of the decoder accepts
exactly the legal commands with the fields it reads. -/
theorem decodeAndEncodeAgree : Obligations.DecodeAndEncodeAgree := by
  unfold Obligations.DecodeAndEncodeAgree
  intro cfg w i
  rw [encode_eq_iff, decode]
  split_ifs with h1 h2
  · rw [h1, decodeSetbs_eq_command_iff]
  · rw [h2, decodeSetcs_eq_command_iff cfg]
  · exact decodeZ_eq_command_iff cfg h1 h2

/-- Settles O5: ten closed words. -/
theorem decodeGivesTheListedCommands : Obligations.DecodeGivesTheListedCommands := by
  unfold Obligations.DecodeGivesTheListedCommands
  decide

/-! ## What the parts of the decoder refuse (R94) -/

theorem immField_eq_zero_iff {w : Word} : immField w = 0 ↔ immOf w = 0 := by
  rw [← BitVec.toNat_inj, immField_toNat]
  rfl

theorem opField_eq_iff {w : Word} {op : BitVec 8} : opField w = op ↔ opOf w = op.toNat := by
  rw [← BitVec.toNat_inj, opField_toNat]

theorem decodeSetbs_instr?_eq_none_iff {cfg : Config} {imm : BitVec 24} :
    (decodeSetbs cfg imm).instr? = none ↔ imm = 0 ∨ cfg.dcap < imm.toNat := by
  rw [decodeSetbs]
  split_ifs with h0 hcap
  · exact iff_of_true rfl (.inl h0)
  · exact iff_of_true rfl (.inr hcap)
  · exact iff_of_false nofun (not_or.mpr ⟨h0, hcap⟩)

theorem decodeSetcs_instr?_eq_none_iff {imm : BitVec 24} :
    (decodeSetcs imm).instr? = none ↔ imm = 0 := by
  rw [decodeSetcs]
  split_ifs with h0
  · exact iff_of_true rfl h0
  · exact iff_of_false nofun h0

theorem decodeZ_instr?_eq_none_iff {op : BitVec 8} {imm : BitVec 24} :
    (decodeZ op imm).instr? = none ↔ op.toNat ∉ zOpcodes ∨ (op.toNat ∈ zOpcodes ∧ imm ≠ 0) := by
  rw [decodeZ]
  cases hrow : zRows.lookup op with
  | none => exact iff_of_true rfl (.inl (lookup_zRows_eq_none_iff.mp hrow))
  | some j =>
    have hin : op.toNat ∈ zOpcodes := by
      by_contra hout
      rw [lookup_zRows_eq_none_iff.mpr hout] at hrow
      cases hrow
    dsimp only
    split_ifs with himm
    · exact iff_of_false nofun (by simp [hin, himm])
    · exact iff_of_true rfl (.inr ⟨hin, himm⟩)

/-- R94: the words the decoder refuses. -/
theorem decode_instr?_eq_none_iff {cfg : Config} {w : Word} :
    (decode cfg w).instr? = none ↔ IllegalIn cfg.dcap w := by
  have h1z : 0x01 ∉ zOpcodes := by decide
  have h2z : 0x02 ∉ zOpcodes := by decide
  rw [decode, IllegalIn]
  split_ifs with h1 h2
  · have hop : opOf w = 0x01 := opField_eq_iff.mp h1
    rw [decodeSetbs_instr?_eq_none_iff, immField_eq_zero_iff, immField_toNat, hop]
    simp [h1z]
  · have hop : opOf w = 0x02 := opField_eq_iff.mp h2
    rw [decodeSetcs_instr?_eq_none_iff, immField_eq_zero_iff, hop]
    simp [h2z]
  · have hop1 : opOf w ≠ 0x01 := fun h => h1 (opField_eq_iff.mpr h)
    have hop2 : opOf w ≠ 0x02 := fun h => h2 (opField_eq_iff.mpr h)
    rw [decodeZ_instr?_eq_none_iff, opField_toNat, ne_eq, immField_eq_zero_iff]
    simp [hop1, hop2]

/-! ## The step on an illegal word (R94, R279) -/

theorem step_of_illegal {s : State} {w : Word} {rest : List Word} {why : IllegalWord}
    (hcur : s.cur = none) (herr : s.err = false) (hq : s.cmdq = w :: rest)
    (hdec : decode s.cfg w = .illegal why) :
    step s = .next ({ s with cmdq := rest }.raiseIllegal) := by
  simp [step, State.advance, hcur, hq, State.takeWord, hdec, herr]

/-- Settles O7: the words that R94 lists are those the decoder refuses; by O6 every other word is
the word of the command it decodes to, and O8 says that this command is executed. -/
theorem illegalWordsRaiseIllegalCommand : Obligations.IllegalWordsRaiseIllegalCommand := by
  unfold Obligations.IllegalWordsRaiseIllegalCommand
  intro s w rest hcur herr hq
  rw [← decode_instr?_eq_none_iff]
  cases hdec : decode s.cfg w with
  | illegal why =>
    exact ⟨fun _ => step_of_illegal hcur herr hq hdec, fun h => absurd rfl h⟩
  | command i =>
    exact ⟨nofun, fun _ => ⟨i, ((decodeAndEncodeAgree _ _ _).mp hdec).2,
      stepRunsTheDecodedCommand s w rest i hcur herr hq hdec⟩⟩

end Sys2Proof.Machine
end

section
/-! `ParseRecord` field by field, and `DEFRAME` on a whole record (R96, R99, R203). -/

namespace Sys2Proof.Machine

open Sys2Proof.Claims

/-! ## Fields at an offset as numbers (R66, R96) -/

section
variable {cfg : Config} {b : List Byte}

theorem toNat_append_byte {n : Nat} (x : BitVec n) (y : Byte) :
    (x ++ y).toNat = 256 * x.toNat + y.toNat := by
  rw [BitVec.toNat_append, ← Nat.shiftLeft_add_eq_or_of_lt y.isLt, Nat.shiftLeft_eq, Nat.mul_comm]

theorem unbe32_toNat (x y z w : Byte) :
    (unbe32 [x, y, z, w]).toNat = [x, y, z, w].foldl (fun acc x => 256 * acc + x.toNat) 0 := by
  simp only [unbe32, List.getD_cons_zero, List.getD_cons_succ, toNat_append_byte, List.foldl_cons,
    List.foldl_nil, Nat.mul_zero, Nat.zero_add]

theorem slice_add {α : Type} (s : List α) (o n : Nat) : slice s o (o + n) = (s.drop o).take n := by
  rw [slice, List.drop_take, Nat.add_sub_cancel_left]

/-- A field that is there is the number of its four bytes. -/
theorem u32At_toNat {o : Nat} (h : o + 4 ≤ b.length) : (u32At b o).toNat = fieldAt b o := by
  have hlen : ((b.drop o).take 4).length = 4 := by
    rw [List.length_take, List.length_drop]; omega
  obtain ⟨x, y, z, w, hxyzw⟩ := List.length_eq_four.mp hlen
  rw [u32At, slice_add, fieldAt, hxyzw, unbe32_toNat]

theorem u32At_eq_ofNat {o : Nat} (h : o + 4 ≤ b.length) :
    u32At b o = BitVec.ofNat 32 (fieldAt b o) := by
  rw [← u32At_toNat h, BitVec.ofNat_toNat, BitVec.setWidth_eq]

/-! ## The three parts of `ParseRecord`, where their field can be read (R99) -/

theorem parsePayload_of_le {o : Nat} (seq : Word) (rt : List Word) (cs : List Byte)
    (h : o + 4 ≤ b.length) :
    parsePayload cfg b seq rt cs o =
      if cfg.pcap < fieldAt b o then .oversize seq
      else if b.length < o + 4 + fieldAt b o then .incomplete (some seq)
      else .complete seq rt cs ((b.drop (o + 4)).take (fieldAt b o)) (o + 4 + fieldAt b o) := by
  rw [parsePayload, if_neg (by omega), u32At_toNat h, slice_add]

theorem parseTable_of_le {n o : Nat} (seq : Word) (hn : 8 + 4 * n ≤ o) (h : o + 4 ≤ b.length) :
    parseTable cfg b seq n o =
      if 8960 < fieldAt b o then .oversize seq
      else parsePayload cfg b seq
        ((List.range n).map fun i => BitVec.ofNat 32 (fieldAt b (8 + 4 * i)))
        ((b.drop (o + 4)).take (fieldAt b o)) (o + 4 + fieldAt b o) := by
  have hrows : ((List.range n).map fun i => u32At b (8 + 4 * i)) =
      (List.range n).map fun i => BitVec.ofNat 32 (fieldAt b (8 + 4 * i)) :=
    List.map_congr_left fun i hi => u32At_eq_ofNat (by have := List.mem_range.mp hi; omega)
  rw [parseTable, if_neg (by omega), u32At_toNat h, slice_add, hrows, Config.csCap]

theorem parseRecord_of_le (h : 8 ≤ b.length) :
    parseRecord cfg b =
      if cfg.rtcap < fieldAt b 4 then .oversize (BitVec.ofNat 32 (fieldAt b 0))
      else parseTable cfg b (BitVec.ofNat 32 (fieldAt b 0)) (fieldAt b 4)
        (8 + 4 * fieldAt b 4) := by
  rw [parseRecord, if_neg (by omega), if_neg (by omega), u32At_toNat h, u32At_eq_ofNat (by omega)]

/-! ## `ParseRecord` by the fields it has read (R99) -/

section
variable {seq : Word} {n c p : Nat} (hseq : seq = BitVec.ofNat 32 (fieldAt b 0))
  (hn : n = fieldAt b 4) (hncap : n ≤ cfg.rtcap)
include hseq hn hncap

theorem parseRecord_eq_parseTable (h : 8 ≤ b.length) :
    parseRecord cfg b = parseTable cfg b seq n (8 + 4 * n) := by
  rw [parseRecord_of_le h, ← hseq, ← hn, if_neg (by omega)]

theorem parseRecord_eq_parsePayload (hc : c = fieldAt b (8 + 4 * n)) (hccap : c ≤ 8960)
    (h : 12 + 4 * n ≤ b.length) :
    parseRecord cfg b = parsePayload cfg b seq
      ((List.range n).map fun i => BitVec.ofNat 32 (fieldAt b (8 + 4 * i)))
      ((b.drop (12 + 4 * n)).take c) (12 + 4 * n + c) := by
  have ho : 8 + 4 * n + 4 = 12 + 4 * n := by omega
  rw [parseRecord_eq_parseTable hseq hn hncap (by omega), parseTable_of_le seq le_rfl (by omega),
    ← hc, if_neg (not_lt.mpr hccap), ho]

theorem parseRecord_of_length_fields_le (hc : c = fieldAt b (8 + 4 * n))
    (hp : p = fieldAt b (12 + 4 * n + c)) (hccap : c ≤ 8960) (h : 16 + 4 * n + c ≤ b.length) :
    parseRecord cfg b =
      if cfg.pcap < p then .oversize seq
      else if b.length < 16 + 4 * n + c + p then .incomplete (some seq)
      else .complete seq ((List.range n).map fun i => BitVec.ofNat 32 (fieldAt b (8 + 4 * i)))
        ((b.drop (12 + 4 * n)).take c) ((b.drop (16 + 4 * n + c)).take p)
        (16 + 4 * n + c + p) := by
  have ho : 12 + 4 * n + c + 4 = 16 + 4 * n + c := by omega
  rw [parseRecord_eq_parsePayload hseq hn hncap hc hccap (by omega),
    parsePayload_of_le _ _ _ (by omega), ← hp, ho]

end

/-! ## A record cut short (R99) -/

theorem parseTable_incomplete {seq : Word} {n o : Nat} {q : Option Word}
    (h : parseTable cfg b seq n o = .incomplete q) : q = some seq := by
  rw [parseTable, parsePayload] at h
  split_ifs at h <;> cases h <;> rfl

/-- An incomplete record has its number as soon as that can be read. -/
theorem parseRecord_incomplete {q : Option Word} (h : parseRecord cfg b = .incomplete q) :
    q = if b.length < 4 then none else some (u32At b 0) := by
  rw [parseRecord] at h
  by_cases h4 : b.length < 4
  · rw [if_pos h4] at h ⊢
    cases h
    rfl
  · rw [if_neg h4] at h ⊢
    split_ifs at h
    · cases h
      rfl
    · exact parseTable_incomplete h

theorem u32At_recordBytes (seq : Word) (rt : List Word) (cs p : List Byte) :
    u32At (recordBytes seq rt cs p) 0 = seq :=
  u32At_append (pre := []) (by simp only [recordBytes, List.append_assoc, List.nil_append]; rfl) rfl

/-- A proper beginning of a record has no other verdict: that verdict would be the whole record's,
which is longer. -/
theorem parseRecord_take_recordBytes {rt : List Word} {cs p : List Byte} {k : Nat} (seq : Word)
    (hcfg : cfg.wf = true) (hrt : rt.length ≤ cfg.rtcap) (hcs : cs.length ≤ Config.csCap)
    (hp : p.length ≤ cfg.pcap) (hk : k < (recordBytes seq rt cs p).length) :
    parseRecord cfg ((recordBytes seq rt cs p).take k) =
      .incomplete (if k < 4 then none else some seq) := by
  generalize hb : (recordBytes seq rt cs p).take k = b
  have hlen : b.length = k := by rw [← hb, List.length_take]; omega
  have hwhole : parseRecord cfg (b ++ (recordBytes seq rt cs p).drop k) =
      .complete seq rt cs p (recordBytes seq rt cs p).length := by
    rw [← hb, List.take_append_drop, recordBytes_length]
    simpa using parseRecord_recordBytes seq [] hcfg hrt hcs hp
  have hcut : ∃ q, parseRecord cfg b = .incomplete q := by
    by_contra hdecided
    rw [parseRecord_append_of_decided (not_exists.mp hdecided)] at hwhole
    have := parseRecord_len_le hwhole
    omega
  obtain ⟨q, hq⟩ := hcut
  rw [hq, parseRecord_incomplete hq, hlen]
  split_ifs with h4
  · rfl
  · rw [← u32At_append_of_le (by omega) ((recordBytes seq rt cs p).drop k), ← hb,
      List.take_append_drop, u32At_recordBytes]

end

/-! ## The statements -/

/-- Settles O39: the clauses of R99 by the part of `ParseRecord` that gives the verdict; a record cut
short and a verdict on a longer input by the lemmas on decided verdicts. -/
theorem parseRecordVerdicts : Obligations.ParseRecordVerdicts := by
  unfold Obligations.ParseRecordVerdicts
  intro cfg b
  refine ⟨?_, ?_, fun later => ⟨fun seq h => ?_,
    fun seq rt cs p len h => ⟨?_, parseRecord_len_le h⟩⟩⟩
  · intro seq n c p hseq hn hc hp
    refine ⟨fun h => ?_, fun h h' => ?_, fun h hcap => ?_, fun h hncap hlt => ?_,
      fun hncap h hcap => ?_, fun hncap h hccap hlt => ?_, fun hncap hccap h hcap => ?_,
      fun hncap hccap h hpcap hlt => ?_, fun hncap hccap hpcap h => ?_⟩
    · rw [parseRecord, if_pos h]
    · rw [parseRecord, if_neg (by omega), if_pos h', u32At_eq_ofNat (by omega), hseq]
    · rw [parseRecord_of_le h, ← hn, if_pos hcap, hseq]
    · rw [parseRecord_eq_parseTable hseq hn hncap h, parseTable, if_pos (by omega)]
    · rw [parseRecord_eq_parseTable hseq hn hncap (by omega),
        parseTable_of_le seq le_rfl (by omega), ← hc, if_pos hcap]
    · rw [parseRecord_eq_parsePayload hseq hn hncap hc hccap h, parsePayload, if_pos (by omega)]
    · rw [parseRecord_of_length_fields_le hseq hn hncap hc hp hccap h, if_pos hcap]
    · rw [parseRecord_of_length_fields_le hseq hn hncap hc hp hccap h,
        if_neg (not_lt.mpr hpcap), if_pos hlt]
    · rw [parseRecord_of_length_fields_le hseq hn hncap hc hp hccap (by omega),
        if_neg (not_lt.mpr hpcap), if_neg (not_lt.mpr h)]
  · rintro seq rt cs p k hcfg hrt hcs hp hk rfl
    exact parseRecord_take_recordBytes seq hcfg hrt hcs hp hk
  · exact (parseRecord_append_of_decided (by simp [h]) later).trans h
  · exact (parseRecord_append_of_decided (by simp [h]) later).trans h

/-- Settles O38: `DEFRAME` reads the record and ends. -/
theorem deframeReadsBackARecord : Obligations.DeframeReadsBackARecord := by
  unfold Obligations.DeframeReadsBackARecord
  intro s seq rt cs p tail hcfg hrt hcs hp hin
  have h : exec .deframe s = finish .deframe s (stageDeframe s) := rfl
  rw [h, stageDeframe_recordBytes hcfg hrt hcs hp hin, finish_ok]
  rfl

end Sys2Proof.Machine
end

section
/-! The Rotation Transform in the terms of its rules: `ROT` writes the last bytes of the sorted
rotations, `UNROT` walks the sorted positions (R130 to R136). -/

namespace Sys2Proof.Machine

open Sys2Proof.Claims

/-! ## The sorted lists (R131, R132, R134) -/

/-- Sequences of equal length compare by their bytes' numbers as R9 says. -/
theorem bytesLt_of_map_toNat_lt {a b : List Byte} (hl : a.length = b.length)
    (h : a.map BitVec.toNat < b.map BitVec.toNat) : BytesLt a b := by
  induction a generalizing b with
  | nil => cases b with
    | nil => exact absurd h (lt_irrefl _)
    | cons => cases hl
  | cons x a ih => cases b with
    | nil => cases hl
    | cons y b =>
      simp only [List.map_cons, List.cons_lt_cons_iff] at h
      exact h.imp_right fun ⟨hxy, hab⟩ => ⟨BitVec.eq_of_toNat_eq hxy, ih (by simpa using hl) hab⟩

/-- `order` holds no offset twice, so equal rotations stand by strictly rising offset. -/
theorem rotOrder_sortsRotations (c : List Byte) : SortsRotations c (rotOrder c) := by
  have hnodup : (rotOrder c).Nodup := (rotOrder_perm c).nodup_iff.mpr List.nodup_range
  refine ⟨rotOrder_perm c, ((rotOrder_sorted c).and hnodup).imp fun {j k} h => ?_⟩
  obtain ⟨hlt | ⟨heq, hle⟩, hne⟩ := h
  · exact .inl (bytesLt_of_map_toNat_lt (a := rot c j) (b := rot c k) (by simp) hlt)
  · exact .inr ⟨List.map_injective_iff.mpr (fun _ _ => BitVec.eq_of_toNat_eq) heq,
      lt_of_le_of_ne hle hne⟩

theorem nextRow_sortsPositions (t : List Byte) : SortsPositions t (nextRow t) := by
  have hnodup : (nextRow t).Nodup := (nextRow_perm t).nodup_iff.mpr List.nodup_range
  refine ⟨nextRow_perm t, ((nextRow_sorted t).and hnodup).imp fun {i j} h => ?_⟩
  obtain ⟨hlt | ⟨heq, hle⟩, hne⟩ := h
  · exact .inl hlt
  · exact .inr ⟨heq, lt_of_le_of_ne hle hne⟩

/-! ## One Chunk: the last column and the walk (R131, R134) -/

/-- The byte in front of the offset at place `j`, cyclically, is the last of the rotation there. -/
theorem rotate_snd_getElem? {bs : List Byte} {j k : Nat} (h : (rotOrder bs)[j]? = some k) :
    (rotate bs).2[j]? = bs[(k + bs.length - 1) % bs.length]? := by
  obtain ⟨hj, -⟩ := List.getElem?_eq_some_iff.mp h
  have hpos : 0 < bs.length := by rw [rotOrder_length] at hj; omega
  have hlt := Nat.mod_lt (k + bs.length - 1) hpos
  rw [rotate, List.getElem?_map, h, Option.map_some, List.getElem?_eq_getElem hlt,
    List.getD_eq_getElem]

/-- The row the walk through `nextRow t` from row `r` has come to after `k` rounds (R134). -/
def walkRow (t : List Byte) (r k : Nat) : Nat := ((nextRow t).getD · 0)^[k] r

theorem walkRow_succ (t : List Byte) (r k : Nat) :
    walkRow t r (k + 1) = (nextRow t).getD (walkRow t r k) 0 :=
  Function.iterate_succ_apply' _ k r

theorem nextRow_getElem? {t : List Byte} {i : Nat} (hi : i < t.length) :
    (nextRow t)[i]? = some ((nextRow t).getD i 0) := by
  rw [List.getD_eq_getElem?_getD, List.getElem?_eq_getElem (by simpa using hi), Option.getD_some]

/-- The walk never leaves the rows. -/
theorem walkRow_lt {t : List Byte} {r : Nat} (hr : r < t.length) (k : Nat) :
    walkRow t r k < t.length := by
  induction k with
  | zero => exact hr
  | succ k ih =>
    have hmem := List.mem_of_getElem? (nextRow_getElem? ih)
    rw [walkRow_succ]
    exact List.mem_range.mp ((nextRow_perm t).subset hmem)

/-- Round `k` of the walk emits the byte at the row it comes to. -/
theorem unrotateFrom_nextRow_getElem? (t : List Byte) {n k : Nat} (hk : k < n) (r : Nat) :
    (unrotateFrom t (nextRow t) n r)[k]? = some (t.getD (walkRow t r (k + 1)) 0) := by
  induction n generalizing k r with
  | zero => exact absurd hk (Nat.not_lt_zero k)
  | succ n ih => cases k with
    | zero => rfl
    | succ k => exact ih (by omega) _

theorem unrotate_getElem? {t : List Byte} {r k : Nat} (hr : r < t.length) (hk : k < t.length) :
    (unrotate r t)[k]? = t[walkRow t r (k + 1)]? := by
  have hrow := walkRow_lt hr (k + 1)
  rw [unrotate, unrotateFrom_nextRow_getElem? t hk, List.getElem?_eq_getElem hrow,
    List.getD_eq_getElem]

/-! ## Chunk by Chunk (R130) -/

theorem chunkCount_eq_nch (d : List Byte) (c : Nat) : chunkCount d c = nch d.length c := rfl

theorem chunk_eq_chunkAt (d : List Byte) (c i : Nat) : chunk d c i = chunkAt d c i := chunk_eq d c i

/-- Byte `j` of Chunk `i`, in the Block. -/
theorem getElem?_chunk {d : List Byte} {c i j : Nat} (hj : j < (chunk d c i).length) :
    d[i * c + j]? = (chunk d c i)[j]? := by
  rw [chunk_eq, List.length_take] at hj
  rw [chunk_eq, List.getElem?_take_of_lt (by omega), List.getElem?_drop]

/-- Byte `j` of piece `i`, where the pieces have the Chunks' lengths. -/
theorem getElem?_flatMap_pieces {l c i j : Nat} {g : Nat → List Byte} (hc : 1 ≤ c)
    (hg : ∀ i, (g i).length = clen l c i) (hi : i < nch l c) (hj : j < (g i).length) :
    ((List.range (nch l c)).flatMap g)[i * c + j]? = (g i)[j]? := by
  have hpiece := chunk_flatMap_pieces hg (le_nch_mul hc) hi (mul_lt_of_lt_nch hi).le
  rw [getElem?_chunk (by rwa [hpiece]), hpiece]

/-- The index `RT` holds for Chunk `i`. -/
theorem rowWord_getElem? {d : List Byte} {c i : Nat} (hc : 1 ≤ c) (hc32 : c < 2 ^ 32)
    (hi : i < nch d.length c) :
    ∃ r, ((rotateChunks d c).map rowWord)[i]? = some r ∧ r.toNat = (rotate (chunk d c i)).1 := by
  refine ⟨((rotateChunks d c).map rowWord).getD i 0, ?_, rowWord_toNat hc hc32 hi⟩
  rw [List.getD_eq_getElem?_getD, List.getElem?_eq_getElem (by simpa [rotateChunks] using hi),
    Option.getD_some]

/-- R135: the condition on `RT`, Chunk by Chunk. -/
theorem rtFits_iff (rt : List Word) (d : List Byte) (c : Nat) :
    rtFits rt d.length c = true ↔ rt.length = chunkCount d c ∧
      ∀ i, i < chunkCount d c → (rt.getD i 0).toNat < (chunkAt d c i).length := by
  simp only [chunkCount_eq_nch, ← chunk_eq_chunkAt, chunk_length, rtFits, Bool.and_eq_true,
    decide_eq_true_eq, List.all_eq_true, List.mem_range]

theorem length_unrotate_chunk (rt : List Word) (d : List Byte) (c i : Nat) :
    (unrotate (rt.getD i 0).toNat (chunk d c i)).length = clen d.length c i := by
  rw [unrotate_length, chunk_length]

/-- R131, R133: Chunk `i` of what `ROT` leaves. -/
theorem rotateChunks_sorts {d : List Byte} {c i : Nat} (hc : 1 ≤ c) (hc32 : c < 2 ^ 32)
    (hi : i < chunkCount d c) :
    ∃ order, SortsRotations (chunkAt d c i) order ∧
      (∃ r, ((rotateChunks d c).map rowWord)[i]? = some r ∧ order[r.toNat]? = some 0) ∧
      ∀ j, j < (chunkAt d c i).length → ∃ k, order[j]? = some k ∧
        ((rotateChunks d c).flatMap Prod.snd)[i * c + j]? =
          (chunkAt d c i)[(k + (chunkAt d c i).length - 1) % (chunkAt d c i).length]? := by
  rw [← chunk_eq_chunkAt]
  refine ⟨rotOrder (chunk d c i), rotOrder_sortsRotations _, ?_, fun j hj => ?_⟩
  · obtain ⟨r, hr, hrow⟩ := rowWord_getElem? hc hc32 hi
    exact ⟨r, hr, hrow ▸ rotOrder_rotate_fst (chunk_ne_nil hc hi)⟩
  · have hk := List.getElem?_eq_getElem (l := rotOrder (chunk d c i)) (i := j) (by simpa using hj)
    refine ⟨_, hk, ?_⟩
    rw [rotateChunks_flatMap_snd,
      getElem?_flatMap_pieces hc (length_rotate_chunk d c) hi (by simpa using hj),
      rotate_snd_getElem? hk]

/-- R134, R135: Chunk `i` of what `UNROT` leaves. -/
theorem unrotateChunks_walks {rt : List Word} {d : List Byte} {c i : Nat} (hc : 1 ≤ c)
    (hi : i < chunkCount d c) (hr : (rt.getD i 0).toNat < (chunkAt d c i).length) :
    ∃ (rows : List Nat) (row : Nat → Nat), SortsPositions (chunkAt d c i) rows ∧
      row 0 = (rt.getD i 0).toNat ∧
      ∀ k, k < (chunkAt d c i).length → rows[row k]? = some (row (k + 1)) ∧
        (unrotateChunks rt d c)[i * c + k]? = (chunkAt d c i)[row (k + 1)]? := by
  rw [← chunk_eq_chunkAt] at hr ⊢
  refine ⟨nextRow (chunk d c i), walkRow (chunk d c i) (rt.getD i 0).toNat,
    nextRow_sortsPositions _, rfl, fun k hk => ⟨?_, ?_⟩⟩
  · rw [walkRow_succ, nextRow_getElem? (walkRow_lt hr k)]
  · rw [unrotateChunks,
      getElem?_flatMap_pieces hc (length_unrotate_chunk rt d c) hi (by simpa using hk),
      unrotate_getElem? hr hk]

/-! ## The commands (R133, R135) -/

theorem exec_rot (s : State) : exec .rot s = finish .rot s (stageRot s) := rfl

theorem exec_unrot (s : State) : exec .unrot s = finish .unrot s (stageUnrot s) := rfl

theorem exec_rot_of_le {s : State} (h : chunkCount s.d s.chkSize.toNat ≤ s.cfg.rtcap) :
    exec .rot s = .next { s with
      rt := (rotateChunks s.d s.chkSize.toNat).map rowWord
      d := (rotateChunks s.d s.chkSize.toNat).flatMap Prod.snd
      cur := none, phase := .idle } := by
  rcases stageRot_cases s with ⟨-, hs⟩ | ⟨hlt, -⟩
  · rw [exec_rot, hs, finish_ok]; rfl
  · exact absurd h (not_le.mpr hlt)

theorem exec_rot_of_lt {s : State} (h : s.cfg.rtcap < chunkCount s.d s.chkSize.toNat) :
    exec .rot s = .next (s.raise .capacityExceeded 0 (some s.seq) .rotate) := by
  rcases stageRot_cases s with ⟨hle, -⟩ | ⟨-, hs⟩
  · exact absurd h (not_lt.mpr hle)
  · rw [exec_rot, hs, finish_raised]

theorem exec_unrot_of_fits {s : State} (h : rtFits s.rt s.d.length s.chkSize.toNat = true) :
    exec .unrot s = .next { s with
      d := unrotateChunks s.rt s.d s.chkSize.toNat, cur := none, phase := .idle } := by
  rw [exec_unrot, stageUnrot_of_rtFits h, finish_ok]
  rfl

theorem exec_unrot_of_not_fits {s : State} (h : rtFits s.rt s.d.length s.chkSize.toNat ≠ true) :
    exec .unrot s = .next (s.raise .malformedContainer 4 (some s.rseq) .unrotate) := by
  rcases stageUnrot_cases s with ⟨hf, -⟩ | ⟨-, hs⟩
  · exact absurd hf h
  · rw [exec_unrot, hs, finish_raised]

/-! ## The obligations -/

/-- Settles O18: the Chunks that fit are sorted by `rotateChunks_sorts`; those that do not raise. -/
theorem rotSortsTheRotations : Obligations.RotSortsTheRotations := by
  unfold Obligations.RotSortsTheRotations
  refine ⟨by decide, fun s hc => ⟨fun hfit => ?_, exec_rot_of_lt⟩⟩
  exact ⟨_, _, exec_rot_of_le hfit, by simp [chunkCount_eq_nch, rotateChunks],
    rotateChunks_length hc s.d, fun i hi => rotateChunks_sorts hc s.chkSize.isLt hi⟩

/-- Settles O19: `RT` that fits sends `UNROT` on the walk of `unrotateChunks_walks`; any other
raises. -/
theorem unrotWalksTheRows : Obligations.UnrotWalksTheRows := by
  unfold Obligations.UnrotWalksTheRows
  refine ⟨by decide, fun s hc => ⟨fun hfit => ?_, fun hfit => ?_⟩⟩
  · have hexec := exec_unrot_of_fits ((rtFits_iff _ _ _).mpr hfit)
    obtain ⟨-, hrows⟩ := hfit
    exact ⟨_, hexec, unrotateChunks_length hc _ _,
      fun i hi => unrotateChunks_walks hc hi (hrows i hi)⟩
  · exact exec_unrot_of_not_fits (mt (rtFits_iff _ _ _).mp hfit)

/-- Settles O20: the walk from row `j` emits the rotation in row `j`, since one step of it rotates
the row by one byte (`rot_nextRow`). -/
theorem unrotateRecoversEveryRow : Obligations.UnrotateRecoversEveryRow := by
  unfold Obligations.UnrotateRecoversEveryRow
  exact fun c => ⟨fun j k h => unrotate_rotate h, unrotate_rotate_fst c⟩

/-- Settles O21: the indices `ROT` writes fit, and the inverse of every Chunk is the Chunk. -/
theorem unrotAfterRotRestoresTheBlock : Obligations.UnrotAfterRotRestoresTheBlock := by
  unfold Obligations.UnrotAfterRotRestoresTheBlock
  intro s hc hfit
  have hrot := rotateChunks_length hc s.d
  refine ⟨_, exec_rot_of_le hfit, ?_⟩
  rw [exec_unrot_of_fits (by rw [hrot]; exact rtFits_rotateChunks hc s.chkSize.isLt s.d)]
  simp only [unrotateChunks_rotateChunks hc s.chkSize.isLt]

end Sys2Proof.Machine
end

section
/-! The Rank Transform in the terms of its rules: the lists of a run, its two directions, and a
constant Block (R150 to R154). -/

namespace Sys2Proof.Machine

open Sys2Proof.Claims

/-! ## Moving to the front (R150) -/

theorem mtfFront_eq_cons {ml : List Byte} {k : Nat} (hk : k < ml.length) :
    mtfFront ml k = ml[k] :: ml.eraseIdx k := by
  rw [mtfFront, List.getElem?_eq_getElem hk]

theorem mtfFront_movesToFront {ml : List Byte} {k : Nat} (hk : k < ml.length) :
    MovedToFront ml (mtfFront ml k) k := by
  refine ⟨mtfFront_length ml k, fun j _ => ?_⟩
  rw [mtfFront_eq_cons hk]
  cases j with
  | zero => simp [hk]
  | succ j =>
    rw [List.getElem?_cons_succ, List.getElem?_eraseIdx]
    simp

/-! ## The lists of a run (R151, R152) -/

/-- The list that meets the rank at position `n`: the one the `n` ranks before it leave. -/
def listBefore (ks : List Byte) (n : Nat) : List Byte := (mtfDecode identityList (ks.take n)).2

@[simp] theorem listBefore_length (ks : List Byte) (n : Nat) : (listBefore ks n).length = 256 :=
  (mtfDecode_perm _ _).length_eq.trans identityList_length

@[simp] theorem listBefore_end (ks : List Byte) :
    listBefore ks ks.length = (mtfDecode identityList ks).2 := by
  rw [listBefore, List.take_length]

/-- A rank moves the element it stands for to the front of the list the ranks before it leave. -/
theorem mtfDecode_take_succ {ks : List Byte} {n : Nat} {k : Byte} (hk : ks[n]? = some k)
    (ml : List Byte) :
    (mtfDecode ml (ks.take (n + 1))).2 = mtfFront (mtfDecode ml (ks.take n)).2 k.toNat := by
  induction ks generalizing ml n with
  | nil => simp at hk
  | cons k' ks ih =>
    cases n with
    | zero =>
      obtain rfl : k' = k := by simpa using hk
      simp [mtfDecode]
    | succ n => exact ih (by simpa using hk) _

theorem listBefore_succ {ks : List Byte} {n : Nat} {k : Byte} (hk : ks[n]? = some k) :
    listBefore ks (n + 1) = mtfFront (listBefore ks n) k.toNat :=
  mtfDecode_take_succ hk identityList

/-- The byte decoded from a rank is the one at the rank in its list. -/
theorem mtfDecode_getElem? {ks : List Byte} {n : Nat} {k : Byte} (hk : ks[n]? = some k)
    (ml : List Byte) :
    (mtfDecode ml ks).1[n]? = some ((mtfDecode ml (ks.take n)).2.getD k.toNat 0) := by
  induction ks generalizing ml n with
  | nil => simp at hk
  | cons k' ks ih =>
    cases n with
    | zero =>
      obtain rfl : k' = k := by simpa using hk
      rfl
    | succ n => exact ih (by simpa using hk) _

/-- One position of a run: the rank and the decoded byte meet in the list, and the next list is the
list with that byte at its front. -/
theorem listBefore_step {ks : List Byte} {n : Nat} {k b : Byte} (hk : ks[n]? = some k)
    (hb : (mtfDecode identityList ks).1[n]? = some b) :
    (listBefore ks n)[k.toNat]? = some b ∧
      MovedToFront (listBefore ks n) (listBefore ks (n + 1)) k.toNat := by
  have hlt : k.toNat < (listBefore ks n).length := by simpa using k.isLt
  obtain rfl := Option.some.inj ((mtfDecode_getElem? hk _).symm.trans hb)
  rw [← listBefore, List.getD_eq_getElem _ _ hlt, listBefore_succ hk]
  exact ⟨List.getElem?_eq_getElem hlt, mtfFront_movesToFront hlt⟩

/-! ## Encoding what was decoded (R154) -/

/-- A rank is the index of the byte it stands for. -/
theorem idxOf_getD {ml : List Byte} (h : ml.Perm identityList) (k : Byte) :
    ml.idxOf (ml.getD k.toNat 0) = k.toNat := by
  have hlt : k.toNat < ml.length := by
    rw [h.length_eq, identityList_length]; exact k.isLt
  rw [List.getD_eq_getElem _ _ hlt]
  exact (h.nodup_iff.mpr identityList_nodup).idxOf_getElem _ hlt

/-- R154: the bytes encode to the ranks they were made of, and leave the same list. -/
theorem mtfEncode_mtfDecode {ml : List Byte} (h : ml.Perm identityList) (ks : List Byte) :
    mtfEncode ml (mtfDecode ml ks).1 = (ks, (mtfDecode ml ks).2) := by
  induction ks generalizing ml with
  | nil => rfl
  | cons k ks ih =>
    have ih := ih ((mtfFront_perm ml k.toNat).trans h)
    simp only [mtfEncode, mtfDecode, idxOf_getD h, ih, BitVec.ofNat_toNat, BitVec.setWidth_eq]

/-! ## A constant Block (R153) -/

/-- A byte at the front has rank 0 and stays there. -/
theorem mtfEncode_replicate_front (b : Byte) (ml : List Byte) (n : Nat) :
    mtfEncode (b :: ml) (List.replicate n b) = (List.replicate n 0, b :: ml) := by
  induction n with
  | zero => rfl
  | succ n ih =>
    have hfront : mtfFront (b :: ml) 0 = b :: ml := rfl
    simp [List.replicate_succ, mtfEncode, hfront, ih]

/-- In the identity list the index of a byte is its value. -/
theorem identityList_idxOf (b : Byte) : identityList.idxOf b = b.toNat := by
  obtain ⟨-, hget⟩ := identityList_isIdentity
  have hb : identityList.getD b.toNat 0 = b := by
    simp [List.getD_eq_getElem?_getD, hget b.toNat b.isLt]
  rw [← idxOf_getD (.refl _) b, hb]

/-- The byte's value, then a zero for every byte after it, since the byte stays at the front. -/
theorem mtfEncode_identity_replicate (b : Byte) (n : Nat) :
    (mtfEncode identityList (List.replicate (n + 1) b)).1 = b :: List.replicate n 0 := by
  have hlt : identityList.idxOf b < identityList.length :=
    List.idxOf_lt_length_of_mem (mem_of_perm_identity (.refl _) b)
  have hfront : mtfFront identityList (identityList.idxOf b) =
      b :: identityList.eraseIdx (identityList.idxOf b) := by
    rw [mtfFront_eq_cons hlt, List.getElem_idxOf]
  simp only [List.replicate_succ, mtfEncode, hfront, mtfEncode_replicate_front]
  rw [identityList_idxOf, BitVec.ofNat_toNat, BitVec.setWidth_eq]

/-! ## The commands (R151, R152) -/

theorem exec_mtfe (s : State) : exec .mtfe s = .next { s with
    d := (mtfEncode identityList s.d).1
    ml := (mtfEncode identityList s.d).2
    cur := none, phase := .idle } := rfl

theorem exec_mtfd (s : State) : exec .mtfd s = .next { s with
    d := (mtfDecode identityList s.d).1
    ml := (mtfDecode identityList s.d).2
    cur := none, phase := .idle } := rfl

/-! ## The obligations -/

/-- Settles O22: the ranks decode to the Block again (`mtfDecode_mtfEncode`), so `listBefore` of the
ranks links each byte to its rank. -/
theorem mtfeEmitsRanks : Obligations.MtfeEmitsRanks := by
  unfold Obligations.MtfeEmitsRanks
  refine ⟨by decide, fun s => ?_⟩
  have hback := mtfDecode_mtfEncode (.refl _) s.d
  have hlen := mtfEncode_length identityList s.d
  refine ⟨_, _, listBefore (mtfEncode identityList s.d).1, exec_mtfe s, hlen,
    identityList_isIdentity, ?_, fun n b hb => ?_⟩
  · rw [← hlen, listBefore_end, hback]
  · obtain ⟨hn, -⟩ := List.getElem?_eq_some_iff.mp hb
    have hk := List.getElem?_eq_getElem (hlen.symm ▸ hn)
    exact ⟨_, hk, listBefore_step hk (by rw [hback]; exact hb)⟩

/-- Settles O23: the lists are `listBefore` of the ranks in `D`. -/
theorem mtfdEmitsBytes : Obligations.MtfdEmitsBytes := by
  unfold Obligations.MtfdEmitsBytes
  refine ⟨by decide, fun s => ?_⟩
  refine ⟨_, _, listBefore s.d, exec_mtfd s, mtfDecode_length identityList s.d,
    identityList_isIdentity, (listBefore_end s.d).symm, fun n k hk => ?_⟩
  have hb := mtfDecode_getElem? hk identityList
  exact ⟨_, hb, listBefore_step hk hb⟩

/-- Settles O24: each of the two maps undoes the other from the identity list, with the same list
at the end; `ML` is written without being read. -/
theorem rankTransformRoundTrips : Obligations.RankTransformRoundTrips := by
  unfold Obligations.RankTransformRoundTrips
  refine fun s t => ⟨fun h => ?_, fun h => ?_, fun ml => ?_⟩
  · rw [exec_mtfe, Host.Outcome.next.injEq] at h
    subst h
    simp only [exec_mtfd, mtfDecode_mtfEncode (.refl _)]
  · rw [exec_mtfd, Host.Outcome.next.injEq] at h
    subst h
    simp only [exec_mtfe, mtfEncode_mtfDecode (.refl _)]
  · simp only [exec_mtfe, exec_mtfd, and_self]

/-- Settles O25: the ranks are `mtfEncode_identity_replicate`'s. -/
theorem mtfeOfAConstantBlock : Obligations.MtfeOfAConstantBlock := by
  unfold Obligations.MtfeOfAConstantBlock
  intro s b n hd
  exact ⟨_, by rw [exec_mtfe, hd, mtfEncode_identity_replicate]⟩

end Sys2Proof.Machine
end

section
/-! `HCNT` and `HTREE` in the terms of their rules: the counts of a Block, and the loop that merges
the two nodes extracted first until one is left (R160 to R163). -/

namespace Sys2Proof.Machine

open Sys2Proof.Claims

/-! ## The counts (R39, R160) -/

/-- The elements of a table, symbol by symbol. -/
theorem toList_eq_map_identityList {α : Type} (t : Vector α 256) :
    t.toList = identityList.map fun b => t[b.toFin] := by
  refine List.ext_getElem (by simp) fun i h _ => ?_
  have hi : i < 256 := by simpa using h
  simp [identityList, Nat.mod_eq_of_lt hi]

theorem total_eq_sum (ft : FreqTable) :
    FreqTable.total ft = (identityList.map fun b => (ft[b.toFin]).toNat).sum := by
  rw [FreqTable.total, toList_eq_map_identityList, List.map_map, Function.comp_def]

theorem countFreqs_toNat {d : List Byte} (hd : d.length < 2 ^ 32) (b : Byte) :
    ((countFreqs d)[b.toFin]).toNat = d.count b := by
  have hle : d.count b < 2 ^ 32 := List.count_le_length.trans_lt hd
  rw [countFreqs_get, BitVec.toNat_ofNat, Nat.mod_eq_of_lt hle]

theorem sum_count_identityList (d : List Byte) :
    (identityList.map fun b => d.count b).sum = d.length := by
  have hmem : ∀ b ∈ (d : Multiset Byte), b ∈ identityList.toFinset :=
    fun b _ => List.mem_toFinset.mpr (mem_of_perm_identity (.refl _) b)
  rw [← List.sum_toFinset _ identityList_nodup]
  simpa using Multiset.sum_count_eq_card hmem

/-- R160: the counts of a Block sum to its length. -/
theorem total_countFreqs {d : List Byte} (hd : d.length < 2 ^ 32) :
    FreqTable.total (countFreqs d) = d.length := by
  rw [total_eq_sum, ← sum_count_identityList d]
  exact congrArg List.sum (List.map_congr_left fun b _ => countFreqs_toNat hd b)

/-! ## The leaves (R161) -/

theorem identityList_eq_map_finRange :
    identityList = (List.finRange 256).map (BitVec.ofFin (w := 8)) := by
  refine List.ext_getElem (by simp) fun i h _ => ?_
  have hi : i < 256 := by simpa using h
  exact BitVec.eq_of_toNat_eq (by simp [identityList, Nat.mod_eq_of_lt hi])

theorem identityList_sorted : identityList.Pairwise fun x y => x.toNat < y.toNat := by
  rw [identityList_eq_map_finRange, List.pairwise_map]
  exact List.pairwise_lt_finRange 256

/-- R161: the symbols below `n` that occur are the first ones of those that occur. -/
theorem symbolsBelow_eq_countP (ft : FreqTable) (n : Nat) :
    symbolsBelow ft n = (occurring ft).countP fun c => decide (c.toNat < n) := by
  rw [symbolsBelow, occurring, List.countP_filter, identityList_eq_map_finRange, List.countP_map]
  refine List.countP_congr fun c _ => ?_
  simp

/-- R161: `k` is the number of symbols that occur. -/
theorem symbolsBelow_all (ft : FreqTable) : symbolsBelow ft 256 = (occurring ft).length := by
  rw [symbolsBelow_eq_countP, List.countP_eq_length]
  exact fun c _ => decide_eq_true c.isLt

theorem leavesOf_length (ft : FreqTable) : (leavesOf ft).length = symbolsBelow ft 256 := by
  rw [leavesOf_eq, List.length_map, symbolsBelow_all]

/-- In an ascending list a member stands behind those below it. -/
theorem getElem?_countP_lt {l : List Byte} (hl : l.Pairwise fun x y => x.toNat < y.toNat) {b : Byte}
    (hb : b ∈ l) : l[l.countP fun c => decide (c.toNat < b.toNat)]? = some b := by
  induction l with
  | nil => cases hb
  | cons x l ih =>
    obtain ⟨hx, hl⟩ := List.pairwise_cons.mp hl
    rcases List.mem_cons.mp hb with rfl | hb
    · have hnone : l.countP (fun c => decide (c.toNat < b.toNat)) = 0 :=
        List.countP_eq_zero.mpr fun c hc => by simpa using (hx c hc).le
      simp [hnone]
    · rw [List.countP_cons_of_pos (by simpa using hx b hb)]
      exact ih hl hb

/-- R161: the leaf of a symbol stands behind those of the symbols below it. -/
theorem leavesOf_getElem? {ft : FreqTable} {b : Byte} (h : ft[b.toFin] ≠ 0) :
    (leavesOf ft)[symbolsBelow ft b.toNat]? = some (.leaf b ft[b.toFin]) := by
  have hsorted : (occurring ft).Pairwise fun x y => x.toNat < y.toNat :=
    identityList_sorted.filter _
  rw [leavesOf_eq, List.getElem?_map, symbolsBelow_eq_countP,
    getElem?_countP_lt hsorted (mem_occurring.mpr h)]
  rfl

/-- The leaves' frequencies sum to the total of the counts. -/
theorem sum_freq_leavesOf (ft : FreqTable) :
    ((leavesOf ft).map fun n => n.freq.toNat).sum = FreqTable.total ft := by
  have hzero : ((identityList.filter fun b => ¬ ft[b.toFin] ≠ 0).map
      fun b => (ft[b.toFin]).toNat).sum = 0 := by
    refine List.sum_eq_zero fun n hn => ?_
    obtain ⟨b, hb, rfl⟩ := List.mem_map.mp hn
    have hb : ft[b.toFin] = 0 := by simpa using (List.mem_filter.mp hb).2
    rw [hb]; rfl
  rw [leavesOf_eq, List.map_map, total_eq_sum,
    ← List.sum_map_filter_add_sum_map_filter_not (l := identityList)
      (fun b : Byte => ft[b.toFin] ≠ 0), hzero]
  rfl

/-! ## The node extracted first (R162) -/

theorem comesFirst_iff {nodes : List TreeNode} {i j : Nat} : comesFirst nodes i j = true ↔
    (freqAt nodes i).toNat < (freqAt nodes j).toNat ∨
      (freqAt nodes i = freqAt nodes j ∧ i ≤ j) := by
  rw [comesFirst, decide_eq_true_iff]

theorem comesFirst_refl (nodes : List TreeNode) (i : Nat) : comesFirst nodes i i = true :=
  comesFirst_iff.mpr (.inr ⟨rfl, le_rfl⟩)

theorem comesFirst_trans {nodes : List TreeNode} {i j k : Nat} (hij : comesFirst nodes i j = true)
    (hjk : comesFirst nodes j k = true) : comesFirst nodes i k = true := by
  rw [comesFirst_iff, ← BitVec.toNat_inj] at *
  omega

theorem comesFirst_of_not {nodes : List TreeNode} {i j : Nat} (h : ¬ comesFirst nodes i j = true) :
    comesFirst nodes j i = true := by
  rw [comesFirst_iff, ← BitVec.toNat_inj] at *
  omega

/-- No live node comes before the lowest. -/
theorem comesFirst_of_lowest {nodes : List TreeNode} {live : List Nat} {a : Nat}
    (h : lowest nodes live = some a) : ∀ i ∈ live, comesFirst nodes a i = true := by
  induction live generalizing a with
  | nil => cases h
  | cons x live ih =>
    rw [lowest] at h
    cases hj : lowest nodes live with
    | none =>
      obtain rfl : x = a := by simpa [hj] using h
      simp [lowest_eq_none.mp hj, comesFirst_refl]
    | some j =>
      simp only [hj] at h
      have hmin := ih hj
      rw [List.forall_mem_cons]
      split_ifs at h with hx <;> obtain rfl := Option.some.inj h
      · exact ⟨comesFirst_refl _ _, fun i hi => comesFirst_trans hx (hmin i hi)⟩
      · exact ⟨comesFirst_of_not hx, hmin⟩

/-- R162: the lowest of a list is the node extracted first of its members. -/
theorem extractedFirst_of_lowest {nodes : List TreeNode} {live : List Nat} {a : Nat}
    {S : Nat → Prop} (h : lowest nodes live = some a) (hS : ∀ i, i ∈ live ↔ S i) :
    ExtractedFirst nodes S a := by
  refine ⟨(hS a).mp (mem_of_lowest h), fun i hi hne => ?_⟩
  refine (comesFirst_iff.mp (comesFirst_of_lowest h i ((hS i).mpr hi))).imp_right ?_
  exact And.imp_right fun hle => lt_of_le_of_ne hle hne.symm

/-! ## The arena as it grows -/

theorem freqAt_append {nodes : List TreeNode} {i : Nat} (hi : i < nodes.length)
    (new : List TreeNode) : freqAt (nodes ++ new) i = freqAt nodes i := by
  rw [freqAt, freqAt, List.getElem?_append_left hi]

theorem live_append_iff {nodes : List TreeNode} {m : Nat} (hm : m ≤ nodes.length)
    (new : List TreeNode) (k i : Nat) : Live (nodes ++ new) k m i ↔ Live nodes k m i := by
  refine and_congr_right fun _ => forall_congr' fun j => forall₃_congr fun f l r => ?_
  refine imp_congr_right fun _ => imp_congr_right fun hj => ?_
  rw [List.getElem?_append_left (hj.trans_le hm)]

/-- Which node is extracted first is settled by the nodes that are there. -/
theorem extractedFirst_append {nodes : List TreeNode} {S T : Nat → Prop} {a : Nat}
    (h : ExtractedFirst nodes S a) (hlt : ∀ i, S i → i < nodes.length) (hT : ∀ i, T i ↔ S i)
    (new : List TreeNode) : ExtractedFirst (nodes ++ new) T a := by
  obtain ⟨ha, hmin⟩ := h
  refine ⟨(hT a).mpr ha, fun i hi hne => ?_⟩
  have hi := (hT i).mp hi
  rw [freqAt_append (hlt a ha), freqAt_append (hlt i hi)]
  exact hmin i hi hne

/-- R163: node `m` of the arena, the first `k` of which are leaves, merges the two nodes extracted
first of those live when it is made. -/
def MergesTwoLowest (tr : List TreeNode) (k m : Nat) : Prop :=
  ∃ f a b, tr[m]? = some (.node f a b) ∧
    f.toNat = (freqAt tr a).toNat + (freqAt tr b).toNat ∧
    ExtractedFirst tr (Live tr k m) a ∧ ExtractedFirst tr (fun i => Live tr k m i ∧ i ≠ a) b

theorem MergesTwoLowest.append {tr : List TreeNode} {k m : Nat} (h : MergesTwoLowest tr k m)
    (new : List TreeNode) : MergesTwoLowest (tr ++ new) k m := by
  obtain ⟨f, a, b, hm, hf, ha, hb⟩ := h
  obtain ⟨hmlt, -⟩ := List.getElem?_eq_some_iff.mp hm
  have hlt : ∀ i, Live tr k m i → i < tr.length := fun i hi => hi.1.trans hmlt
  refine ⟨f, a, b, (List.getElem?_append_left hmlt).trans hm, ?_,
    extractedFirst_append ha hlt (live_append_iff hmlt.le new k) new,
    extractedFirst_append hb (fun i hi => hlt i hi.1)
      (fun i => and_congr_left' (live_append_iff hmlt.le new k i)) new⟩
  rw [freqAt_append (hlt a ha.1), freqAt_append (hlt b hb.1.1)]
  exact hf

/-! ## The merging loop (R163) -/

/-- What the merging loop keeps: `live` lists the live nodes, whose frequencies sum to `total`; the
arena begins with the leaves, and every later node merges the two lowest. -/
structure Merging (leaves : List TreeNode) (total : Nat) (nodes : List TreeNode) (live : List Nat) :
    Prop where
  leaves_prefix : leaves <+: nodes
  mem_live : ∀ i, i ∈ live ↔ Live nodes leaves.length nodes.length i
  live_nodup : live.Nodup
  merged : ∀ m, leaves.length ≤ m → m < nodes.length → MergesTwoLowest nodes leaves.length m
  count : nodes.length + live.length = 2 * leaves.length
  sum_live : (live.map fun i => (freqAt nodes i).toNat).sum = total

/-- Before the first merge every leaf is live. -/
theorem merging_leaves (leaves : List TreeNode) :
    Merging leaves (leaves.map fun n => n.freq.toNat).sum leaves (List.range leaves.length) where
  leaves_prefix := List.prefix_rfl
  mem_live i := by
    rw [List.mem_range, Live, iff_self_and]
    intro _ j f l r hj hjlt
    omega
  live_nodup := List.nodup_range
  merged m hm hlt := by omega
  count := by rw [List.length_range]; omega
  sum_live := by
    congr 1
    refine List.ext_getElem (by simp) fun i _ hi => ?_
    have hi : i < leaves.length := by simpa using hi
    simp [freqAt, List.getElem?_eq_getElem hi]

/-- R40: a merged node stands behind its children. -/
theorem children_lt_of_merged {tr : List TreeNode} {k : Nat}
    (h : ∀ m, k ≤ m → m < tr.length → MergesTwoLowest tr k m) {j l r : Nat} {g : Word} (hj : k ≤ j)
    (hnode : tr[j]? = some (.node g l r)) : l < j ∧ r < j := by
  obtain ⟨f, a, b, hab, -, ha, hb⟩ := h j hj (List.getElem?_eq_some_iff.mp hnode).1
  obtain ⟨rfl, rfl, rfl⟩ : f = g ∧ a = l ∧ b = r := by simpa using hab.symm.trans hnode
  exact ⟨ha.1.1, hb.1.1.1⟩

/-- With a merged node made, its children are live no longer and it is. -/
theorem live_succ_iff {tr : List TreeNode} {k m a b : Nat} {f : Word} (hk : k ≤ m)
    (hm : tr[m]? = some (.node f a b))
    (hlt : ∀ {j l r : Nat} {g : Word}, k ≤ j → tr[j]? = some (.node g l r) → l < j ∧ r < j)
    (i : Nat) : Live tr k (m + 1) i ↔ (Live tr k m i ∧ i ≠ a ∧ i ≠ b) ∨ i = m := by
  constructor
  · rintro ⟨hi, hch⟩
    rcases Nat.lt_succ_iff_lt_or_eq.mp hi with him | him
    · exact .inl ⟨⟨him, fun j g l r hj hjm => hch j g l r hj (by omega)⟩,
        hch m f a b hk (by omega) hm⟩
    · exact .inr him
  · rintro (⟨⟨hi, hch⟩, hab⟩ | rfl)
    · refine ⟨by omega, fun j g l r hj hjm hnode => ?_⟩
      rcases Nat.lt_succ_iff_lt_or_eq.mp hjm with hjm | rfl
      · exact hch j g l r hj hjm hnode
      · obtain ⟨rfl, rfl, rfl⟩ : f = g ∧ a = l ∧ b = r := by simpa using hm.symm.trans hnode
        exact hab
    · refine ⟨by omega, fun j g l r hj hjm hnode => ?_⟩
      have := hlt hj hnode
      omega

section
variable {leaves nodes : List TreeNode} {live : List Nat} {total : Nat}

/-- A node made of the two lowest live nodes merges the two lowest. -/
theorem Merging.mergesTwoLowest (h : Merging leaves total nodes live) {a b : Nat} {f : Word}
    (ha : lowest nodes live = some a) (hb : lowest nodes (live.erase a) = some b)
    (hf : f.toNat = (freqAt nodes a).toNat + (freqAt nodes b).toNat) :
    MergesTwoLowest (nodes ++ [.node f a b]) leaves.length nodes.length := by
  have hfirst : ExtractedFirst nodes (Live nodes leaves.length nodes.length) a :=
    extractedFirst_of_lowest ha h.mem_live
  have hsecond : ExtractedFirst nodes
      (fun i => Live nodes leaves.length nodes.length i ∧ i ≠ a) b :=
    extractedFirst_of_lowest hb fun i => by
      rw [h.live_nodup.mem_erase_iff, and_comm, h.mem_live]
  have hlive := live_append_iff (le_refl nodes.length) [.node f a b] leaves.length
  refine ⟨f, a, b, List.getElem?_concat_length, ?_,
    extractedFirst_append hfirst (fun i hi => hi.1) hlive _,
    extractedFirst_append hsecond (fun i hi => hi.1.1) (fun i => and_congr_left' (hlive i)) _⟩
  rw [freqAt_append hfirst.1.1, freqAt_append hsecond.1.1.1, hf]

/-- One turn of the loop keeps what it keeps; the sums stay below `2 ^ 32`. -/
theorem Merging.merge (h : Merging leaves total nodes live) (htotal : total < 2 ^ 32) {a b : Nat}
    (ha : lowest nodes live = some a) (hb : lowest nodes (live.erase a) = some b) :
    Merging leaves total (nodes ++ [.node (freqAt nodes a + freqAt nodes b) a b])
      ((live.erase a).erase b ++ [nodes.length]) := by
  have hmem : ∀ i, i ∈ (live.erase a).erase b ↔ i ∈ live ∧ i ≠ a ∧ i ≠ b := fun i => by
    rw [(h.live_nodup.erase a).mem_erase_iff, h.live_nodup.mem_erase_iff]
    tauto
  have hlt : ∀ i ∈ (live.erase a).erase b, i < nodes.length :=
    fun i hi => ((h.mem_live i).mp ((hmem i).mp hi).1).1
  have hperm : live.Perm (a :: b :: (live.erase a).erase b) :=
    (List.perm_cons_erase (mem_of_lowest ha)).trans
      ((List.perm_cons_erase (mem_of_lowest hb)).cons a)
  have hsum := (hperm.map fun i => (freqAt nodes i).toNat).sum_eq
  rw [h.sum_live, List.map_cons, List.map_cons, List.sum_cons, List.sum_cons] at hsum
  have hfreq : (freqAt nodes a + freqAt nodes b).toNat =
      (freqAt nodes a).toNat + (freqAt nodes b).toNat := by
    rw [BitVec.toNat_add, Nat.mod_eq_of_lt (by omega)]
  generalize freqAt nodes a + freqAt nodes b = f at hfreq ⊢
  have hmerged : ∀ m, leaves.length ≤ m → m < (nodes ++ [TreeNode.node f a b]).length →
      MergesTwoLowest (nodes ++ [.node f a b]) leaves.length m := fun m hm hmlt => by
    rw [List.length_append, List.length_singleton] at hmlt
    rcases Nat.lt_succ_iff_lt_or_eq.mp hmlt with hmlt | rfl
    · exact (h.merged m hm hmlt).append _
    · exact h.mergesTwoLowest ha hb hfreq
  exact
  { leaves_prefix := h.leaves_prefix.trans (List.prefix_append _ _)
    mem_live := fun i => by
      rw [List.length_append, List.length_singleton,
        live_succ_iff h.leaves_prefix.length_le List.getElem?_concat_length
          (children_lt_of_merged hmerged),
        live_append_iff le_rfl, List.mem_append, List.mem_singleton, hmem, h.mem_live]
    live_nodup := ((h.live_nodup.erase a).erase b).append (List.nodup_singleton _) fun i hi hin =>
      (hlt i hi).ne (List.mem_singleton.mp hin)
    merged := hmerged
    count := by
      have hlen := hperm.length_eq
      have hcount := h.count
      simp only [List.length_cons, List.length_append, List.length_nil] at hlen ⊢
      omega
    sum_live := by
      have hself : freqAt (nodes ++ [.node f a b]) nodes.length = f := by
        rw [freqAt, List.getElem?_concat_length]; rfl
      rw [List.map_append, List.sum_append, List.map_singleton, List.sum_singleton, hself, hfreq,
        List.map_congr_left fun i hi => congrArg BitVec.toNat (freqAt_append (hlt i hi) _)]
      omega }

/-- R163: a turn of the loop ends it with at most one live node, or merges the two lowest. -/
theorem mergeNodes_succ_eq (fuel : Nat) (nodes : List TreeNode) (live : List Nat) :
    (live.length ≤ 1 ∧ mergeNodes (fuel + 1) nodes live = nodes) ∨
    ∃ a b, lowest nodes live = some a ∧ lowest nodes (live.erase a) = some b ∧
      mergeNodes (fuel + 1) nodes live =
        mergeNodes fuel (nodes ++ [.node (freqAt nodes a + freqAt nodes b) a b])
          ((live.erase a).erase b ++ [nodes.length]) := by
  cases ha : lowest nodes live with
  | none => exact .inl ⟨by simp [lowest_eq_none.mp ha], by simp [mergeNodes, ha]⟩
  | some a =>
    cases hb : lowest nodes (live.erase a) with
    | none =>
      have hlen := List.length_erase_of_mem (mem_of_lowest ha)
      rw [lowest_eq_none.mp hb, List.length_nil] at hlen
      exact .inl ⟨by omega, by simp [mergeNodes, ha, hb]⟩
    | some b => exact .inr ⟨a, b, rfl, hb, by simp [mergeNodes, ha, hb]⟩

/-- R163: the loop goes on until one live node is left. -/
theorem Merging.mergeNodes {fuel : Nat} (h : Merging leaves total nodes live)
    (htotal : total < 2 ^ 32) (hf : live.length ≤ fuel + 1) :
    ∃ root, root.length ≤ 1 ∧ Merging leaves total (mergeNodes fuel nodes live) root := by
  induction fuel generalizing nodes live with
  | zero => exact ⟨live, hf, h⟩
  | succ fuel ih =>
    rcases mergeNodes_succ_eq fuel nodes live with ⟨h1, hend⟩ | ⟨a, b, ha, hb, hturn⟩
    · exact ⟨live, h1, by rw [hend]; exact h⟩
    · rw [hturn]
      refine ih (h.merge htotal ha hb) ?_
      rw [List.length_append, List.length_singleton, List.length_erase_of_mem (mem_of_lowest hb),
        List.length_erase_of_mem (mem_of_lowest ha)]
      omega

/-- The youngest node is live: it is nobody's child. -/
theorem Merging.youngest_mem (h : Merging leaves total nodes live) (hne : nodes ≠ []) :
    nodes.length - 1 ∈ live := by
  have hpos := List.length_pos_of_ne_nil hne
  refine (h.mem_live _).mpr ⟨by omega, fun j f l r hj hjlt hnode => ?_⟩
  have := children_lt_of_merged h.merged hj hnode
  omega

/-- R163: where the loop ends, the youngest node is the root and holds the total. -/
theorem Merging.root (h : Merging leaves total nodes live) (h1 : live.length ≤ 1) :
    nodes.length = 2 * leaves.length - 1 ∧
      (nodes ≠ [] → (freqAt nodes (nodes.length - 1)).toNat = total) := by
  have hcount := h.count
  match live, h1, h with
  | [], _, h =>
    have hnil : nodes = [] := by
      by_contra hne
      exact List.not_mem_nil (h.youngest_mem hne)
    have hle := h.leaves_prefix.length_le
    rw [hnil, List.length_nil] at hle ⊢
    exact ⟨by omega, fun hne => absurd rfl hne⟩
  | [i], _, h =>
    rw [List.length_singleton] at hcount
    refine ⟨by omega, fun hne => ?_⟩
    rw [List.mem_singleton.mp (h.youngest_mem hne)]
    simpa using h.sum_live

end

/-- R163: the arena of `HTREE`, its loop having ended. -/
theorem merging_buildTree {ft : FreqTable} (h : FreqTable.total ft < 2 ^ 32) :
    ∃ root, root.length ≤ 1 ∧ Merging (leavesOf ft) (FreqTable.total ft) (buildTree ft) root :=
  (sum_freq_leavesOf ft ▸ merging_leaves (leavesOf ft)).mergeNodes h (by simp)

/-! ## The commands and the obligations -/

theorem exec_hcnt (s : State) : exec .hcnt s =
    .next { s with ft := countFreqs s.d, cur := none, phase := .idle } := rfl

theorem exec_htree (s : State) : exec .htree s =
    .next { s with tr := buildTree s.ft, cur := none, phase := .idle } := rfl

/-- Settles O26: below `2 ^ 32` bytes no count wraps, and the counts of all symbols sum to the
length. -/
theorem hcntCountsSymbols : Obligations.HcntCountsSymbols := by
  unfold Obligations.HcntCountsSymbols
  exact ⟨by decide, fun s hd => ⟨_, exec_hcnt s, countFreqs_toNat hd, total_countFreqs hd⟩⟩

/-- Settles O27: the arena `HTREE` builds satisfies `Merging` with at most one live node left. -/
theorem htreeMergesTheTwoLowest : Obligations.HtreeMergesTheTwoLowest := by
  unfold Obligations.HtreeMergesTheTwoLowest
  refine ⟨by decide, fun s hs => ?_⟩
  obtain ⟨live, h1, h⟩ := merging_buildTree hs
  obtain ⟨hlen, hroot⟩ := h.root h1
  have hmerged := h.merged
  rw [leavesOf_length] at hlen hmerged
  refine ⟨_, exec_htree s, hlen, fun b hb => ?_, hmerged, hroot⟩
  have hleaf := leavesOf_getElem? (b := BitVec.ofFin b) hb
  obtain ⟨hlt, -⟩ := List.getElem?_eq_some_iff.mp hleaf
  obtain ⟨merged, hprefix⟩ := h.leaves_prefix
  rw [← hprefix]
  exact (List.getElem?_append_left hlt).trans hleaf

end Sys2Proof.Machine
end

section
/-! `HCODE` in the terms of its rules: the codes are the paths that lead to the leaves, and together
the codes of a Block are complete (R164 to R166). -/

namespace Sys2Proof.Machine

open Sys2Proof.Claims

/-! ## Paths in the arena (R165) -/

/-- The paths of a tree in the arena are the edges that lead from its root to a leaf. -/
theorem ArenaTree.mem_paths_iff {tr : List TreeNode} {i : Nat} {t : CodeTree}
    (h : ArenaTree tr i t) (b : Byte) (c : Bits) : (b, c) ∈ t.paths ↔ LeadsTo tr i c b := by
  induction h generalizing c with
  | leaf h => cases c <;> simp [CodeTree.paths, LeadsTo, h, eq_comm]
  | node h _ _ _ _ ihl ihr =>
    cases c with
    | nil => simp [CodeTree.paths, LeadsTo, h]
    | cons e c => cases e <;> simp [CodeTree.paths, LeadsTo, h, ihl, ihr]

/-- R166 (d): every bit string long enough begins with a path. -/
theorem CodeTree.exists_path_prefix (t : CodeTree) {bits : Bits}
    (h : t.symbols.length ≤ bits.length + 1) : ∃ e ∈ t.paths, e.2 <+: bits := by
  induction t generalizing bits with
  | leaf b => exact ⟨(b, []), List.mem_singleton.mpr rfl, List.nil_prefix⟩
  | node l r ihl ihr =>
    have hl := l.symbols_length_pos
    have hr := r.symbols_length_pos
    rw [symbols, List.length_append] at h
    cases bits with
    | nil => rw [List.length_nil] at h; omega
    | cons e bits =>
      rw [List.length_cons] at h
      cases e with
      | false =>
        obtain ⟨x, hx, hpre⟩ := ihl (bits := bits) (by omega)
        exact ⟨(x.1, false :: x.2), List.mem_append_left _ (List.mem_map_of_mem hx),
          List.cons_prefix_cons.mpr ⟨rfl, hpre⟩⟩
      | true =>
        obtain ⟨x, hx, hpre⟩ := ihr (bits := bits) (by omega)
        exact ⟨(x.1, true :: x.2), List.mem_append_right _ (List.mem_map_of_mem hx),
          List.cons_prefix_cons.mpr ⟨rfl, hpre⟩⟩

/-! ## The codes of a Frequency Table -/

/-- R165: the table of a tree of two or more nodes holds the paths of a tree in the arena. -/
theorem codesFromTree_eq_paths {ft : FreqTable} (h : 1 < (buildTree ft).length) :
    ∃ t, ArenaTree (buildTree ft) ((buildTree ft).length - 1) t ∧
      t.symbols.Perm (occurring ft) ∧
      ∀ b c, (codesFromTree (buildTree ft)).code b = some c ↔ (b, c) ∈ t.paths := by
  have hocc : occurring ft ≠ [] := fun hocc => by simp [buildTree_eq_nil hocc] at h
  obtain ⟨t, ht, hsyms⟩ := buildTree_root hocc
  refine ⟨t, ht, hsyms, fun b c => ?_⟩
  rw [codesFromTree, tableOf_code_eq_some (codeAssignments_nodup ft), codeAssignments_eq_paths h ht]

/-- With two symbols there are two leaves. -/
theorem one_lt_buildTree_length {ft : FreqTable} (h : 1 < (occurring ft).length) :
    1 < (buildTree ft).length := by
  have hleaves : (leavesOf ft).length = (occurring ft).length := by
    rw [leavesOf_eq, List.length_map]
  exact (hleaves ▸ h).trans_le (length_le_mergeNodes _ _ _)

/-- R165: the table of no node is empty. -/
theorem codesFromTree_nil_code (b : Byte) : (codesFromTree []).code b = none := by
  rw [codesFromTree, tableOf_code]; rfl

/-- R165: the only leaf's code is `"0"`. -/
theorem codesFromTree_leaf_code (sym : Byte) (f : Word) (b : Byte) :
    (codesFromTree [.leaf sym f]).code b = if b = sym then some [false] else none := by
  rw [codesFromTree, tableOf_code, codeAssignments, List.reverse_singleton, List.lookup_cons]
  by_cases h : b = sym
  · simp [h]
  · simp [h, beq_false_of_ne h]

/-- Codes of a Code Table that begin one string are one symbol's. -/
theorem symbol_eq_of_codes_prefix {ct : CodeTable} (hct : ct.Ok) {b b' : Byte} {c c' bits : Bits}
    (hb : ct.code b = some c) (hb' : ct.code b' = some c') (hc : c <+: bits) (hc' : c' <+: bits) :
    b' = b := by
  by_contra hne
  rcases List.prefix_or_prefix_of_prefix hc hc' with hp | hp
  · exact hct.prefix_free b b' c c' (Ne.symm hne) hb hb' hp
  · exact hct.prefix_free b' b c' c hne hb' hb hp

/-- R166 (d): with two symbols every string of 255 bits begins with a code. -/
theorem exists_code_prefix {ft : FreqTable} (h : 1 < (occurring ft).length) {bits : Bits}
    (hbits : 255 ≤ bits.length) :
    ∃ b c, (codesFromTree (buildTree ft)).code b = some c ∧ c <+: bits := by
  obtain ⟨t, -, hsyms, hcode⟩ := codesFromTree_eq_paths (one_lt_buildTree_length h)
  have hcount := hsyms.length_eq.trans_le (occurring_length_le ft)
  obtain ⟨e, he, hpre⟩ := t.exists_path_prefix (bits := bits) (by omega)
  exact ⟨e.1, e.2, (hcode _ _).mpr he, hpre⟩

/-- R166 (e): the counts do not depend on the order of the bytes. -/
theorem countFreqs_perm {d d' : List Byte} (h : d.Perm d') : countFreqs d = countFreqs d' := by
  simp only [countFreqs, h.count_eq]

/-! ## The command and the obligations -/

theorem exec_hcode (s : State) : exec .hcode s =
    .next { s with ct := codesFromTree s.tr, cur := none, phase := .idle } := rfl

/-- Settles O28: no node, one leaf, or the paths of the tree in the arena. -/
theorem hcodeEmitsTreePaths : Obligations.HcodeEmitsTreePaths := by
  unfold Obligations.HcodeEmitsTreePaths
  refine ⟨by decide, fun s ft hs =>
    ⟨_, exec_hcode s, fun h b => ?_, fun sym f h b => ?_, fun h => ?_⟩⟩
  · rw [h, codesFromTree_nil_code]
  · rw [h, codesFromTree_leaf_code]
  · rw [hs] at h ⊢
    obtain ⟨t, ht, -, hcode⟩ := codesFromTree_eq_paths h
    exact fun b c => (hcode b c).trans (ht.mem_paths_iff b c)

/-- Settles O29: the table is that of the counts of `D`, which are positive for the bytes of `D`; a
string long enough reaches a leaf, and no second code begins it. -/
theorem codesOfABlockArePrefixFree : Obligations.CodesOfABlockArePrefixFree := by
  unfold Obligations.CodesOfABlockArePrefixFree
  refine ⟨fun s t1 t2 t3 hd h1 h2 h3 => ?_, fun d d' h => by rw [countFreqs_perm h]⟩
  have hct : t3.ct = codesFromTree (buildTree (countFreqs s.d)) := by
    rw [exec_hcnt, Host.Outcome.next.injEq] at h1
    rw [exec_htree, Host.Outcome.next.injEq] at h2
    rw [exec_hcode, Host.Outcome.next.injEq] at h3
    subst h1 h2 h3
    rfl
  have hok := codesFromTree_ok (countFreqs s.d)
  have hocc := countFreqs_ne_zero hd
  rw [hct]
  refine ⟨fun b => (codesFromTree_code_ne_none _ b).trans (hocc b), hok,
    fun x hx y hy hxy bits hbits => ?_⟩
  have hmem : [x, y] ⊆ occurring (countFreqs s.d) := by
    simp only [List.cons_subset, List.nil_subset, and_true, mem_occurring, hocc]
    exact ⟨hx, hy⟩
  have htwo : 1 < (occurring (countFreqs s.d)).length :=
    (List.subperm_of_subset (by simpa using hxy) hmem).length_le
  obtain ⟨b, c, hb, hc⟩ := exists_code_prefix htwo hbits
  exact ⟨b, c, hb, hc, fun b' c' hb' hc' => symbol_eq_of_codes_prefix hok hb hb' hc hc'⟩

end Sys2Proof.Machine
end

section
/-! The payload in the terms of its rules: `HENC` packs the codes of `D`, `HDEC` splits a payload
into codes and a rest into which no code runs (R167 to R170, R178). -/

namespace Sys2Proof.Machine

open Sys2Proof.Claims

/-! ## `HENC` (R167, R168) -/

theorem exec_henc (s : State) : exec .henc s = finish .henc s (stageHenc s) := rfl

/-- R168: a byte without a code raises, whatever the payload would be. -/
theorem exec_henc_of_not_coded {s : State} (h : ∃ b ∈ s.d, s.ct.code b = none) :
    exec .henc s = .next (s.raise .codeTableMismatch 0 (some s.seq) .encode) := by
  obtain ⟨b, hb, hnone⟩ := h
  have hall : allCoded s.ct s.d = true → False := fun ha => (allCoded_iff _ _).mp ha b hb hnone
  rcases stageHenc_cases s with ⟨hd, -⟩ | ⟨-, -, he⟩ | ⟨-, ha, -⟩ | ⟨-, ha, -⟩
  · exact absurd hb (hd ▸ List.not_mem_nil)
  · rw [exec_henc, he, finish_raised]
  · exact (hall ha).elim
  · exact (hall ha).elim

/-- R167: with a code for every byte `HENC` writes a payload that fits `P`. -/
theorem exec_henc_of_fits {s : State} (h : allCoded s.ct s.d = true)
    (hfit : (payloadFor s.ct s.d).length ≤ s.cfg.pcap) :
    exec .henc s = .next { s with p := payloadFor s.ct s.d, cur := none, phase := .idle } := by
  rcases stageHenc_of_allCoded h with ⟨-, he⟩ | ⟨hlt, -⟩
  · rw [exec_henc, he, finish_ok]; rfl
  · exact absurd hfit (not_le.mpr hlt)

/-- R167: a payload too long for `P` raises. -/
theorem exec_henc_of_lt {s : State} (h : allCoded s.ct s.d = true)
    (hlt : s.cfg.pcap < (payloadFor s.ct s.d).length) :
    exec .henc s = .next (s.raise .capacityExceeded 0 (some s.seq) .encode) := by
  rcases stageHenc_of_allCoded h with ⟨hfit, -⟩ | ⟨-, he⟩
  · exact absurd hfit (not_le.mpr hlt)
  · rw [exec_henc, he, finish_raised]

/-! ## Splitting a bit string into codes (R169) -/

/-- The matching loop runs through a rest into which no code runs. -/
theorem matchBits_rest {ct : CodeTable} {cur bits : Bits}
    (h : ∀ b c, ct.code b = some c → ¬ c <+: cur ++ bits) (dcap : Nat) (out : List Byte) :
    matchBits ct dcap bits cur out = .done out (cur ++ bits) := by
  induction bits generalizing cur with
  | nil => rw [matchBits, List.append_nil]
  | cons x bits ih =>
    have hnone : ct.symbolOf (cur ++ [x]) = none := symbolOf_eq_none.mpr fun b hb =>
      h b _ hb (List.append_cons cur x bits ▸ List.prefix_append _ _)
    rw [List.append_cons] at h ⊢
    rw [matchBits, hnone]
    exact ih h

/-- The matching loop follows a split: it emits its bytes, or more than `D` holds (R169). -/
theorem matchBits_of_splitsInto {ct : CodeTable} (hct : ct.Ok) {dcap : Nat} {bits rest : Bits}
    {d : List Byte} (h : SplitsInto ct bits d rest) {out : List Byte} (hout : out.length ≤ dcap) :
    matchBits ct dcap bits [] out =
      if dcap < out.length + d.length then .overflow else .done (out ++ d) rest := by
  obtain ⟨hcoded, rfl, hrest⟩ := h
  induction d generalizing out with
  | nil =>
    rw [List.length_nil, if_neg (by omega), List.append_nil]
    exact matchBits_rest (cur := []) hrest dcap out
  | cons b d ih =>
    obtain ⟨hb, hd⟩ := List.forall_mem_cons.mp hcoded
    obtain ⟨c, hc⟩ := Option.ne_none_iff_exists'.mp hb
    have hc0 : c ≠ [] := List.length_pos_iff.mp (hct.length b c hc).1
    rw [List.flatMap_cons, hc, Option.getD_some, List.append_assoc,
      matchBits_code hct (cur := []) hc hc0, List.length_cons]
    by_cases hfull : dcap < out.length + 1
    · rw [if_pos hfull, if_pos (by omega)]
    · have hout' : (out ++ [b]).length ≤ dcap := by
        rw [List.length_append, List.length_singleton]; omega
      rw [if_neg hfull, ih hout' hd, List.length_append, List.length_singleton, List.append_assoc,
        Nat.add_assoc, Nat.add_comm 1]
      rfl

/-- R169: every bit string splits into codes and a rest into which no code runs. -/
theorem exists_splitsInto {ct : CodeTable} (hct : ct.Ok) (bits : Bits) :
    ∃ d rest, SplitsInto ct bits d rest := by
  induction hn : bits.length using Nat.strong_induction_on generalizing bits with
  | _ n ih =>
    by_cases h : ∃ b c, ct.code b = some c ∧ c <+: bits
    · obtain ⟨b, c, hc, tail, rfl⟩ := h
      have hpos := (hct.length b c hc).1
      rw [List.length_append] at hn
      obtain ⟨d, rest, hcoded, rfl, hrest⟩ := ih tail.length (by omega) tail rfl
      refine ⟨b :: d, rest, List.forall_mem_cons.mpr ⟨by simp [hc], hcoded⟩, ?_, hrest⟩
      rw [List.flatMap_cons, hc, Option.getD_some, List.append_assoc]
    · push Not at h
      exact ⟨[], bits, nofun, rfl, h⟩

/-! ## `HDEC` (R169, R170) -/

theorem exec_hdec (s : State) : exec .hdec s = finish .hdec s (stageHdec s) := rfl

/-- R169: an empty payload is that of an empty Block. -/
theorem exec_hdec_of_nil {s : State} (hp : s.p = []) :
    exec .hdec s = .next { s with d := [], cur := none, phase := .idle } := by
  rw [exec_hdec, stageHdec, hp]; rfl

/-- R170: more padding than a byte or than bits. -/
theorem exec_hdec_of_bad_pad {s : State} {pad : Byte} {packed : List Byte}
    (hp : s.p = pad :: packed) (h : payloadBits pad packed = none) :
    exec .hdec s = .next (s.raise .malformedContainer 3 (some s.rseq) .decode) := by
  rw [exec_hdec, stageHdec, hp]
  simp only [h]
  rfl

/-- R169, R170: `HDEC` follows the split of the payload's bits. -/
theorem stageHdec_of_splitsInto {s : State} {pad : Byte} {packed : List Byte} {bits rest : Bits}
    {out : List Byte} (hct : s.ct.Ok) (hp : s.p = pad :: packed)
    (hbits : payloadBits pad packed = some bits) (h : SplitsInto s.ct bits out rest) :
    stageHdec s = if s.cfg.dcap < out.length then
        .raised (s.raise .capacityExceeded 0 (some s.rseq) .decode)
      else if rest = [] then .ok { s with d := out, phase := .decode }
      else .raised (s.raise .malformedContainer 3 (some s.rseq) .decode) := by
  have hmatch := matchBits_of_splitsInto hct (dcap := s.cfg.dcap) h (out := []) (Nat.zero_le _)
  rw [List.length_nil, Nat.zero_add, List.nil_append] at hmatch
  rw [stageHdec, hp]
  simp only [hbits, hmatch]
  by_cases hlong : s.cfg.dcap < out.length
  · rw [if_pos hlong, if_pos hlong]
  · rw [if_neg hlong, if_neg hlong]
    cases rest with
    | nil => rfl
    | cons x rest => rfl

/-- R178 (c): `HDEC` reads back the payload of a Block that fits `D`. -/
theorem exec_hdec_of_payloadFor {s : State} {d : List Byte} (hct : s.ct.Ok)
    (hall : allCoded s.ct d = true) (hlen : d.length ≤ s.cfg.dcap) (hp : s.p = payloadFor s.ct d) :
    exec .hdec s = .next { s with d := d, cur := none, phase := .idle } := by
  rw [exec_hdec, stageHdec_payloadFor hct hall hlen hp, finish_ok]; rfl

/-- R169: the padding is at most 7 bits and all of them are there. -/
theorem payloadBits_eq_some {pad : Byte} {packed : List Byte} (h7 : pad.toNat ≤ 7)
    (hle : pad.toNat ≤ 8 * packed.length) : payloadBits pad packed =
      some ((unpackBits packed).take (8 * packed.length - pad.toNat)) := by
  rw [payloadBits, if_neg (by omega), if_neg (by omega)]

theorem payloadBits_eq_none {pad : Byte} {packed : List Byte}
    (h : 7 < pad.toNat ∨ 8 * packed.length < pad.toNat) : payloadBits pad packed = none := by
  rw [payloadBits]
  split_ifs
  · rfl
  · rfl
  · omega

/-! ## The obligations -/

/-- Settles O30: `D` empty, a byte without a code, or the payload, which fits or not; its bytes are
the codes and the padding packed. -/
theorem hencPacksTheCodes : Obligations.HencPacksTheCodes := by
  unfold Obligations.HencPacksTheCodes
  refine ⟨by decide, fun s => ⟨fun hd => ?_, exec_henc_of_not_coded, ?_⟩⟩
  · have hpayload : payloadFor s.ct s.d = [] := if_pos hd
    rw [exec_henc_of_fits (by rw [hd]; rfl) (by rw [hpayload]; exact Nat.zero_le _), hpayload]
  · rintro bits pad hd hall rfl rfl
    have hpayload : payloadFor s.ct s.d = payloadOf (codeBits s.ct s.d) := if_neg hd
    have hlen := payloadOf_length (codeBits s.ct s.d)
    have hall := (allCoded_iff _ _).mpr hall
    rw [← hpayload] at hlen
    refine ⟨fun hfit => ⟨packBits (codeBits s.ct s.d ++ zeros (padOf (codeBits s.ct s.d).length)),
      ?_, ?_, unpackBits_payload _⟩, fun hlt => exec_henc_of_lt hall (hlt.trans_eq hlen.symm)⟩
    · rw [exec_henc_of_fits hall (hlen.trans_le hfit), hpayload]; rfl
    · rw [packBits_length, List.length_append, zeros_length]; rfl

/-- Settles O31: every bit string splits, and `HDEC` follows the split. -/
theorem hdecSplitsThePayload : Obligations.HdecSplitsThePayload := by
  unfold Obligations.HdecSplitsThePayload
  refine ⟨by decide, fun s hct => ⟨exec_hdec_of_nil, fun pad packed hp => ⟨fun hbad => ?_, ?_⟩⟩⟩
  · exact exec_hdec_of_bad_pad hp (payloadBits_eq_none hbad)
  · intro h7 hle
    obtain ⟨out, rest, h⟩ := exists_splitsInto hct
      ((unpackBits packed).take (8 * packed.length - pad.toNat))
    have hstage := stageHdec_of_splitsInto hct hp (payloadBits_eq_some h7 hle) h
    refine ⟨out, rest, h, fun hlong => ?_, fun hfit hrest => ?_, fun hfit hrest => ?_⟩
    · rw [exec_hdec, hstage, if_pos hlong, finish_raised]
    · rw [exec_hdec, hstage, if_neg hfit.not_gt, if_neg hrest, finish_raised]
    · rw [exec_hdec, hstage, if_neg hfit.not_gt, if_pos hrest, finish_ok]; rfl

/-- Settles O32: a `HENC` that raises nothing has written the payload of `D`, which `HDEC` reads
back. -/
theorem hdecAfterHencRestoresTheBlock : Obligations.HdecAfterHencRestoresTheBlock := by
  unfold Obligations.HdecAfterHencRestoresTheBlock
  intro s t hct hlen _ hexec herr
  have hall : allCoded s.ct s.d = true := by
    rw [allCoded_iff]
    intro b hb hnone
    rw [exec_henc_of_not_coded ⟨b, hb, hnone⟩, Host.Outcome.next.injEq] at hexec
    rw [← hexec] at herr
    cases herr
  have hfit : (payloadFor s.ct s.d).length ≤ s.cfg.pcap := by
    by_contra hlt
    rw [exec_henc_of_lt hall (not_le.mp hlt), Host.Outcome.next.injEq] at hexec
    rw [← hexec] at herr
    cases herr
  rw [exec_henc_of_fits hall hfit, Host.Outcome.next.injEq] at hexec
  subst hexec
  exact exec_hdec_of_payloadFor (d := s.d) hct hall hlen rfl

end Sys2Proof.Machine
end

section
/-! The table region in the terms of its rules: what a region spells is what `CTSER` writes and
`CTDES` reads (R102, R103, R171 to R173, R178). -/

namespace Sys2Proof.Machine

open Sys2Proof.Claims

/-! ## Bytes from their bits (R101) -/

theorem packBits_unpackBits (s : List Byte) : packBits (unpackBits s) = s := by
  induction s with
  | nil => rfl
  | cons b s ih =>
    have hbyte : packByte (b.getLsbD 7) (b.getLsbD 6) (b.getLsbD 5) (b.getLsbD 4) (b.getLsbD 3)
        (b.getLsbD 2) (b.getLsbD 1) (b.getLsbD 0) = b := by
      revert b; decide
    exact congrArg₂ List.cons hbyte ih

/-! ## What a region spells (R102, R103) -/

/-- R102: an entry's code bytes are its code, filled with zeros to whole bytes. -/
theorem entryCode_unique {c : Bits} {code : List Byte}
    (hlen : code.length = ceilDiv c.length 8)
    (h : unpackBits code = c ++ zeros (8 * code.length - c.length)) :
    code = packBits (c ++ zeros (8 * ceilDiv c.length 8 - c.length)) := by
  rw [← hlen, ← h, packBits_unpackBits]

/-- A region spells entries exactly when it is their bytes, and their codes have 1 to 255 bits. -/
theorem spells_iff {bs : List Byte} {es : List (Byte × Bits)} :
    Spells bs es ↔ bs = es.flatMap entryBytes ∧ ∀ e ∈ es, 1 ≤ e.2.length ∧ e.2.length ≤ 255 := by
  induction es generalizing bs with
  | nil => simp [Spells]
  | cons e es ih =>
    obtain ⟨b, c⟩ := e
    rw [List.flatMap_cons, List.forall_mem_cons]
    constructor
    · rintro ⟨code, rest, rfl, h1, h255, hlen, hbits, hrest⟩
      obtain ⟨rfl, hes⟩ := ih.mp hrest
      refine ⟨?_, ⟨h1, h255⟩, hes⟩
      rw [hlen, entryCode_unique hlen hbits]
      rfl
    · rintro ⟨rfl, ⟨h1, h255⟩, hes⟩
      refine ⟨_, es.flatMap entryBytes, ?_, h1, h255, entryCode_length, ?_, ih.mpr ⟨rfl, hes⟩⟩
      · rw [entryCode_length]; rfl
      · rw [unpackBits_entryCode, entryCode_length]; rfl

/-- R173: entries form a table when each symbol stands once and no code begins another. -/
theorem formTable_iff {es : List (Byte × Bits)} :
    FormTable es ↔ (es.map Prod.fst).Nodup ∧ prefixFree es = true := by
  rw [prefixFree_iff, List.Nodup, List.pairwise_map, ← List.pairwise_and_iff]
  rfl

/-! ## Reading a region (R172) -/

/-- Bits of which none is 1 are zeros. -/
theorem eq_zeros_of_not_any {w : Bits} (h : ¬ w.any id = true) : w = zeros w.length := by
  rw [zeros, List.eq_replicate_iff]
  refine ⟨rfl, fun x hx => ?_⟩
  cases x with
  | false => rfl
  | true => exact absurd (List.any_eq_true.mpr ⟨true, hx, rfl⟩) h

/-- The entry that a turn of the loop reads stands at the head of the region as its bytes. -/
theorem cons_eq_entryBytes {b l nb : Byte} {rest : List Byte} (hnb : nb.toNat = ceilDiv l.toNat 8)
    (hrest : nb.toNat ≤ rest.length)
    (hfill : ¬ ((unpackBits (rest.take nb.toNat)).drop l.toNat).any id = true) :
    b :: l :: nb :: rest =
      entryBytes (b, (unpackBits (rest.take nb.toNat)).take l.toNat) ++ rest.drop nb.toNat := by
  have hcode : (rest.take nb.toNat).length = nb.toNat := List.length_take_of_le hrest
  have hbits : (unpackBits (rest.take nb.toNat)).length = 8 * nb.toNat := by
    rw [unpackBits_length, hcode]
  have hlen : ((unpackBits (rest.take nb.toNat)).take l.toNat).length = l.toNat := by
    refine List.length_take_of_le ?_
    rw [hbits, hnb, ceilDiv]; omega
  have hzeros := eq_zeros_of_not_any hfill
  rw [List.length_drop, hbits] at hzeros
  rw [entryBytes, hlen, ← hnb, ← hzeros, List.take_append_drop, packBits_unpackBits,
    BitVec.ofNat_toNat, BitVec.ofNat_toNat]
  simp

/-- R172: a region that is read is the bytes of the entries read from it. -/
theorem eq_flatMap_of_parseEntries {fuel : Nat} {bs : List Byte} {seen es : List (Byte × Bits)}
    (h : parseEntries fuel bs seen = some es) :
    ∃ new, es = seen ++ new ∧ bs = new.flatMap entryBytes := by
  induction fuel, bs, seen using parseEntries.induct with
  | case1 fuel seen =>
    simp only [parseEntries, Option.some.injEq] at h
    exact ⟨[], by rw [h, List.append_nil], rfl⟩
  | case7 fuel b l nb rest seen hl hnb hrest hpad hnew ih =>
    rw [parseEntries, if_neg hl, if_neg hnb, if_neg hrest, if_neg hpad, if_neg hnew] at h
    obtain ⟨new, hes, hbs⟩ := ih h
    refine ⟨(b, (unpackBits (rest.take nb.toNat)).take l.toNat) :: new, ?_, ?_⟩
    · rw [hes, List.append_assoc, List.singleton_append]
    · rw [List.flatMap_cons, ← hbs]
      exact cons_eq_entryBytes (not_not.mp hnb) (not_lt.mp hrest) hpad
  | _ => simp_all [parseEntries]

/-- Every entry takes bytes, so a region has at most as many entries as bytes. -/
theorem length_le_length_flatMap_entryBytes (es : List (Byte × Bits)) :
    es.length ≤ (es.flatMap entryBytes).length := by
  rw [List.length_flatMap, ← List.length_map (fun e => (entryBytes e).length)]
  refine List.length_le_sum_of_one_le _ fun n hn => ?_
  obtain ⟨e, -, rfl⟩ := List.mem_map.mp hn
  rw [entryBytes_length]; omega

/-- R172, R173: exactly the regions that spell a table are read, and as that table. -/
theorem deserializeTable_eq_some_iff {cs : List Byte} {ct : CodeTable} :
    deserializeTable cs = some ct ↔ ∃ es, Spells cs es ∧ FormTable es ∧ ct = tableOf es := by
  constructor
  · intro h
    rw [deserializeTable] at h
    cases hp : parseEntries cs.length cs [] with
    | none => simp [hp] at h
    | some es =>
      simp only [hp] at h
      split_ifs at h with hfree
      obtain ⟨hsymbols, hlen⟩ := parseEntries_ok hp ⟨List.nodup_nil, by simp⟩
      obtain ⟨_, rfl, hbs⟩ := eq_flatMap_of_parseEntries hp
      exact ⟨es, spells_iff.mpr ⟨hbs, hlen⟩, formTable_iff.mpr ⟨hsymbols, hfree⟩,
        (Option.some.inj h).symm⟩
  · rintro ⟨es, hspells, htable, rfl⟩
    obtain ⟨rfl, hlen⟩ := spells_iff.mp hspells
    obtain ⟨hnd, hfree⟩ := formTable_iff.mp htable
    have hparse : parseEntries (es.flatMap entryBytes).length (es.flatMap entryBytes) [] =
        some ([] ++ es) :=
      parseEntries_flatMap (length_le_length_flatMap_entryBytes es) hlen hnd
    rw [deserializeTable, hparse]
    exact if_pos hfree

/-! ## The commands -/

theorem exec_ctser (s : State) : exec .ctser s =
    .next { s with cs := serializeTable s.ct, cur := none, phase := .idle } := rfl

theorem exec_ctdes (s : State) : exec .ctdes s = finish .ctdes s (stageCtdes s) := rfl

/-- R172: `CTDES` holds the table that the region spells. -/
theorem exec_ctdes_of_some {s : State} {ct : CodeTable} (h : deserializeTable s.cs = some ct) :
    exec .ctdes s = .next { s with ct := ct, cur := none, phase := .idle } := by
  rw [exec_ctdes, stageCtdes, h]; rfl

/-- R173: a region that spells no table raises. -/
theorem exec_ctdes_of_none {s : State} (h : deserializeTable s.cs = none) :
    exec .ctdes s = .next (s.raise .malformedContainer 2 (some s.rseq) .decode) := by
  rw [exec_ctdes, stageCtdes, h]; rfl

/-! ## The obligations -/

/-- Settles O33: `CS` becomes the bytes of the table's entries. -/
theorem ctserWritesAscendingEntries : Obligations.CtserWritesAscendingEntries := by
  unfold Obligations.CtserWritesAscendingEntries
  exact ⟨by decide, fun s hct => ⟨_, s.ct.entries, exec_ctser s,
    spells_iff.mpr ⟨rfl, entries_code_length hct⟩, entries_sorted s.ct, mem_entries s.ct,
    serializeTable_length_le hct⟩⟩

/-- Settles O34: `CTDES` answers as `deserializeTable` does. -/
theorem ctdesAcceptsExactlyTables : Obligations.CtdesAcceptsExactlyTables := by
  unfold Obligations.CtdesAcceptsExactlyTables
  refine ⟨by decide, fun s => ⟨fun es hspells htable => ?_, fun hno => exec_ctdes_of_none ?_⟩⟩
  · obtain ⟨hnd, -⟩ := formTable_iff.mp htable
    have hread := deserializeTable_eq_some_iff.mpr ⟨es, hspells, htable, rfl⟩
    exact ⟨tableOf es, exec_ctdes_of_some hread, fun b c => tableOf_code_eq_some hnd⟩
  · refine Option.eq_none_iff_forall_ne_some.mpr fun ct hread => hno ?_
    obtain ⟨es, hspells, htable, -⟩ := deserializeTable_eq_some_iff.mp hread
    exact ⟨es, hspells, htable⟩

/-- Settles O35: the region of a Code Table spells that table. -/
theorem ctdesAfterCtserRestoresTheTable : Obligations.CtdesAfterCtserRestoresTheTable := by
  unfold Obligations.CtdesAfterCtserRestoresTheTable
  intro s t hct h
  rw [exec_ctser, Host.Outcome.next.injEq] at h
  subst h
  exact exec_ctdes_of_some (ct := s.ct) (deserializeTable_serializeTable hct)

end Sys2Proof.Machine
end

section
/-! The Container Codec, the Block Splitter and the raw store in the terms of their rules (R200 to
R206), and the reassembly store as the set of its pairs (R207). -/

namespace Sys2Proof.Machine

/-! ## A canonical store is the set of its pairs (R42, R207) -/

theorem Store.nodup {m : Store} (h : m.wf = true) : m.Nodup :=
  ((Store.wf_iff m).mp h).imp fun {e e'} hlt (heq : e = e') =>
    Nat.ne_of_lt hlt (congrArg (·.1.toNat) heq)

/-- The order of a canonical store is that of its keys, so it is determined. -/
theorem Store.eq_of_perm {m m' : Store} (h : m.wf = true) (h' : m'.wf = true) (hp : m.Perm m') :
    m = m' :=
  hp.eq_of_pairwise (fun _ _ _ _ hlt hlt' => absurd hlt' (Nat.lt_asymm hlt))
    ((Store.wf_iff m).mp h) ((Store.wf_iff m').mp h')

theorem Store.lookup_eq_some_iff_mem {m : Store} (h : m.wf = true) {k : Word} {v : List Byte} :
    m.lookup k = some v ↔ (k, v) ∈ m := by
  constructor
  · intro hk
    obtain ⟨before, after, rfl, -⟩ := List.lookup_eq_some_iff.mp hk
    simp
  · intro hmem
    obtain ⟨before, after, rfl⟩ := List.mem_iff_append.mp hmem
    obtain ⟨-, -, hlt⟩ := List.pairwise_append.mp ((Store.wf_iff _).mp h)
    refine List.lookup_eq_some_iff.mpr ⟨before, after, rfl, fun e he => ?_⟩
    have hlow := hlt e he (k, v) List.mem_cons_self
    exact bne_iff_ne.mpr fun heq => Nat.ne_of_lt hlow (by rw [heq])

/-- A canonical store is determined by what it answers under each key. -/
theorem Store.eq_of_lookup {m m' : Store} (h : m.wf = true) (h' : m'.wf = true)
    (hlookup : ∀ k, m.lookup k = m'.lookup k) : m = m' := by
  refine Store.eq_of_perm h h'
    ((List.perm_ext_iff_of_nodup (Store.nodup h) (Store.nodup h')).mpr ?_)
  rintro ⟨k, v⟩
  rw [← Store.lookup_eq_some_iff_mem h, ← Store.lookup_eq_some_iff_mem h', hlookup]

/-- Settles O42: both stores are canonical and answer alike under every key. -/
theorem collectOrderDoesNotMatter : Obligations.CollectOrderDoesNotMatter := by
  unfold Obligations.CollectOrderDoesNotMatter
  intro m k1 k2 v1 v2 hm hne
  refine Store.eq_of_lookup (Store.insert_wf _ _ _ (Store.insert_wf _ _ _ hm))
    (Store.insert_wf _ _ _ (Store.insert_wf _ _ _ hm)) fun k => ?_
  simp only [Store.lookup_insert]
  split_ifs with h1 h2
  · exact absurd (h1.symm.trans h2) hne
  all_goals rfl

/-! ## The commands -/

theorem exec_ldblk (s : State) : exec .ldblk s = finish .ldblk s (stageLdblk s) := rfl

theorem exec_frame (s : State) : exec .frame s = finish .frame s (stageFrame s) := rfl

theorem exec_deframe (s : State) : exec .deframe s = finish .deframe s (stageDeframe s) := rfl

theorem exec_collect (s : State) : exec .collect s = finish .collect s (stageCollect s) := rfl

theorem exec_concat (s : State) : exec .concat s = .next { s with
    rs := []
    out := s.out ++ s.rs.concat
    outCnt := s.outCnt + BitVec.ofNat 32 s.rs.concat.length
    cur := none, phase := .idle } := rfl

theorem exec_std (s : State) : exec .std s = .next { s with
    out := s.out ++ s.d
    outCnt := s.outCnt + BitVec.ofNat 32 s.d.length
    cur := none, phase := .idle } := rfl

/-! ## Reassembly (R205, R206) -/

theorem Store.has_eq_false_iff (m : Store) (k : Word) : m.has k = false ↔ m.lookup k = none := by
  rw [← Bool.not_eq_true, Store.has_iff, not_not]

/-- R205: a present key is met before a full store. -/
theorem stageCollect_of_present {s : State} (h : s.rs.lookup s.rseq ≠ none) :
    stageCollect s = .raised (s.raise .malformedContainer 5 (some s.rseq) .concat) :=
  if_pos ((Store.has_iff _ _).mpr h)

theorem stageCollect_of_full {s : State} (hnew : s.rs.lookup s.rseq = none)
    (hfull : s.cfg.rsBlocks < s.rs.length + 1 ∨ s.cfg.rsBytes < s.rs.bytes + s.d.length) :
    stageCollect s = .raised (s.raise .capacityExceeded 0 (some s.rseq) .concat) := by
  rw [stageCollect, (Store.has_eq_false_iff _ _).mpr hnew, if_neg Bool.false_ne_true, storeFull,
    if_pos (decide_eq_true hfull)]

/-- Settles O40: the three outcomes of the stage; what the store then holds is what was inserted. -/
theorem collectStoresUnderItsKey : Obligations.CollectStoresUnderItsKey := by
  unfold Obligations.CollectStoresUnderItsKey
  refine ⟨by decide, fun s hwf => ⟨fun hold => ?_, fun hnew hfull => ?_,
    fun hnew hblocks hbytes => ?_⟩⟩
  · rw [exec_collect, stageCollect_of_present hold, finish_raised]
  · rw [exec_collect, stageCollect_of_full hnew hfull, finish_raised]
  · obtain ⟨hlen, -⟩ :=
      Store.insert_size s.rs s.rseq s.d ((Store.has_eq_false_iff _ _).mpr hnew)
    refine ⟨Store.insert s.rseq s.d s.rs, ?_, Store.insert_wf _ _ _ hwf, hlen,
      Store.lookup_insert _ _ _⟩
    rw [exec_collect, stageCollect_of_room hnew hblocks hbytes, finish_ok]
    rfl

/-- Settles O41: the only ascending order of the pairs is the store's own. -/
theorem concatPushesInKeyOrder : Obligations.ConcatPushesInKeyOrder := by
  unfold Obligations.ConcatPushesInKeyOrder
  refine ⟨by decide, fun s es hwf hperm hasc => ?_⟩
  obtain rfl : es = s.rs := Store.eq_of_perm ((Store.wf_iff es).mpr hasc) hwf hperm
  exact exec_concat s

/-! ## Records (R202, R203) -/

/-- Settles O36: `FRAME` raises once the numbers are used up, and before that pushes its record. -/
theorem frameWritesOneRecord : Obligations.FrameWritesOneRecord := by
  unfold Obligations.FrameWritesOneRecord
  refine ⟨by decide, fun s => ?_⟩
  have hlen : s.record.length = 16 + 4 * s.rt.length + s.cs.length + s.p.length :=
    recordBytes_length s.seq s.rt s.cs s.p
  rcases stageFrame_cases s with ⟨hnum, hst⟩ | ⟨hused, hst⟩
  · refine ⟨fun h => absurd (hnum.symm.trans h) nofun, fun _ => ⟨s.record, ?_, rfl, hlen⟩⟩
    rw [exec_frame, hst, finish_ok, ← hlen]
    rfl
  · refine ⟨fun _ => ?_, fun h => absurd (hused.symm.trans h) nofun⟩
    rw [exec_frame, hst, finish_raised]

theorem deframeOutcome_of_incomplete {s : State} {seq : Option Word}
    (h : parseRecord s.cfg s.inp = .incomplete seq) :
    deframeOutcome s =
      if s.eoi then if s.inp = [] then .endOfContainer else .truncated seq else .wait := by
  rw [deframeOutcome, h]

/-- Settles O37: the verdict and the end of the input give the outcome, the outcome the stage. -/
theorem deframeTakesItsOutcome : Obligations.DeframeTakesItsOutcome := by
  unfold Obligations.DeframeTakesItsOutcome
  refine ⟨by decide, fun s => ⟨fun seq rt cs p len h => ?_, fun seq h => ?_, fun seq h =>
    ⟨fun heoi hin => ?_, fun heoi hin => ?_, fun heoi => ?_⟩⟩⟩
  · have hout : deframeOutcome s = .record seq rt cs p len := by rw [deframeOutcome, h]
    rw [exec_deframe, stageDeframe, hout]
    rfl
  · have hout : deframeOutcome s = .oversize seq := by rw [deframeOutcome, h]
    rw [exec_deframe, stageDeframe, hout]
    rfl
  · rw [exec_deframe, stageDeframe, deframeOutcome_of_incomplete h, if_pos heoi, if_pos hin]
    rfl
  · rw [exec_deframe, stageDeframe, deframeOutcome_of_incomplete h, if_pos heoi, if_neg hin]
    rfl
  · rw [exec_deframe, stageDeframe, deframeOutcome_of_incomplete h,
      if_neg (Bool.eq_false_iff.mp heoi)]
    rfl

/-! ## Blocks (R200, R201) -/

/-- Settles O16: `LDBLK` takes a Block when its enabling condition holds, else it is held. -/
theorem ldblkTakesOneBlock : Obligations.LdblkTakesOneBlock := by
  unfold Obligations.LdblkTakesOneBlock
  refine ⟨by decide, fun s => ⟨fun h => ?_, fun hshort heoi => ?_⟩⟩
  · rcases stageLdblk_cases s with ⟨-, hst⟩ | ⟨hnot, -⟩
    · rw [exec_ldblk, hst]
      rfl
    · exact absurd (hnot.symm.trans ((blockReady_iff s).mpr h)) nofun
  · have hnot : ¬ blockReady s = true := by
      rw [blockReady_iff, heoi]
      simpa using hshort
    rw [exec_ldblk, stageLdblk, if_neg hnot]
    rfl

/-- Settles O17: the stage of `STD` is one push. -/
theorem stdPushesTheBuffer : Obligations.StdPushesTheBuffer := by
  unfold Obligations.StdPushesTheBuffer
  exact ⟨by decide, exec_std⟩

end Sys2Proof.Machine
end

section
/-! `COMP` on an ended input takes all of it, Block by Block (R208, R233). -/

namespace Sys2Proof.Machine

open Sys2Proof.Claims

/-! ## Runs of the core -/

theorem run_succ_of_step {s t : State} (h : step s = .next t) (k : Nat) :
    Host.Core.run Sys2Proof.core (k + 1) s = Host.Core.run Sys2Proof.core k t := by
  replace h : Sys2Proof.core.step s = .next t := h
  simp only [Host.Core.run, h]

/-- A run depends on its first state only through the first step. -/
theorem run_succ_congr {s t : State} (h : step s = step t) (k : Nat) :
    Host.Core.run Sys2Proof.core (k + 1) s = Host.Core.run Sys2Proof.core (k + 1) t := by
  replace h : Sys2Proof.core.step s = Sys2Proof.core.step t := h
  simp only [Host.Core.run, h]

/-- R277: with nothing in execution and nothing queued a run changes nothing. -/
theorem run_of_idle {s : State} (hcur : s.cur = none) (hq : s.cmdq = []) (k : Nat) :
    Host.Core.run Sys2Proof.core k s = .next s := by
  have hstep : step s = .next s := by rw [step, State.advance, hcur, hq]
  induction k with
  | zero => rfl
  | succ k ih => rw [run_succ_of_step hstep, ih]

/-- R236: a command in execution goes on. -/
theorem step_of_cur {s : State} {i : Instr} (hcur : s.cur = some i) (herr : s.err = false) :
    step s = exec i s := by
  simp [step, State.advance, hcur, State.continueCommand, herr]

/-! ## One pass of `COMP` (R233) -/

theorem exec_comp_of_used_up {s : State} (heoi : s.eoi = true) (hin : s.inp = []) :
    exec .comp s = .next s.endCommand := by
  have hready : blockReady s = true := (blockReady_iff s).mpr (.inr heoi)
  have hnone : s.inAvail = 0 := by rw [State.inAvail, hin, List.length_nil]
  rw [exec, execComp, if_pos hready, if_pos hnone]

/-- With input left a pass compresses the next Block and `COMP` stays in execution, or it ends in an
error with the queue as it was. -/
theorem exec_comp_pass_cases {s : State} (heoi : s.eoi = true) (hin : s.inp ≠ []) :
    exec .comp s = .next ((compressed s).holdAt .comp .split) ∨
    ∃ t, exec .comp s = .next t ∧ t.err = true ∧ t.cur = none ∧ t.cmdq = s.cmdq := by
  have hready : blockReady s = true := (blockReady_iff s).mpr (.inr heoi)
  have hsome : ¬ s.inAvail = 0 := by rwa [State.inAvail, List.length_eq_zero_iff]
  have hwithin := stagesCblk_within s
  rw [exec, execComp, if_pos hready, if_neg hsome]
  rcases stagesCblk_of_ready hready with ⟨-, hst⟩ | ⟨_, _, _, _, -, -, hst⟩ <;>
    rw [hst] at hwithin ⊢
  · exact .inl rfl
  · obtain ⟨v, e, sub, q, p, hv, -, hraise⟩ := hwithin
    exact .inr ⟨_, rfl, rfl, rfl, by rw [hraise]; exact hv.cmdq⟩

/-! ## The loop of `COMP` (R208) -/

/-- A Block of `b` bytes, or the rest of the input, is one of the Blocks of the input. -/
theorem ceilDiv_eq_succ {n b : Nat} (hb : 1 ≤ b) (hn : 1 ≤ n) :
    ceilDiv n b = ceilDiv (n - min b n) b + 1 := by
  have hsum : n + b - 1 = n - 1 + b := by omega
  rw [ceilDiv, ceilDiv, hsum, Nat.add_div_right _ hb]
  rcases Nat.le_total b n with hle | hle
  · have hrest : n - min b n + b - 1 = n - 1 := by omega
    rw [hrest]
  · rw [Nat.div_eq_of_lt (by omega), Nat.div_eq_of_lt (by omega)]

/-- `COMP`, in execution in `s`, has ended in `t` after `k` Blocks: the input is used up, its bytes
and the records are counted. -/
structure CompEnded (s : State) (k : Nat) (t : State) : Prop where
  cur : t.cur = none
  cmdq : t.cmdq = []
  phase : t.phase = .idle
  inp : t.inp = []
  seq : t.seq = s.seq + BitVec.ofNat 32 k
  inCnt : t.inCnt = s.inCnt + BitVec.ofNat 32 s.inp.length

theorem CompEnded.endCommand {s : State} (hq : s.cmdq = []) (hin : s.inp = []) :
    CompEnded s 0 s.endCommand where
  cur := rfl
  cmdq := hq
  phase := rfl
  inp := hin
  seq := (BitVec.add_zero s.seq).symm
  inCnt := by rw [hin]; exact (BitVec.add_zero s.inCnt).symm

/-- R30: modulo `2 ^ 32` the number always grows by one. -/
theorem compressed_seq (s : State) : (compressed s).seq = s.seq + 1 := by
  change (if s.seq = 0xFFFFFFFF#32 then 0 else s.seq + 1) = s.seq + 1
  split_ifs with h
  · rw [h]; rfl
  · rfl

theorem compressed_inp_length (s : State) :
    (compressed s).inp.length = s.inp.length - min s.blkSize.toNat s.inp.length := by
  rw [← nextBlock_length]
  exact List.length_drop

/-- What `COMP` counts after a pass, together with what the pass counted. -/
theorem CompEnded.of_pass {s t : State} {k : Nat}
    (h : CompEnded ((compressed s).holdAt .comp .split) k t) : CompEnded s (k + 1) t where
  cur := h.cur
  cmdq := h.cmdq
  phase := h.phase
  inp := h.inp
  seq := by
    rw [h.seq, State.holdAt_seq, compressed_seq, Nat.add_comm k 1, BitVec.ofNat_add,
      BitVec.add_assoc]
    rfl
  inCnt := by
    have hinCnt : (compressed s).inCnt = s.inCnt + BitVec.ofNat 32 (nextBlock s).length := rfl
    have hsum : (nextBlock s).length + (compressed s).inp.length = s.inp.length := by
      rw [compressed_inp_length, nextBlock_length]; omega
    rw [h.inCnt, State.holdAt_inCnt, State.holdAt_inp, hinCnt, BitVec.add_assoc, ← BitVec.ofNat_add,
      hsum]

/-- The loop, by the number of Blocks left. -/
theorem run_comp {k : Nat} {s : State} (hcur : s.cur = some .comp) (herr : s.err = false)
    (heoi : s.eoi = true) (hq : s.cmdq = []) (hblk : 1 ≤ s.blkSize.toNat)
    (hk : k = ceilDiv s.inp.length s.blkSize.toNat) :
    ∃ t, Host.Core.run Sys2Proof.core (k + 1) s = .next t ∧ (t.err = true ∨ CompEnded s k t) := by
  have hstep := step_of_cur hcur herr
  induction k generalizing s with
  | zero =>
    have hin : s.inp = [] := by
      by_contra hne
      have := ceilDiv_eq_succ hblk (List.length_pos_iff.mpr hne)
      omega
    rw [exec_comp_of_used_up heoi hin] at hstep
    exact ⟨_, run_succ_of_step hstep 0, .inr (.endCommand hq hin)⟩
  | succ k ih =>
    have hin : s.inp ≠ [] := by
      intro hnil
      rw [hnil, ceilDiv, List.length_nil, Nat.div_eq_of_lt (by omega)] at hk
      cases hk
    rcases exec_comp_pass_cases heoi hin with hpass | ⟨t, hraise, hterr, htcur, htq⟩
    · have hrest : k = ceilDiv (compressed s).inp.length s.blkSize.toNat := by
        have := ceilDiv_eq_succ hblk (List.length_pos_iff.mpr hin)
        rw [compressed_inp_length]; omega
      obtain ⟨t, hrun, ht⟩ := ih (s := (compressed s).holdAt .comp .split) rfl herr heoi hq hblk
        hrest (step_of_cur rfl herr)
      rw [hpass] at hstep
      exact ⟨t, (run_succ_of_step hstep _).trans hrun, ht.imp_right .of_pass⟩
    · rw [hraise] at hstep
      exact ⟨t, (run_succ_of_step hstep _).trans (run_of_idle htcur (htq.trans hq) _), .inl hterr⟩

/-- Settles O49: the step that takes `COMP` from the queue is its first pass. -/
theorem compConsumesTheWholeInput : Obligations.CompConsumesTheWholeInput := by
  unfold Obligations.CompConsumesTheWholeInput
  intro s k hcur herr heoi hq hblk hk
  have hdec : decode s.cfg 0x62000000 = .command .comp :=
    (decodeAndEncodeAgree _ _ _).mpr ⟨rfl, by decide⟩
  have htake : step s = step (s.fetch [] .comp) :=
    (stepRunsTheDecodedCommand s _ [] .comp hcur herr hq hdec).trans
      (step_of_cur (s := s.fetch [] .comp) rfl herr).symm
  obtain ⟨t, hrun, ht⟩ := run_comp (s := s.fetch [] .comp) rfl herr heoi rfl hblk hk
  exact ⟨t, (run_succ_congr htake k).trans hrun, ht.imp_right fun h =>
    ⟨h.cur, h.cmdq, h.phase, h.inp, h.seq, h.inCnt⟩⟩

end Sys2Proof.Machine
end

section
/-! The Pipeline Orchestrator: `CBLK` and `DBLK` are their stage commands one by one, and a pass of
`COMP` or `DECOMP` is one `CBLK` or `DBLK` (R231 to R236). -/

namespace Sys2Proof.Machine

open Sys2Proof.Claims

/-! ## `CBLK` and `DBLK` of one Block (R231, R232) -/

theorem exec_cblk (s : State) : exec .cblk s = finish .cblk s (stagesCblk s) := rfl

theorem exec_dblk (s : State) : exec .dblk s = finish .dblk s (stagesDblk s) := rfl

theorem blockReady_eq_false {s : State} (hshort : s.inp.length < s.blkSize.toNat)
    (heoi : s.eoi = false) : blockReady s = false := by
  rw [← Bool.not_eq_true, blockReady_iff, heoi]
  simpa using hshort

/-- R298: on a Block `CBLK` does not wait. -/
theorem stagesCblk_ne_held {s : State} (h : blockReady s = true) (p : Phase) :
    stagesCblk s ≠ .held p := by
  rcases stagesCblk_of_ready h with ⟨-, hst⟩ | ⟨_, _, _, _, -, -, hst⟩ <;> rw [hst] <;> nofun

/-- Settles O43: no stage of `CBLK` finds an error, so all nine have been run. -/
theorem cblkCompressesOneBlock : Obligations.CblkCompressesOneBlock := by
  unfold Obligations.CblkCompressesOneBlock
  intro s hready hrt hp hnum
  rw [chunkCount_eq_nch] at hrt
  have herror : blockError s = none := by
    rw [blockError, if_neg (Nat.not_lt.mpr hrt), if_neg (Nat.not_lt.mpr hp), hnum]; rfl
  rcases stagesCblk_of_ready ((blockReady_iff s).mpr hready) with ⟨-, hst⟩ | ⟨_, _, _, _, hsome, -⟩
  · rw [exec_cblk, hst]; rfl
  · cases herror.symm.trans hsome

/-- Settles O46: `exec_dblk_record`, whose premise on the ranks is `allCoded`. -/
theorem dblkDecodesOneRecord : Obligations.DblkDecodesOneRecord := by
  unfold Obligations.DblkDecodesOneRecord
  intro s seq rt ct ranks tail hcfg hchk hct hall hranks hrt hp hin hfits hnew hblocks hbytes
  exact exec_dblk_record hcfg hchk hct ((allCoded_iff ct ranks).mpr hall) hranks hrt hp hin hfits
    hnew hblocks hbytes

/-! ## Stages do not see the sequencer

A stage command, and the same stage in a command of several stages, run on states that differ in
`CMDQ`, `CUR` and `PHASE`; they end alike, up to these. -/

/-- The state with other contents of `CMDQ`, `CUR` and `PHASE`. -/
def State.placed (q : List Word) (c : Option Instr) (p : Phase) (s : State) : State :=
  { s with cmdq := q, cur := c, phase := p }

/-- The end of stages that were begun with other contents of `CMDQ` and `CUR`; an error has emptied
`CUR`. -/
def StageEnd.placed (q : List Word) (c : Option Instr) : StageEnd → StageEnd
  | .ok t => .ok { t with cmdq := q, cur := c }
  | .raised t => .raised { t with cmdq := q }
  | .held p => .held p

section
variable (s : State) (q : List Word) (c : Option Instr) (p : Phase)

theorem stageLdblk_placed : stageLdblk (s.placed q c p) = (stageLdblk s).placed q c := by
  simp only [stageLdblk, apply_ite (StageEnd.placed q c)]
  rfl

theorem stageRot_placed : stageRot (s.placed q c p) = (stageRot s).placed q c := by
  simp only [stageRot, apply_ite (StageEnd.placed q c)]
  rfl

theorem stageUnrot_placed : stageUnrot (s.placed q c p) = (stageUnrot s).placed q c := by
  simp only [stageUnrot, apply_ite (StageEnd.placed q c)]
  rfl

theorem stageHenc_placed : stageHenc (s.placed q c p) = (stageHenc s).placed q c := by
  simp only [stageHenc, apply_ite (StageEnd.placed q c)]
  rfl

theorem stageHdec_placed : stageHdec (s.placed q c p) = (stageHdec s).placed q c := by
  simp only [stageHdec, State.placed]
  split
  · rfl
  · split
    · rfl
    · split <;> rfl

theorem stageCtdes_placed : stageCtdes (s.placed q c p) = (stageCtdes s).placed q c := by
  simp only [stageCtdes, State.placed]
  split <;> rfl

theorem stageFrame_placed : stageFrame (s.placed q c p) = (stageFrame s).placed q c := by
  simp only [stageFrame, countRecord_eq, apply_ite (StageEnd.placed q c)]
  rfl

theorem stageDeframe_placed : stageDeframe (s.placed q c p) = (stageDeframe s).placed q c := by
  have hsame : deframeOutcome (s.placed q c p) = deframeOutcome s := rfl
  rw [stageDeframe, stageDeframe, hsame]
  cases deframeOutcome s <;> rfl

theorem stageCollect_placed : stageCollect (s.placed q c p) = (stageCollect s).placed q c := by
  simp only [stageCollect, apply_ite (StageEnd.placed q c)]
  rfl

end

/-! ## Stage commands -/

section
variable {j : Instr} (hj : stagePhase j ≠ .idle)
include hj

theorem stagesOf_placed (s : State) (q : List Word) (c : Option Instr) (p : Phase) :
    stagesOf j (s.placed q c p) = (stagesOf j s).placed q c := by
  cases j with
  | nop | setbs | setcs | srst | cblk | dblk | comp | decomp => exact absurd rfl hj
  | std | mtfe | mtfd | hcnt | htree | hcode | ctser | concat => rfl
  | ldblk => exact stageLdblk_placed s q c p
  | rot => exact stageRot_placed s q c p
  | unrot => exact stageUnrot_placed s q c p
  | henc => exact stageHenc_placed s q c p
  | hdec => exact stageHdec_placed s q c p
  | ctdes => exact stageCtdes_placed s q c p
  | frame => exact stageFrame_placed s q c p
  | deframe => exact stageDeframe_placed s q c p
  | collect => exact stageCollect_placed s q c p

theorem exec_of_stage (s : State) : exec j s = finish j s (stagesOf j s) := by
  cases j with
  | nop | setbs | setcs | srst | cblk | dblk | comp | decomp => exact absurd rfl hj
  | _ => rfl

theorem wf_of_stage (cfg : Config) : j.wf cfg = true := by
  cases j with
  | setbs | setcs => exact absurd rfl hj
  | _ => rfl

theorem ne_srst_of_stage : j ≠ .srst := fun h => hj (h ▸ rfl)

end

/-! ## The step on a command's word -/

section
variable {s : State} {i : Instr} (hcur : s.cur = none) (hwf : i.wf s.cfg = true) (q : List Word)
include hcur hwf

/-- R21, R71: without error the command is executed. -/
theorem step_of_word (herr : s.err = false) :
    step { s with cmdq := encode i :: q } = exec i (s.fetch q i) :=
  stepRunsTheDecodedCommand { s with cmdq := encode i :: q } _ q i hcur herr rfl
    ((decodeAndEncodeAgree _ _ _).mpr ⟨hwf, rfl⟩)

/-- R268: in the error state a command other than `SRST` is removed without effect. -/
theorem step_of_word_discarded (herr : s.err = true) (hi : i ≠ .srst) :
    step { s with cmdq := encode i :: q } = .next { s with cmdq := q } := by
  have hdec : decode s.cfg (encode i) = .command i := (decodeAndEncodeAgree _ _ _).mpr ⟨hwf, rfl⟩
  simp [step, State.advance, hcur, State.takeWord, hdec, herr, hi]

end

/-! ## Stages one after another -/

/-- The stages of the commands `js` after stages that ended as `r`. -/
def inTurn (js : List Instr) (r : StageEnd) : StageEnd :=
  js.foldl (fun r j => r.andThen (stagesOf j)) r

theorem inTurn_cons (j : Instr) (js : List Instr) (r : StageEnd) :
    inTurn (j :: js) r = inTurn js (r.andThen (stagesOf j)) := rfl

theorem inTurn_held (js : List Instr) (p : Phase) : inTurn js (.held p) = .held p := by
  induction js with
  | nil => rfl
  | cons j js ih => rw [inTurn_cons, andThen_held, ih]

theorem inTurn_placed {js : List Instr} (hjs : ∀ j ∈ js, stagePhase j ≠ .idle) (r : StageEnd)
    (q : List Word) (c : Option Instr) :
    inTurn js (r.placed q c) = (inTurn js r).placed q c := by
  induction js generalizing r with
  | nil => rfl
  | cons j js ih =>
    obtain ⟨hj, hjs⟩ := List.forall_mem_cons.mp hjs
    have hstep : (r.placed q c).andThen (stagesOf j) = (r.andThen (stagesOf j)).placed q c := by
      cases r with
      | ok t => exact stagesOf_placed hj t q c t.phase
      | raised t | held p => rfl
    rw [inTurn_cons, hstep, ih hjs, inTurn_cons]

theorem inTurn_all {I : State → Prop} {js : List Instr} {r : StageEnd}
    (hjs : ∀ j ∈ js, Keeps I (stagesOf j)) (hr : r.All I) : (inTurn js r).All I := by
  induction js generalizing r with
  | nil => exact hr
  | cons j js ih =>
    obtain ⟨hj, hjs⟩ := List.forall_mem_cons.mp hjs
    exact ih hjs (hr.andThen hj fun _ => id)

/-- Only the first of the stages can wait (R298). -/
theorem inTurn_ne_held {js : List Instr} {r : StageEnd} (hr : ∀ p, r ≠ .held p)
    (hjs : ∀ j ∈ js, stagePhase j ≠ .idle ∧ waitPhase j = none) : ∀ p, inTurn js r ≠ .held p := by
  induction js generalizing r with
  | nil => exact hr
  | cons j js ih =>
    obtain ⟨⟨hj, hwait⟩, hjs⟩ := List.forall_mem_cons.mp hjs
    refine ih (fun p hp => ?_) hjs
    rcases andThen_eq_held.mp hp with hheld | ⟨s, -, hheld⟩
    · exact hr p hheld
    · have hw := stagesOf_within (ne_srst_of_stage hj) s
      rw [hheld] at hw
      cases hwait.symm.trans hw

/-! ## Stage commands one after another (R231, R232) -/

/-- After commands whose stages together ended as `r`, the core is idle in `u`, with or without
error, and has the words `q` before it. -/
inductive Leaves (q : List Word) : StageEnd → State → Prop
  | ended (t : State) (herr : t.err = false) : Leaves q (.ok t) { t.endCommand with cmdq := q }
  | failed (t : State) (herr : t.err = true) (hcur : t.cur = none) :
      Leaves q (.raised t) { t with cmdq := q }

/-- One stage command more: it runs its stage, or it is discarded. -/
theorem leaves_step {j : Instr} {q : List Word} {r : StageEnd} {u : State}
    (h : Leaves (encode j :: q) r u) (hj : stagePhase j ≠ .idle)
    (hheld : ∀ p, r.andThen (stagesOf j) ≠ .held p) :
    ∃ v, step u = .next v ∧ Leaves q (r.andThen (stagesOf j)) v := by
  cases h with
  | ended t herr =>
    have hstep : step { t.endCommand with cmdq := encode j :: q } =
        finish j (t.fetch q j) ((stagesOf j t).placed q (some j)) := by
      rw [step_of_word (s := t.endCommand) rfl (wf_of_stage hj _) q herr, exec_of_stage hj]
      exact congrArg _ (stagesOf_placed hj t q (some j) .idle)
    have hw := stagesOf_within (ne_srst_of_stage hj) t
    rw [andThen_ok] at hheld ⊢
    rw [hstep]
    cases hst : stagesOf j t with
    | ok w => rw [hst] at hw; exact ⟨_, rfl, .ended w (hw.err.trans herr)⟩
    | raised w =>
      rw [hst] at hw
      obtain ⟨v, e, sub, seq, p, -, -, rfl⟩ := hw
      exact ⟨_, rfl, .failed _ rfl rfl⟩
    | held p => exact absurd hst (hheld p)
  | failed t herr hcur =>
    exact ⟨_, step_of_word_discarded hcur (wf_of_stage hj _) q herr (ne_srst_of_stage hj),
      .failed t herr hcur⟩

theorem leaves_run {js : List Instr} {rest : List Word} {r : StageEnd} {u : State}
    (h : Leaves (js.map encode ++ rest) r u) (hjs : ∀ j ∈ js, stagePhase j ≠ .idle)
    (hheld : ∀ p, inTurn js r ≠ .held p) :
    ∃ v, Host.Core.run Sys2Proof.core js.length u = .next v ∧ Leaves rest (inTurn js r) v := by
  induction js generalizing r u with
  | nil => exact ⟨u, rfl, h⟩
  | cons j js ih =>
    obtain ⟨hj, hjs⟩ := List.forall_mem_cons.mp hjs
    obtain ⟨v, hstep, hv⟩ := leaves_step h hj fun p hp =>
      hheld p (by rw [inTurn_cons, hp, inTurn_held])
    obtain ⟨w, hrun, hw⟩ := ih hv hjs hheld
    exact ⟨w, (run_succ_of_step hstep _).trans hrun, hw⟩

/-- One command of all these stages leaves the same state. -/
theorem finish_of_leaves {q : List Word} {r : StageEnd} {u : State} (h : Leaves q r u) (m : Instr)
    (s : State) : finish m s (r.placed q (some m)) = .next u := by
  cases h <;> rfl

/-- R231, R232: the word of one command that runs the stages of `j :: js` and does not wait has the
effect of the words of `j :: js`. -/
theorem run_stage_commands_eq_step {m j : Instr} {js : List Instr} {s : State} {rest : List Word}
    (hcur : s.cur = none) (herr : s.err = false) (hm : m.wf s.cfg = true)
    (hjs : ∀ i ∈ j :: js, stagePhase i ≠ .idle)
    (hexec : exec m (s.fetch rest m) =
      finish m (s.fetch rest m) (inTurn (j :: js) (.ok (s.fetch rest m))))
    (hheld : ∀ p, inTurn (j :: js) (.ok s.endCommand) ≠ .held p) :
    Host.Core.run Sys2Proof.core (js.length + 1)
        { s with cmdq := (j :: js).map encode ++ rest } =
      step { s with cmdq := encode m :: rest } := by
  have hj := wf_of_stage (hjs j List.mem_cons_self) s.cfg
  have hidle : step { s with cmdq := (j :: js).map encode ++ rest } =
      step { s.endCommand with cmdq := (j :: js).map encode ++ rest } :=
    (step_of_word hcur hj _ herr).trans (step_of_word (s := s.endCommand) rfl hj _ herr).symm
  obtain ⟨v, hrun, hv⟩ :=
    leaves_run (.ended (q := (j :: js).map encode ++ rest) s.endCommand herr) hjs hheld
  have hstages : inTurn (j :: js) (.ok (s.fetch rest m)) =
      (inTurn (j :: js) (.ok s.endCommand)).placed rest (some m) :=
    inTurn_placed hjs (.ok s.endCommand) rest (some m)
  rw [step_of_word hcur hm rest herr, hexec, hstages, finish_of_leaves hv]
  exact (run_succ_congr hidle _).trans hrun

/-- Settles O44: on a Block the stages do not wait; without one `LDBLK` does. -/
theorem cblkEqualsItsNineStages : Obligations.CblkEqualsItsNineStages := by
  unfold Obligations.CblkEqualsItsNineStages
  intro s rest hcur herr
  refine ⟨fun hready => ?_, fun hshort heoi => ?_⟩
  · refine run_stage_commands_eq_step (m := .cblk) (j := .ldblk)
      (js := [.rot, .mtfe, .hcnt, .htree, .hcode, .henc, .ctser, .frame]) hcur herr rfl (by decide)
      rfl (stagesCblk_ne_held (s := s.endCommand) ((blockReady_iff _).mpr hready))
  · have hnot : blockReady (s.fetch rest .cblk) = false := blockReady_eq_false hshort heoi
    refine (step_of_word (i := .cblk) hcur rfl rest herr).trans ?_
    rw [exec_cblk, stagesCblk_of_not_ready hnot, finish_held]
    rfl

/-- R232: short of the end of the container the stages of `DBLK` are six. -/
theorem stagesDblk_eq_inTurn {s : State} (h : deframeOutcome s ≠ .endOfContainer) :
    stagesDblk s = inTurn [.deframe, .ctdes, .hdec, .mtfd, .unrot, .collect] (.ok s) := by
  rw [stagesDblk, if_neg h]; rfl

theorem stageDeframe_ne_held {s : State} (h : deframeOutcome s ≠ .wait) (p : Phase) :
    stageDeframe s ≠ .held p := by
  rw [stageDeframe]
  cases ho : deframeOutcome s with
  | wait => exact absurd ho h
  | _ => nofun

/-- R298: `DBLK` waits only where `DEFRAME` does. -/
theorem stagesDblk_ne_held {s : State} (h : deframeOutcome s ≠ .wait) (p : Phase) :
    stagesDblk s ≠ .held p := by
  by_cases hend : deframeOutcome s = .endOfContainer
  · rw [stagesDblk, if_pos hend]
    exact stageDeframe_ne_held h p
  · rw [stagesDblk_eq_inTurn hend]
    exact inTurn_ne_held (js := [.ctdes, .hdec, .mtfd, .unrot, .collect]) (stageDeframe_ne_held h)
      (by decide) p

theorem stagesDblk_of_wait {s : State} (h : deframeOutcome s = .wait) :
    stagesDblk s = .held .deframe := by
  rw [stagesDblk, h, if_neg nofun, stageDeframe, h]; rfl

theorem stagesDblk_of_end {s : State} (heoi : s.eoi = true) (hin : s.inp = []) :
    stagesDblk s = .ok { s with eoc := true, phase := .deframe } := by
  have hend : deframeOutcome s = .endOfContainer := by
    rw [deframeOutcome_of_incomplete (seq := none) (by rw [hin]; rfl), if_pos heoi, if_pos hin]
  rw [stagesDblk, if_pos hend, stageDeframe, hend]; rfl

/-- Settles O45: by the outcome of `DEFRAME`, which does not depend on `CMDQ`, `CUR` and `PHASE`. -/
theorem dblkEqualsItsSixStages : Obligations.DblkEqualsItsSixStages := by
  unfold Obligations.DblkEqualsItsSixStages
  intro s rest hcur herr
  have hstep : step { s with cmdq := 0x61000000 :: rest } = exec .dblk (s.fetch rest .dblk) :=
    step_of_word (i := .dblk) hcur rfl rest herr
  refine ⟨fun hwait hend => ?_, fun hwait => ?_, fun heoi hin => ?_⟩
  · refine run_stage_commands_eq_step (m := .dblk) (j := .deframe)
      (js := [.ctdes, .hdec, .mtfd, .unrot, .collect]) hcur herr rfl (by decide) ?_ ?_
    · rw [exec_dblk, stagesDblk_eq_inTurn (s := s.fetch rest .dblk) hend]
    · rw [← stagesDblk_eq_inTurn (s := s.endCommand) hend]
      exact stagesDblk_ne_held (s := s.endCommand) hwait
  · rw [hstep, exec_dblk, stagesDblk_of_wait (s := s.fetch rest .dblk) hwait, finish_held]; rfl
  · rw [hstep, exec_dblk, stagesDblk_of_end (s := s.fetch rest .dblk) heoi hin, finish_ok, hcur]
    rfl

/-! ## A pass of `COMP` and of `DECOMP` (R233 to R236) -/

/-- The same stages as the command `m` and as a pass of the loop `i`: they differ in what is in
execution afterwards, unless an error has ended both. -/
theorem finishPass_eq_of_finish {m i : Instr} {p : Phase} {s : State} {r : StageEnd}
    (hr : r.Within m s) (hheld : ∀ p, r ≠ .held p) (herr : s.err = false) :
    ∃ t, finish m s r = .next t ∧
      finishPass i p s r = .next (if t.err then t else { t with cur := some i, phase := p }) := by
  cases r with
  | ok t =>
    have hterr : ¬ t.endCommand.err = true := Bool.eq_false_iff.mp (hr.err.trans herr)
    exact ⟨_, rfl, by rw [if_neg hterr]; rfl⟩
  | raised t =>
    obtain ⟨u, e, sub, seq, q, -, -, rfl⟩ := hr
    exact ⟨_, rfl, rfl⟩
  | held p => exact absurd rfl (hheld p)

/-- Settles O47: the three cases of `COMP`; a pass and `CBLK` have the same stages. -/
theorem compRunsOneBlockAPass : Obligations.CompRunsOneBlockAPass := by
  unfold Obligations.CompRunsOneBlockAPass
  refine ⟨by decide, fun s hblk herr => ⟨fun hshort heoi => ?_, exec_comp_of_used_up,
    fun hready hin => ?_⟩⟩
  · rw [exec, execComp, blockReady_eq_false hshort heoi, if_neg Bool.false_ne_true]
    rfl
  · have hready := (blockReady_iff s).mpr hready
    have hsome : ¬ s.inAvail = 0 := by rwa [State.inAvail, List.length_eq_zero_iff]
    rw [exec_cblk, exec, execComp, if_pos hready, if_neg hsome]
    exact finishPass_eq_of_finish (stagesCblk_within s) (stagesCblk_ne_held hready) herr

theorem atContainerEnd_iff (s : State) :
    atContainerEnd s = true ↔ s.phase = .deframe ∧ s.eoc = true := by
  rw [atContainerEnd, Bool.and_eq_true, decide_eq_true_iff]

/-- R234: the final `CONCAT`. -/
theorem exec_decomp_of_end {s : State} (h : atContainerEnd s = true) :
    exec .decomp s = .next { s with
      rs := []
      out := s.out ++ s.rs.concat
      outCnt := s.outCnt + BitVec.ofNat 32 s.rs.concat.length
      cur := none, phase := .idle } := by
  rw [exec, execDecomp, if_pos h]; rfl

theorem exec_decomp_of_pass {s : State} (h : ¬ atContainerEnd s = true) :
    exec .decomp s = finishPass .decomp .deframe s (stagesDblk s) := by
  rw [exec, execDecomp, if_neg h]

/-- Settles O48: the final `CONCAT`, whose Blocks a canonical store has in ascending order; or a
pass, which has the stages of `DBLK`. -/
theorem decompRunsOneRecordAPass : Obligations.DecompRunsOneRecordAPass := by
  unfold Obligations.DecompRunsOneRecordAPass
  refine ⟨by decide, fun s herr => ⟨fun hphase heoc => ?_, fun es hphase heoc hwf hperm hasc => ?_,
    fun hpass => ?_⟩⟩
  · exact exec_decomp_of_end ((atContainerEnd_iff s).mpr ⟨hphase, heoc⟩)
  · obtain rfl : es = s.rs := Store.eq_of_perm ((Store.wf_iff es).mpr hasc) hwf hperm
    exact exec_decomp_of_end ((atContainerEnd_iff s).mpr ⟨hphase, heoc⟩)
  · have hnot : ¬ atContainerEnd s = true := by
      rw [atContainerEnd_iff, not_and_or, Bool.not_eq_true]
      exact hpass
    rw [exec_decomp_of_pass hnot]
    refine ⟨fun hwait => ?_, fun hwait => ?_⟩
    · rw [stagesDblk_of_wait hwait]; rfl
    · exact finishPass_eq_of_finish (stagesDblk_within s) (stagesDblk_ne_held hwait) herr

/-! ## `DECOMP` that fails (R234) -/

/-- `OUT`, its count and the store are those of `s`. -/
structure SameOutput (s u : State) : Prop where
  out : u.out = s.out
  outCnt : u.outCnt = s.outCnt
  rs : u.rs = s.rs

theorem sameOutput_ignoresSequencer (s : State) : IgnoresSequencer (SameOutput s) :=
  fun _ _ _ _ _ _ _ hu => ⟨hu.out, hu.outCnt, hu.rs⟩

theorem keeps_sameOutput (s : State) {js : List Instr}
    (hjs : ∀ j ∈ js, j ≠ .srst ∧ ∀ e ∈ [Elem.out, .outCnt, .rs], e ∉ writes j) :
    ∀ j ∈ js, Keeps (SameOutput s) (stagesOf j) := by
  intro j hj
  obtain ⟨hne, hrow⟩ := hjs j hj
  refine keeps_of_row (sameOutput_ignoresSequencer s) _ (fun _ _ hu hsame => ?_) hne hrow
  exact ⟨(hsame .out (by decide)).trans hu.out, (hsame .outCnt (by decide)).trans hu.outCnt,
    (hsame .rs (by decide)).trans hu.rs⟩

/-- The stages of `DBLK` before `COLLECT` keep the output and the store; `COLLECT` writes the store
when it does not raise. -/
theorem stagesDblk_raised {s t : State} (h : stagesDblk s = .raised t) : SameOutput s t := by
  by_cases hend : deframeOutcome s = .endOfContainer
  · rw [stagesDblk, if_pos hend, stageDeframe, hend] at h
    cases h
  · have hbefore :
        (inTurn [.deframe, .ctdes, .hdec, .mtfd, .unrot] (.ok s)).All (SameOutput s) :=
      inTurn_all (keeps_sameOutput s (by decide)) ⟨rfl, rfl, rfl⟩
    replace h : (inTurn [.deframe, .ctdes, .hdec, .mtfd, .unrot] (.ok s)).andThen stageCollect =
        .raised t := (stagesDblk_eq_inTurn hend).symm.trans h
    rcases andThen_eq_raised.mp h with hr | ⟨u, hu, hcollect⟩
    · rwa [hr] at hbefore
    · rw [hu] at hbefore
      rcases stageCollect_cases u with ⟨-, -, he⟩ | ⟨-, he⟩ | ⟨-, -, he⟩ <;>
        cases he.symm.trans hcollect <;> exact (sameOutput_ignoresSequencer s).raise hbefore ..

/-- Settles O50: the final `CONCAT` does not fail and ends `DECOMP`; a pass that fails is
`stagesDblk_raised`, and the row of `DBLK` has no `OUT`. -/
theorem failedDecompPushesNothing : Obligations.FailedDecompPushesNothing := by
  unfold Obligations.FailedDecompPushesNothing
  intro s t herr h
  by_cases hend : atContainerEnd s = true
  · rw [exec_decomp_of_end hend] at h
    cases h
    exact ⟨fun hterr => absurd (herr.symm.trans hterr) nofun, fun hcur => absurd rfl hcur⟩
  · rw [exec_decomp_of_pass hend] at h
    have hw := stagesDblk_within s
    cases hst : stagesDblk s with
    | ok u =>
      rw [hst] at h hw
      cases h
      exact ⟨fun hterr => absurd ((hw.err.trans herr).symm.trans hterr) nofun,
        fun _ => ⟨hw.same .out (by decide), hw.same .outCnt (by decide)⟩⟩
    | raised u =>
      rw [hst] at h
      cases h
      have hsame := stagesDblk_raised hst
      exact ⟨fun _ => ⟨hsame.out, hsame.outCnt, hsame.rs⟩, fun _ => ⟨hsame.out, hsame.outCnt⟩⟩
    | held p =>
      rw [hst] at h
      cases h
      exact ⟨fun hterr => absurd (herr.symm.trans hterr) nofun, fun _ => ⟨rfl, rfl⟩⟩

end Sys2Proof.Machine
end

section
/-! The system commands: `NOP` only ends, `SETBS` and `SETCS` write their operand, `SRST` restores
the reset values (R250 to R253). -/

namespace Sys2Proof.Machine

open Sys2Proof.Laws

/-! ## The words of `SETBS` and `SETCS` (R90, R94) -/

/-- R90: `op` in bits 31:24 and `imm` in bits 23:0, as a number. -/
theorem encode_toNat (i : Instr) :
    (encode i).toNat = i.opcode.toNat * 2 ^ 24 + i.immediate.toNat := by
  rw [encode, BitVec.toNat_append, ← Nat.shiftLeft_add_eq_or_of_lt i.immediate.isLt,
    Nat.shiftLeft_eq]

theorem encode_setbs_toNat (imm : BitVec 24) :
    (encode (.setbs imm)).toNat = 0x01000000 + imm.toNat := by
  simp [encode_toNat, Instr.opcode, Instr.immediate]

theorem encode_setcs_toNat (imm : BitVec 24) :
    (encode (.setcs imm)).toNat = 0x02000000 + imm.toNat := by
  simp [encode_toNat, Instr.opcode, Instr.immediate]

theorem decode_encode_setbs (cfg : Config) (imm : BitVec 24) :
    decode cfg (encode (.setbs imm)) = decodeSetbs cfg imm := by
  obtain ⟨-, hop, himm⟩ := TableRow.setbs imm
  rw [decode, hop, himm]
  rfl

theorem decode_encode_setcs (cfg : Config) (imm : BitVec 24) :
    decode cfg (encode (.setcs imm)) = decodeSetcs imm := by
  obtain ⟨-, hop, himm⟩ := TableRow.setcs imm
  rw [decode, hop, himm]
  rfl

theorem exists_illegal_of_instr?_eq_none {r : Decoded} (h : r.instr? = none) :
    ∃ why, r = .illegal why := by
  cases r with
  | command i => cases h
  | illegal why => exact ⟨why, rfl⟩

/-! ## What the system commands do (R250 to R253) -/

theorem exec_nop (s : State) : exec .nop s = .next s.endCommand := rfl

theorem exec_setbs_of_wf {imm : BitVec 24} {s : State} (h : (Instr.setbs imm).wf s.cfg = true) :
    exec (.setbs imm) s = .next { s with blkSize := immOperand imm }.endCommand := by
  rw [exec, execSetbs, if_pos h]

theorem exec_setcs_of_wf {imm : BitVec 24} {s : State} (h : (Instr.setcs imm).wf s.cfg = true) :
    exec (.setcs imm) s = .next { s with chkSize := immOperand imm }.endCommand := by
  rw [exec, execSetcs, if_pos h]

/-- Settles O14: a legal operand is written zero-extended and so keeps its value; the word's fields
are the opcode and the operand, which the decoder tests. -/
theorem nopSetbsSetcsResults : Obligations.NopSetbsSetcsResults := by
  unfold Obligations.NopSetbsSetcsResults
  refine ⟨by decide, fun s => ⟨exec_nop s, fun imm h1 hcap => ?_, fun imm h1 => ?_,
    fun imm => ⟨encode_setbs_toNat imm, encode_setcs_toNat imm, fun hbad => ?_,
      fun hzero => ?_⟩⟩⟩
  · exact ⟨immOperand imm, immOperand_toNat imm,
      exec_setbs_of_wf (setbs_wf_iff.mpr ⟨ne_zero_iff_one_le_toNat.mpr h1, hcap⟩)⟩
  · exact ⟨immOperand imm, immOperand_toNat imm,
      exec_setcs_of_wf (setcs_wf_iff.mpr (ne_zero_iff_one_le_toNat.mpr h1))⟩
  · rw [decode_encode_setbs]
    exact exists_illegal_of_instr?_eq_none
      (decodeSetbs_instr?_eq_none_iff.mpr (hbad.imp_left BitVec.eq_of_toNat_eq))
  · rw [decode_encode_setcs]
    exact exists_illegal_of_instr?_eq_none
      (decodeSetcs_instr?_eq_none_iff.mpr (BitVec.eq_of_toNat_eq hzero))

/-- R253: apart from the output and the queue, the soft reset leaves the reset state of the core. -/
theorem softReset_eq_resetWith (s : State) :
    { s.softReset with out := [], outRead := 0, outCnt := 0, cmdq := [] } =
      State.resetWith s.cfg := rfl

/-- Settles O15: `SRST` is the soft reset, which keeps the output and the queue. -/
theorem srstRestoresResetValues : Obligations.SrstRestoresResetValues := by
  unfold Obligations.SrstRestoresResetValues
  exact ⟨by decide, fun s => ⟨s.softReset, rfl, s.softReset_out, s.softReset_outRead,
    s.softReset_outCnt, s.softReset_cmdq, softReset_eq_resetWith s⟩⟩

end Sys2Proof.Machine
end

section
/-! The error state and the errors of the stage commands (R261 to R269), and the step that always
answers (R236, R277, R298). -/

namespace Sys2Proof.Machine

open Sys2Proof.Claims

/-! ## Every step answers (R266, R277, R298) -/

theorem finish_answers (i : Instr) (s : State) (r : StageEnd) : ∃ t, finish i s r = .next t := by
  cases r <;> exact ⟨_, rfl⟩

theorem finishPass_answers (i : Instr) (p : Phase) (s : State) (r : StageEnd) :
    ∃ t, finishPass i p s r = .next t := by
  cases r <;> exact ⟨_, rfl⟩

/-- R266, R298: errors and waits included, a command leads to a next state. -/
theorem exec_answers (i : Instr) (s : State) : ∃ t, exec i s = .next t := by
  cases i with
  | nop | srst | std | mtfe | mtfd | hcnt | htree | hcode | ctser | concat => exact ⟨_, rfl⟩
  | setbs imm =>
    rw [exec, execSetbs]
    split_ifs <;> exact ⟨_, rfl⟩
  | setcs imm =>
    rw [exec, execSetcs]
    split_ifs <;> exact ⟨_, rfl⟩
  | comp =>
    rw [exec, execComp]
    split_ifs
    · exact ⟨_, rfl⟩
    · exact finishPass_answers ..
    · exact ⟨_, rfl⟩
  | decomp =>
    rw [exec, execDecomp]
    split_ifs
    · exact finish_answers ..
    · exact finishPass_answers ..
  | ldblk | rot | unrot | henc | hdec | ctdes | frame | deframe | collect | cblk | dblk =>
    exact finish_answers ..

theorem continueCommand_answers (i : Instr) (s : State) : ∃ t, s.continueCommand i = .next t := by
  rw [State.continueCommand]
  split_ifs
  · exact ⟨_, rfl⟩
  · exact exec_answers i s

theorem takeWord_answers (w : Word) (rest : List Word) (s : State) :
    ∃ t, s.takeWord w rest = .next t := by
  rw [State.takeWord]
  cases decode s.cfg w with
  | command i =>
    dsimp only
    split_ifs
    · exact ⟨_, rfl⟩
    · exact exec_answers i _
  | illegal why =>
    dsimp only
    split_ifs <;> exact ⟨_, rfl⟩

/-- R277: with nothing in execution and nothing queued a step changes nothing. -/
theorem step_of_idle {s : State} (hcur : s.cur = none) (hq : s.cmdq = []) : step s = .next s := by
  rw [step, State.advance, hcur, hq]

/-- With nothing in execution the head of `CMDQ` is taken. -/
theorem step_of_queued {s : State} {w : Word} {rest : List Word} (hcur : s.cur = none)
    (hq : s.cmdq = w :: rest) : step s = s.takeWord w rest := by
  rw [step, State.advance, hcur, hq]

/-- Settles O13: a step goes on with a command, waits, or takes a word, and each of them answers. -/
theorem noStepStops : Obligations.NoStepStops := by
  unfold Obligations.NoStepStops
  intro s
  cases hcur : s.cur with
  | some i =>
    rw [step, State.advance, hcur]
    exact continueCommand_answers i s
  | none =>
    cases hq : s.cmdq with
    | nil => exact ⟨s, step_of_idle hcur hq⟩
    | cons w rest =>
      rw [step_of_queued hcur hq]
      exact takeWord_answers w rest s

/-- Settles O9: the two cases of a step that takes no word. -/
theorem heldCommandsGoOnAndAnIdleCoreWaits : Obligations.HeldCommandsGoOnAndAnIdleCoreWaits := by
  unfold Obligations.HeldCommandsGoOnAndAnIdleCoreWaits
  exact ⟨fun _ _ => step_of_cur, fun _ => step_of_idle⟩

/-! ## The error state (R268, R269) -/

/-- R93: the word of `SRST`, on every core. -/
theorem decode_eq_srst_iff {cfg : Config} {w : Word} :
    decode cfg w = .command .srst ↔ w = 0x03000000 := by
  have hword : encode .srst = 0x03000000 := by decide
  have hwf : Instr.srst.wf cfg = true := rfl
  rw [decodeAndEncodeAgree, hword, and_iff_right hwf, eq_comm]

/-- R268: in the error state a word that is not that of `SRST` has no effect, legal or not. -/
theorem takeWord_of_err {s : State} {w : Word} (rest : List Word) (herr : s.err = true)
    (hw : w ≠ 0x03000000) : s.takeWord w rest = .next { s with cmdq := rest } := by
  rw [State.takeWord]
  cases hdec : decode s.cfg w with
  | command i =>
    have hi : i ≠ .srst := fun h => hw (decode_eq_srst_iff.mp (h ▸ hdec))
    exact if_pos (by simp [herr, hi])
  | illegal why => exact if_pos herr

/-- R268: `SRST` is executed with an error or without. -/
theorem takeWord_srst (s : State) (rest : List Word) :
    s.takeWord 0x03000000 rest = exec .srst (s.fetch rest .srst) := by
  rw [State.takeWord, decode_eq_srst_iff.mpr rfl]
  exact if_neg (by simp)

/-- Settles O10: the step takes the word, and the error state lets only that of `SRST` through. -/
theorem errorStateDiscardsAllButSrst : Obligations.ErrorStateDiscardsAllButSrst := by
  unfold Obligations.ErrorStateDiscardsAllButSrst
  intro s w rest hcur herr hq
  rw [step_of_queued hcur hq]
  refine ⟨takeWord_of_err rest herr, ?_⟩
  rintro rfl
  exact takeWord_srst s rest

/-- R269: no action of the host but `Reset` writes the error registers. -/
theorem hostAct_keeps_error {a : HostAction} {s t : State} (h : hostAct a s = .next t)
    (ha : a ≠ .reset) : t.err = s.err ∧ t.errCause = s.errCause ∧ t.errSeq = s.errSeq := by
  cases a with
  | issueCmd | setEoi | readReg => cases h; exact ⟨rfl, rfl, rfl⟩
  | pushIn | popOut =>
    rw [hostAct] at h
    split_ifs at h
    cases h
    exact ⟨rfl, rfl, rfl⟩
  | reset => exact absurd rfl ha

/-- Settles O11: an idle core waits, and by O10 a word that is not that of `SRST` changes only
`CMDQ`. -/
theorem onlySrstOrResetClearsErr : Obligations.OnlySrstOrResetClearsErr := by
  unfold Obligations.OnlySrstOrResetClearsErr
  intro s t herr hcur
  refine ⟨fun hstep => ?_, fun a hact => ?_⟩
  · cases hq : s.cmdq with
    | nil =>
      cases (step_of_idle hcur hq).symm.trans hstep
      exact .inl ⟨herr, rfl, rfl⟩
    | cons w rest =>
      by_cases hw : w = 0x03000000
      · exact .inr ⟨rest, by rw [hw]⟩
      · obtain ⟨hdiscard, -⟩ := errorStateDiscardsAllButSrst s w rest hcur herr hq
        cases (hdiscard hw).symm.trans hstep
        exact .inl ⟨herr, rfl, rfl⟩
  · by_cases ha : a = .reset
    · exact .inr ha
    · obtain ⟨hkept, hcause, hseq⟩ := hostAct_keeps_error hact ha
      exact .inl ⟨hkept.trans herr, hcause, hseq⟩

/-! ## The error word (R26, R261) -/

/-- R26: what `raise` records can be read back, and the reserved bits are 0: four causes, two values
of SEQV and sixteen sub-causes are checked. -/
theorem errCauseWord_fields (e : ErrorKind) (sub : BitVec 4) (seqv : Bool) :
    causeField (errCauseWord e sub seqv) = e.code ∧ subField (errCauseWord e sub seqv) = sub ∧
      (errCauseWord e sub seqv).extractLsb' 9 23 = 0 ∧
      seqvField (errCauseWord e sub seqv) = seqv := by
  cases e <;> cases seqv <;> revert sub <;> decide

/-! ## The number an error of `DEFRAME` records (R99, R267) -/

theorem u32At_zero (b : List Byte) : u32At b 0 = unbe32 b := by
  simp [u32At, slice, unbe32, List.getD_eq_getElem?_getD]

theorem parseTable_oversize {cfg : Config} {b : List Byte} {seq seq' : Word} {n o : Nat}
    (h : parseTable cfg b seq n o = .oversize seq') : seq' = seq := by
  rw [parseTable, parsePayload] at h
  split_ifs at h <;> cases h <;> rfl

/-- The number of a record is read before the first of its lengths. -/
theorem parseRecord_oversize {cfg : Config} {b : List Byte} {seq : Word}
    (h : parseRecord cfg b = .oversize seq) : 4 ≤ b.length ∧ seq = u32At b 0 := by
  rw [parseRecord] at h
  split_ifs at h with h4 h8
  · cases h
    exact ⟨not_lt.mp h4, rfl⟩
  · exact ⟨not_lt.mp h4, parseTable_oversize h⟩

theorem recordedSeq_of_oversize {s : State} {seq : Word}
    (h : deframeOutcome s = .oversize seq) : recordedSeq s .deframe = some seq := by
  rw [deframeOutcome] at h
  cases hp : parseRecord s.cfg s.inp with
  | complete => simp [hp] at h
  | incomplete =>
    simp only [hp] at h
    split_ifs at h
  | oversize seq' =>
    simp only [hp] at h
    cases h
    obtain ⟨h4, rfl⟩ := parseRecord_oversize hp
    rw [recordedSeq, if_neg (not_lt.mpr h4), u32At_zero]

theorem recordedSeq_of_truncated {s : State} {seq : Option Word}
    (h : deframeOutcome s = .truncated seq) : recordedSeq s .deframe = seq := by
  rw [deframeOutcome] at h
  cases hp : parseRecord s.cfg s.inp with
  | complete | oversize => simp [hp] at h
  | incomplete seq' =>
    simp only [hp] at h
    split_ifs at h
    cases h
    rw [recordedSeq, parseRecord_incomplete hp, u32At_zero]

/-! ## What the stage commands raise (R263, R266, R267) -/

/-- `t` is the error state that a stage command `i`, begun in `s`, raises: an error of the table in
the stage of `i`, with the number `i` records. -/
def RaisedBy (i : Instr) (s t : State) : Prop :=
  ∃ e sub, (e, sub) ∈ errorTable ∧ t = s.raise e sub (recordedSeq s i) (stagePhase i)

/-- R266: the stage of a command raises in the state in which it began, with none of its writes. -/
theorem stagesOf_raised {i : Instr} (hi : isMacro i = false) {s t : State}
    (h : stagesOf i s = .raised t) : RaisedBy i s t := by
  cases i with
  | setbs imm | setcs imm =>
    rw [stagesOf] at h
    split_ifs at h
    cases h
    exact ⟨_, _, by decide, rfl⟩
  | rot =>
    rcases stageRot_cases s with ⟨-, he⟩ | ⟨-, he⟩ <;> cases he.symm.trans h
    exact ⟨_, _, by decide, rfl⟩
  | unrot =>
    rcases stageUnrot_cases s with ⟨-, he⟩ | ⟨-, he⟩ <;> cases he.symm.trans h
    exact ⟨_, _, by decide, rfl⟩
  | henc =>
    rcases stageHenc_cases s with ⟨-, he⟩ | ⟨-, -, he⟩ | ⟨-, -, -, he⟩ | ⟨-, -, -, he⟩ <;>
      cases he.symm.trans h <;> exact ⟨_, _, by decide, rfl⟩
  | hdec =>
    rcases stageHdec_cases s with ⟨out, he, -⟩ | ⟨he, -⟩ | ⟨he, -⟩ <;>
      cases he.symm.trans h <;> exact ⟨_, _, by decide, rfl⟩
  | ctdes =>
    rcases stageCtdes_cases s with ⟨ct, -, he⟩ | ⟨-, he⟩ <;> cases he.symm.trans h
    exact ⟨_, _, by decide, rfl⟩
  | frame =>
    rcases stageFrame_cases s with ⟨-, he⟩ | ⟨-, he⟩ <;> cases he.symm.trans h
    exact ⟨_, _, by decide, rfl⟩
  | deframe =>
    rcases stageDeframe_cases s with
      ⟨seq, rt, cs, p, len, -, he⟩ | ⟨seq, ho, he⟩ | ⟨seq, ho, he⟩ | ⟨-, he⟩ | ⟨-, he⟩ <;>
      cases he.symm.trans h
    · exact ⟨.malformedContainer, 6, by decide, by rw [recordedSeq_of_oversize ho]; rfl⟩
    · exact ⟨.malformedContainer, 1, by decide, by rw [recordedSeq_of_truncated ho]; rfl⟩
  | collect =>
    rcases stageCollect_cases s with ⟨-, -, he⟩ | ⟨-, he⟩ | ⟨-, -, he⟩ <;>
      cases he.symm.trans h <;> exact ⟨_, _, by decide, rfl⟩
  | ldblk =>
    rcases stageLdblk_cases s with ⟨-, he⟩ | ⟨-, he⟩ <;> cases he.symm.trans h
  | nop | srst | std | mtfe | mtfd | hcnt | htree | hcode | ctser | concat => cases h
  | cblk | dblk | comp | decomp => cases hi

/-- R266: a command begun without error that leaves `ERR` set has raised: its stages ended with that
error, for neither the writes of its row nor its end set `ERR`. -/
theorem stagesOf_eq_raised {i : Instr} {s t : State} (herr : s.err = false)
    (h : exec i s = .next t) (hterr : t.err = true) : stagesOf i s = .raised t := by
  have hok : ∀ u, stagesOf i s = .ok u → u.err = false := by
    intro u hu
    by_cases hi : i = .srst
    · subst hi
      cases hu
      rfl
    · have hw := stagesOf_within hi s
      rw [hu] at hw
      exact (Frame.err hw).trans herr
  have hends := exec_ends h
  generalize stagesOf i s = r at hends hok
  cases hends with
  | done u | pass u => cases (hok u rfl).symm.trans hterr
  | raised => rfl
  | held p => cases herr.symm.trans hterr

/-- Settles O12: the stage of the command has raised, in the state in which it began. -/
theorem errorsAreAllOrNothing : Obligations.ErrorsAreAllOrNothing := by
  unfold Obligations.ErrorsAreAllOrNothing
  refine ⟨⟨rfl, rfl, rfl, rfl⟩, fun i s t hi herr h hterr => ?_⟩
  obtain ⟨e, sub, htable, rfl⟩ := stagesOf_raised hi (stagesOf_eq_raised herr h hterr)
  obtain ⟨hcause, hsub, hreserved, hseqv⟩ := errCauseWord_fields e sub (recordedSeq s i).isSome
  exact ⟨rfl, ⟨e, sub, htable, hcause, hsub⟩, hreserved, hseqv, rfl⟩

end Sys2Proof.Machine
end

section
/-! A command that waits shows it in `CUR` and `PHASE` only, and goes on waiting until the host acts
(R10, R298). -/

namespace Sys2Proof.Machine

open Sys2Proof.Claims

/-- R200, R298: without a Block `LDBLK` and the commands that begin with it wait. -/
theorem exec_of_not_ready {s : State} (h : blockReady s = false) {i : Instr}
    (hi : i = .ldblk ∨ i = .cblk ∨ i = .comp) : exec i s = .next (s.holdAt i .split) := by
  rcases hi with rfl | rfl | rfl
  · rw [exec_ldblk, stageLdblk, h, if_neg Bool.false_ne_true, finish_held]
  · rw [exec_cblk, stagesCblk_of_not_ready h, finish_held]
  · rw [exec, execComp, h, if_neg Bool.false_ne_true]

/-- R203, R298: without a whole record `DEFRAME` and the commands that begin with it wait. -/
theorem exec_of_no_record {s : State} (h : deframeOutcome s = .wait) {i : Instr}
    (hi : i = .deframe ∨ i = .dblk ∨ i = .decomp ∧ atContainerEnd s = false) :
    exec i s = .next (s.holdAt i .deframe) := by
  rcases hi with rfl | rfl | ⟨rfl, hend⟩
  · rw [exec_deframe, stageDeframe, h, finish_held]
  · rw [exec_dblk, stagesDblk_of_wait h, finish_held]
  · rw [exec_decomp_of_pass (Bool.eq_false_iff.mp hend), stagesDblk_of_wait h, finishPass_held]

/-- R298: a command that waits is held in its own phase. -/
theorem exec_of_waits {i : Instr} {s : State} (h : waits i s = true) :
    ∃ p, waitPhase i = some p ∧ exec i s = .next (s.holdAt i p) := by
  cases i with
  | ldblk | cblk | comp =>
    have hnot : blockReady s = false := (Bool.not_eq_true' _).mp h
    exact ⟨.split, rfl, exec_of_not_ready hnot (by simp)⟩
  | deframe | dblk => exact ⟨.deframe, rfl, exec_of_no_record (of_decide_eq_true h) (by simp)⟩
  | decomp =>
    obtain ⟨hend, hwait⟩ := (Bool.and_eq_true _ _).mp h
    exact ⟨.deframe, rfl, exec_of_no_record (of_decide_eq_true hwait)
      (.inr (.inr ⟨rfl, (Bool.not_eq_true' _).mp hend⟩))⟩
  | _ => cases h

/-- R298: whether a command waits does not depend on `CUR` and `PHASE`, but for `DECOMP` at the end
of the container. -/
theorem waits_holdAt {i : Instr} {s : State} (heoc : s.eoc = false) (j : Instr) (p : Phase) :
    waits i (s.holdAt j p) = waits i s := by
  cases i with
  | decomp => simp only [waits, State.holdAt_eoc, heoc, Bool.and_false]; rfl
  | _ => rfl

/-- Settles O60: the command is held in the phase it waits in, and being held it is held again. -/
theorem holdsChangeOnlyCurAndPhase : Obligations.HoldsChangeOnlyCurAndPhase := by
  unfold Obligations.HoldsChangeOnlyCurAndPhase
  intro i s t herr hwaits hexec
  obtain ⟨p, hp, hheld⟩ := exec_of_waits hwaits
  cases hheld.symm.trans hexec
  refine ⟨⟨p, hp, rfl⟩, fun heoc => ?_⟩
  obtain ⟨q, hq, hagain⟩ := exec_of_waits ((waits_holdAt heoc i p).trans hwaits)
  cases hp.symm.trans hq
  exact (step_of_cur (s := s.holdAt i p) rfl herr).trans hagain

end Sys2Proof.Machine
end
